-- ==== Sys2Proof/Word.lean ====
section
/-! DEFINITION. The word and byte types (R8: 32-bit values; R51: an address names one byte of 8 bits). -/

namespace Sys2Proof

/-- A register value, an address while it is computed, a memory word, an instruction word (R8, R80). -/
abbrev Word := BitVec 32

/-- The unit one address names (R51). -/
abbrev Byte := BitVec 8

end Sys2Proof
end

