-- ==== Sys2Proof/Syntax.lean ====
section
/-! DEFINITION. The abstract syntax of both instruction sets: one constructor of `Instr` per row of
spec/opcode_table.json (R109). -/

namespace Sys2Proof

/-- The two machines of R3; a run is of one of them (parameter `ISA` of R5). -/
inductive Isa where
  | arm
  | mips
  deriving DecidableEq, Repr

/-- The sixteen values of the ARM condition field, in the order of R90's table (0 to 15). -/
inductive Cond where
  | eq | ne | hs | lo | mi | pl | vs | vc | hi | ls | ge | lt | gt | le | al
  /-- 15, "NV (reserved)": an instruction with it is never executed (R225). -/
  | nv
  deriving DecidableEq, Repr

/-- An ARM general register, `r0` to `r14` (R20). Number 15 names no register (R21), so it has no value here. -/
abbrev ArmReg := Fin 15

/-- A MIPS register number, 0 to 31; number 0 is hardwired to zero (R26). -/
abbrev MipsReg := Fin 32

/-- ARM addressing modes 6 to 12 (R190), with their operands. -/
inductive IndexedMode where
  /-- Mode 6, `[Rn, Rm]` (R193). -/
  | regOffset (rm : ArmReg)
  /-- Mode 7, `[Rn, Rm, LSL #h]` (R194). -/
  | scaledOffset (rm : ArmReg) (h : BitVec 5)
  /-- Mode 8, `[Rn, #off]!` (R195). -/
  | immPre (off : BitVec 12)
  /-- Mode 9, `[Rn], #off` (R196). -/
  | immPost (off : BitVec 12)
  /-- Mode 10, `[Rn, Rm]!` (R197). -/
  | regPre (rm : ArmReg)
  /-- Mode 11, `[Rn, Rm, LSL #h]!` (R198). -/
  | scaledPre (rm : ArmReg) (h : BitVec 5)
  /-- Mode 12, `[Rn], Rm` (R199). -/
  | regPost (rm : ArmReg)
  deriving DecidableEq, Repr

/-- The eight memory addressing modes of R190. -/
inductive DtMode where
  /-- Mode 5, `[Rn, #off]` (R192). -/
  | immOffset (off : BitVec 12)
  /-- Modes 6 to 12. -/
  | indexed (m : IndexedMode)
  deriving DecidableEq, Repr

/-- The instructions, one constructor per row of spec/opcode_table.json. Immediates and displacements
are held as the fields the encodings give them. -/
inductive Instr where
  /-- ARM `ADD{cond}{S} Rd, Rn, Rm {, LSL #h}` (R172, R94, R95). -/
  | armAddReg (cond : Cond) (setFlags : Bool) (rd rn rm : ArmReg) (h : BitVec 5)
  /-- ARM `ADD{cond}{S} Rd, Rn, #imm` (R172, R93). -/
  | armAddImm (cond : Cond) (setFlags : Bool) (rd rn : ArmReg) (imm : BitVec 12)
  /-- ARM `LDR{cond} Rd, [Rn, #off]`, mode 5 (R192). -/
  | armLdrImm (cond : Cond) (rd rn : ArmReg) (off : BitVec 12)
  /-- ARM `B{cond} label` (R222). -/
  | armB (cond : Cond) (imm : BitVec 24)
  /-- ARM `BL{cond} label` (R223). -/
  | armBl (cond : Cond) (imm : BitVec 24)
  /-- ARM `LDR{cond} Rd, <mode>`, modes 6 to 12 (R193 to R199). -/
  | armLdrIndexed (cond : Cond) (rd rn : ArmReg) (mode : IndexedMode)
  /-- ARM `STR{cond} Rd, <mode>`, modes 5 to 12 (R201). -/
  | armStr (cond : Cond) (rd rn : ArmReg) (mode : DtMode)
  /-- MIPS `add rd, rs, rt` (R152). -/
  | mipsAdd (rd rs rt : MipsReg)
  /-- MIPS `addi rt, rs, imm` (R153). -/
  | mipsAddi (rt rs : MipsReg) (imm : BitVec 16)
  /-- MIPS `lw rt, imm(rs)` (R154). -/
  | mipsLw (rt rs : MipsReg) (imm : BitVec 16)
  /-- MIPS `sw rt, imm(rs)` (R155). -/
  | mipsSw (rt rs : MipsReg) (imm : BitVec 16)
  /-- MIPS `beq rs, rt, label` (R156). -/
  | mipsBeq (rs rt : MipsReg) (imm : BitVec 16)
  /-- MIPS `j label` (R157). -/
  | mipsJ (target : BitVec 26)
  deriving DecidableEq, Repr

/-- The machine an instruction belongs to (column `isa` of the opcode table). -/
def Instr.isa : Instr → Isa
  | .armAddReg .. => .arm
  | .armAddImm .. => .arm
  | .armLdrImm .. => .arm
  | .armB .. => .arm
  | .armBl .. => .arm
  | .armLdrIndexed .. => .arm
  | .armStr .. => .arm
  | .mipsAdd .. => .mips
  | .mipsAddi .. => .mips
  | .mipsLw .. => .mips
  | .mipsSw .. => .mips
  | .mipsBeq .. => .mips
  | .mipsJ .. => .mips

/-- The condition of an ARM instruction (R90: every ARM format begins with it); MIPS has none. -/
def Instr.cond? : Instr → Option Cond
  | .armAddReg c .. => some c
  | .armAddImm c .. => some c
  | .armLdrImm c .. => some c
  | .armB c .. => some c
  | .armBl c .. => some c
  | .armLdrIndexed c .. => some c
  | .armStr c .. => some c
  | .mipsAdd .. => none
  | .mipsAddi .. => none
  | .mipsLw .. => none
  | .mipsSw .. => none
  | .mipsBeq .. => none
  | .mipsJ .. => none

end Sys2Proof
end

