-- ==== Sys2Proof/Config.lean ====
section
/-! DEFINITION. What is fixed for a run (R5): the parameters of the model, and the one free value of the
spec, the draw of a device read (R58). The parameters are a record that State carries and no step
changes (notes/assumptions/2.md). -/

namespace Sys2Proof

/-- `BYTE_ORDER` (R56). -/
inductive ByteOrder where
  /-- The least significant byte of a word is at the lowest address. -/
  | little
  /-- The most significant byte of a word is at the lowest address. -/
  | big
  deriving DecidableEq, Repr

/-- `ARM_IMM12_MODE` (R93). -/
inductive Imm12Mode where
  /-- The default: `Operand2[11:8]` must be 0. -/
  | refuseHigh
  /-- The 12 bits read as a number. -/
  | zext12
  /-- Eight bits rotated right by twice the upper four. -/
  | rot8
  deriving DecidableEq, Repr

/-- The two transfer operations a DT Opcode can stand for (R97, R201). -/
inductive DtOp where
  | ldr
  | str
  deriving DecidableEq, Repr

/-- The numbers of the memory addressing modes (R190). -/
inductive ModeNumber where
  | m5 | m6 | m7 | m8 | m9 | m10 | m11 | m12
  deriving DecidableEq, Repr

/-- A key of the partial map `ARM_DT_OPCODE`: an operation and an addressing mode (R97). -/
structure DtKey where
  op : DtOp
  mode : ModeNumber
  deriving DecidableEq, Repr

/-- A range of byte addresses, both ends included (R59). -/
structure Region where
  lo : Word
  hi : Word
  deriving DecidableEq, Repr

/-- `TEXT` at its two levels: a list of words, or a list of instruction terms of 4 bytes each (R190, D34). -/
inductive Program where
  | words (ws : List Word)
  | terms (is : List Instr)
  deriving DecidableEq, Repr

/-- What one 4-byte slot of `TEXT` holds. -/
inductive Slot where
  | word (w : Word)
  | term (i : Instr)
  deriving DecidableEq, Repr

/-- The parameters of R5 that are not fixed by the source (those that are fixed stand in the types:
32-bit words, 15 ARM registers, 31 MIPS registers). -/
structure Params where
  /-- `ISA`. -/
  isa : Isa
  /-- `BYTE_ORDER`. -/
  byteOrder : ByteOrder
  /-- `TEXT_BASE`. -/
  textBase : Word
  /-- `TEXT`. -/
  text : Program
  /-- `END_PC`: `none` is the default `TEXT_BASE + 4 * length(TEXT)`. -/
  endPc : Option Word
  /-- `DATA_REGIONS`. -/
  dataRegions : List Region
  /-- `IO_REGIONS`. -/
  ioRegions : List Region
  /-- `ARM_IMM12_MODE`. -/
  armImm12Mode : Imm12Mode
  /-- The OPEN entries of `ARM_DT_OPCODE`; the entry (LDR, mode 5) is fixed and stands in `Decode`. -/
  armDtOpcode : List (DtKey × BitVec 6)
  /-- `ARM_BL_FIELD4`, `none` while unset. -/
  armBlField4 : Option (BitVec 4)
  /-- `ARM_PC_READ_OFFSET`. -/
  armPcReadOffset : Word
  /-- `MIPS_REPRESENTATIVE_SET`. -/
  mipsRepresentativeSet : Bool
  /-- `MIPS_BRANCH_DELAY_SLOT`. -/
  mipsBranchDelaySlot : Bool
  deriving DecidableEq, Repr

/-- The parameters with every default of R5 and every OPEN encoding unset. The OPEN ones that must have
a value (`ISA`, `BYTE_ORDER`, `TEXT_BASE`, `DATA_REGIONS`) are a DESIGN CHOICE (notes/assumptions/3.md):
ARM, little, text from the middle of the address space, all below it data, and no program. -/
def Params.standard : Params where
  isa := .arm
  byteOrder := .little
  textBase := 0x80000000
  text := .words []
  endPc := none
  dataRegions := [⟨0x00000000, 0x7FFFFFFF⟩]
  ioRegions := []
  armImm12Mode := .refuseHigh
  armDtOpcode := []
  armBlField4 := none
  armPcReadOffset := 8
  mipsRepresentativeSet := true
  mipsBranchDelaySlot := false

/-- The number of 4-byte slots of a program. -/
def Program.length : Program → Nat
  | .words ws => ws.length
  | .terms is => is.length

/-- The free values of R58: the k-th draw of a run, a 32-bit value under no law (notes/assumptions/7.md). -/
opaque Config.draw : Nat → Word

/-- What a byte of memory that nothing has listed reads as. DESIGN CHOICE, unsafe (notes/assumptions/5.md):
`LAUNCH` gives every byte of `DATA_REGIONS` some value (R270), the spec does not say which. -/
def Config.unlistedByte : Byte := 0

end Sys2Proof
end

