-- ==== Sys2Proof/WellFormed.lean ====
section
/-! DEFINITION. What makes an instruction term well formed under the parameters, and what makes the
parameters themselves legal (R5, R97, R99, R271). -/

namespace Sys2Proof

/-- The instruction is one of the machine this run is of (R3). -/
def isaOk (p : Params) (i : Instr) : Bool := decide (i.isa = p.isa)

/-- A MIPS instruction is admitted only when `MIPS_REPRESENTATIVE_SET` is true (R150). -/
def gateOk (p : Params) (i : Instr) : Bool :=
  match i.isa with
  | .arm => true
  | .mips => p.mipsRepresentativeSet

/-- Condition 15 is reserved (R225). -/
def condOk (i : Instr) : Bool :=
  match i.cond? with
  | some c => decide (c ≠ .nv)
  | none => true

/-- Under `refuse_high` an ARM immediate has a value only when its upper four bits are 0 (R93). -/
def immOk (p : Params) : Instr → Bool
  | .armAddImm _ _ _ _ imm => decide (p.armImm12Mode ≠ .refuseHigh ∨ imm.extractLsb' 8 4 = 0#4)
  | .armAddReg .. => true
  | .armLdrImm .. => true
  | .armB .. => true
  | .armBl .. => true
  | .armLdrIndexed .. => true
  | .armStr .. => true
  | .mipsAdd .. => true
  | .mipsAddi .. => true
  | .mipsLw .. => true
  | .mipsSw .. => true
  | .mipsBeq .. => true
  | .mipsJ .. => true

/-- A well-formed instruction term of a run with parameters `p`. Register numbers need no check: the
types hold only the numbers that name registers (R20, R26). -/
def WellFormed (p : Params) (i : Instr) : Bool := isaOk p i && gateOk p i && condOk i && immOk p i

/-- Two regions share no address. -/
def Region.disjoint (a b : Region) : Bool := decide (a.hi < b.lo ∨ b.hi < a.lo ∨ a.hi < a.lo ∨ b.hi < b.lo)

/-- The region shares no address with the text range. -/
def Region.offText (p : Params) (r : Region) : Bool :=
  decide (r.hi < r.lo ∨ p.text.length = 0 ∨ r.hi.toNat < p.textBase.toNat ∨
    p.textBase.toNat + 4 * p.text.length ≤ r.lo.toNat)

/-- `ARM_DT_OPCODE` is injective with its fixed entry (LDR, mode 5) → 24 (R97): no OPEN entry repeats
that key or that value, and no two entries share a key or a value. -/
def Params.dtMapOk (p : Params) : Bool :=
  (p.armDtOpcode.all fun e => decide (e.1 ≠ ⟨.ldr, .m5⟩ ∧ e.2 ≠ 24#6)) &&
    decide (p.armDtOpcode.Pairwise fun a b => a.1 ≠ b.1 ∧ a.2 ≠ b.2)

/-- `ARM_BL_FIELD4` is unset, or a value other than 12 whose upper two bits are not 0 or 1 (R99). -/
def Params.blFieldOk (p : Params) : Bool :=
  match p.armBlField4 with
  | none => true
  | some f => decide (f ≠ 12#4 ∧ 8#4 ≤ f)

/-- Launch premises (1) and (3) of R271: the text is aligned and inside the address space, and the
region sets overlap neither each other nor the text. -/
def Params.mapOk (p : Params) : Bool :=
  decide (p.textBase.toNat % 4 = 0) &&
  decide (p.textBase.toNat + 4 * p.text.length ≤ 2 ^ 32) &&
  (p.dataRegions.all fun d => p.ioRegions.all fun o => d.disjoint o) &&
  (p.dataRegions.all fun d => d.offText p) &&
  (p.ioRegions.all fun o => o.offText p)

/-- Legal parameters. -/
def Params.wf (p : Params) : Bool := p.dtMapOk && p.blFieldOk && p.mapOk

end Sys2Proof
end

