-- ==== Sys2Proof/Decode.lean ====
section
/-! DEFINITION. Decoding and encoding: the bit fields of R81 to R89, the two total decoders of R107 and
R108, and the encoder written from the same tables. -/

namespace Sys2Proof

/-! ### Condition and register fields -/

/-- The condition a 4-bit field names (R90). -/
def Cond.ofBits (b : BitVec 4) : Cond :=
  match b.toNat with
  | 0 => .eq | 1 => .ne | 2 => .hs | 3 => .lo | 4 => .mi | 5 => .pl | 6 => .vs | 7 => .vc
  | 8 => .hi | 9 => .ls | 10 => .ge | 11 => .lt | 12 => .gt | 13 => .le | 14 => .al | _ => .nv

/-- The value of a condition (R90). -/
def Cond.bits : Cond → BitVec 4
  | .eq => 0 | .ne => 1 | .hs => 2 | .lo => 3 | .mi => 4 | .pl => 5 | .vs => 6 | .vc => 7
  | .hi => 8 | .ls => 9 | .ge => 10 | .lt => 11 | .gt => 12 | .le => 13 | .al => 14 | .nv => 15

/-- The ARM register a 4-bit field names; 15 names none (R21). -/
def armReg? (b : BitVec 4) : Option ArmReg :=
  if h : b.toNat < 15 then some ⟨b.toNat, h⟩ else none

/-- The 4-bit field that names an ARM register. -/
def ArmReg.bits (r : ArmReg) : BitVec 4 := BitVec.ofNat 4 r.val

/-- The MIPS register number a 5-bit field holds (R26). -/
def mipsReg (b : BitVec 5) : MipsReg := ⟨b.toNat, b.isLt⟩

/-- The 5-bit field that holds a MIPS register number. -/
def MipsReg.bits (r : MipsReg) : BitVec 5 := BitVec.ofNat 5 r.val

/-! ### `ARM_DT_OPCODE` -/

/-- The keys of `ARM_DT_OPCODE` other than its fixed entry. -/
def DtKey.openKeys : List DtKey :=
  ([ModeNumber.m6, .m7, .m8, .m9, .m10, .m11, .m12].map (DtKey.mk .ldr)) ++
    ([ModeNumber.m5, .m6, .m7, .m8, .m9, .m10, .m11, .m12].map (DtKey.mk .str))

/-- The DT Opcode of an operation and mode: 24 for (LDR, mode 5), else the OPEN entry if set (R97). -/
def Params.dtOpcode (p : Params) (k : DtKey) : Option (BitVec 6) :=
  if k = ⟨.ldr, .m5⟩ then some 24#6 else p.armDtOpcode.lookup k

/-- The operation and mode that `ARM_DT_OPCODE` maps to an Opcode (R107, case 1). -/
def Params.dtKeyOf (p : Params) (opc : BitVec 6) : Option DtKey :=
  if opc = 24#6 then some ⟨.ldr, .m5⟩
  else DtKey.openKeys.find? fun k => decide (p.dtOpcode k = some opc)

/-! ### Decoding -/

/-- The outcome of a decoder: an instruction, a fault or a refusal (R107, R108). -/
inductive Decoded where
  | ok (i : Instr)
  /-- `raise ReservedCondition` (R225). -/
  | reservedCondition
  /-- `refuse IllegalInstruction` (R102). -/
  | illegalInstruction
  /-- `refuse RefusedR15` (R21). -/
  | refusedR15
  /-- `refuse RefusedOperandForm` (R93, R95, R108). -/
  | refusedOperandForm
  deriving DecidableEq, Repr

/-- R93: whether the 12 bits are an immediate under the mode. -/
def imm12Admitted (m : Imm12Mode) (imm : BitVec 12) : Bool :=
  match m with
  | .refuseHigh => decide (imm.extractLsb' 8 4 = 0#4)
  | .zext12 => true
  | .rot8 => true

/-- Case 0 of `DecodeARM` (R107): a word of the DP format (R86). -/
def decodeDp (p : Params) (cond : Cond) (w : Word) : Decoded :=
  if w.extractLsb' 21 4 ≠ 4#4 then .illegalInstruction
  else
    match armReg? (w.extractLsb' 16 4), armReg? (w.extractLsb' 12 4) with
    | some rn, some rd =>
      if w.extractLsb' 25 1 = 1#1 then
        if imm12Admitted p.armImm12Mode (w.extractLsb' 0 12) then
          .ok (.armAddImm cond (decide (w.extractLsb' 20 1 = 1#1)) rd rn (w.extractLsb' 0 12))
        else .refusedOperandForm
      else
        match armReg? (w.extractLsb' 0 4) with
        | none => .refusedR15
        | some rm =>
          if w.extractLsb' 4 3 ≠ 0#3 then .refusedOperandForm
          else
            .ok (.armAddReg cond (decide (w.extractLsb' 20 1 = 1#1)) rd rn rm (w.extractLsb' 7 5))
    | _, _ => .refusedR15

/-- A register offset in Offset12 (R98: the sub-layout of R95), checked as in case 0 of R107. An
unscaled mode has no shift field: its upper eight bits are 0 (R94; DEDUCED, notes/assumptions/9.md). -/
def decodeRegOffset (scaled : Bool) (off : BitVec 12) (k : ArmReg → BitVec 5 → Instr) : Decoded :=
  match armReg? (off.extractLsb' 0 4) with
  | none => .refusedR15
  | some rm =>
    if off.extractLsb' 4 3 ≠ 0#3 then .refusedOperandForm
    else if !scaled && decide (off.extractLsb' 7 5 ≠ 0#5) then .refusedOperandForm
    else .ok (k rm (off.extractLsb' 7 5))

/-- The instruction an operation makes with a mode. Mode 5 loads have a row of their own. -/
def DtOp.instr (op : DtOp) (cond : Cond) (rd rn : ArmReg) (m : DtMode) : Instr :=
  match op, m with
  | .ldr, .immOffset off => .armLdrImm cond rd rn off
  | .ldr, .indexed m => .armLdrIndexed cond rd rn m
  | .str, m => .armStr cond rd rn m

/-- The operands of a DT word, taken from Offset12 by the mode its Opcode selects (R98, R107). -/
def decodeDtOperands (k : DtKey) (cond : Cond) (rd rn : ArmReg) (off : BitVec 12) : Decoded :=
  let make (m : DtMode) : Instr := k.op.instr cond rd rn m
  match k.mode with
  | .m5 => .ok (make (.immOffset off))
  | .m6 => decodeRegOffset false off fun rm _ => make (.indexed (.regOffset rm))
  | .m7 => decodeRegOffset true off fun rm h => make (.indexed (.scaledOffset rm h))
  | .m8 => .ok (make (.indexed (.immPre off)))
  | .m9 => .ok (make (.indexed (.immPost off)))
  | .m10 => decodeRegOffset false off fun rm _ => make (.indexed (.regPre rm))
  | .m11 => decodeRegOffset true off fun rm h => make (.indexed (.scaledPre rm h))
  | .m12 => decodeRegOffset false off fun rm _ => make (.indexed (.regPost rm))

/-- Case 1 of `DecodeARM` (R107): a word of the DT format (R87). -/
def decodeDt (p : Params) (cond : Cond) (w : Word) : Decoded :=
  match p.dtKeyOf (w.extractLsb' 20 6) with
  | none => .illegalInstruction
  | some k =>
    match armReg? (w.extractLsb' 16 4), armReg? (w.extractLsb' 12 4) with
    | some rn, some rd => decodeDtOperands k cond rd rn (w.extractLsb' 0 12)
    | _, _ => .refusedR15

/-- `DecodeARM` (R107). -/
def decodeArm (p : Params) (w : Word) : Decoded :=
  let cond := Cond.ofBits (w.extractLsb' 28 4)
  if cond = .nv then .reservedCondition
  else if w.extractLsb' 24 4 = 12#4 then .ok (.armB cond (w.extractLsb' 0 24))
  else if p.armBlField4 = some (w.extractLsb' 24 4) then .ok (.armBl cond (w.extractLsb' 0 24))
  else if w.extractLsb' 26 2 = 0#2 then decodeDp p cond w
  else if w.extractLsb' 26 2 = 1#2 then decodeDt p cond w
  else .illegalInstruction

/-- `FieldsMIPS` (R108): every word has all eight readings (R81 to R83). -/
structure FieldsMips where
  op : BitVec 6
  rs : BitVec 5
  rt : BitVec 5
  rd : BitVec 5
  shamt : BitVec 5
  funct : BitVec 6
  imm16 : BitVec 16
  target26 : BitVec 26
  deriving DecidableEq, Repr

/-- The field extractor of R108, total on words. -/
def fieldsMips (w : Word) : FieldsMips where
  op := w.extractLsb' 26 6
  rs := w.extractLsb' 21 5
  rt := w.extractLsb' 16 5
  rd := w.extractLsb' 11 5
  shamt := w.extractLsb' 6 5
  funct := w.extractLsb' 0 6
  imm16 := w.extractLsb' 0 16
  target26 := w.extractLsb' 0 26

/-- `DecodeMIPS` (R108). -/
def decodeMips (p : Params) (w : Word) : Decoded :=
  if p.mipsRepresentativeSet then
    let f := fieldsMips w
    let rs := mipsReg f.rs
    let rt := mipsReg f.rt
    if f.op = 0#6 then
      if f.funct = 32#6 then
        if f.shamt = 0#5 then .ok (.mipsAdd (mipsReg f.rd) rs rt) else .refusedOperandForm
      else .illegalInstruction
    else if f.op = 2#6 then .ok (.mipsJ f.target26)
    else if f.op = 4#6 then .ok (.mipsBeq rs rt f.imm16)
    else if f.op = 8#6 then .ok (.mipsAddi rt rs f.imm16)
    else if f.op = 35#6 then .ok (.mipsLw rt rs f.imm16)
    else if f.op = 43#6 then .ok (.mipsSw rt rs f.imm16)
    else .illegalInstruction
  else .illegalInstruction

/-- The decoder of the machine the run is of (R3). -/
def decode (p : Params) (w : Word) : Decoded :=
  match p.isa with
  | .arm => decodeArm p w
  | .mips => decodeMips p w

/-! ### Encoding -/

/-- A field at its place in a word: its lowest bit is bit `lo` (R6, R7). -/
def place {n : Nat} (width lo : Nat) (f : BitVec n) : BitVec width := f.setWidth width <<< lo

/-- A word of the R-format, its fields from bit 31 down (R81). -/
def encodeR (op : BitVec 6) (rs rt rd shamt : BitVec 5) (funct : BitVec 6) : Word :=
  place 32 26 op ||| place 32 21 rs ||| place 32 16 rt ||| place 32 11 rd ||| place 32 6 shamt ||| place 32 0 funct

/-- A word of the I-format (R82). -/
def encodeI (op : BitVec 6) (rs rt : BitVec 5) (imm : BitVec 16) : Word :=
  place 32 26 op ||| place 32 21 rs ||| place 32 16 rt ||| place 32 0 imm

/-- A word of the J-format (R83). -/
def encodeJ (op : BitVec 6) (target : BitVec 26) : Word := place 32 26 op ||| place 32 0 target

/-- A word of the DP format with `F = 0` and `Opcode = 4` (R86, R89, R96). -/
def encodeDp (cond : Cond) (i s : BitVec 1) (rn rd : ArmReg) (op2 : BitVec 12) : Word :=
  place 32 28 cond.bits ||| place 32 26 0#2 ||| place 32 25 i ||| place 32 21 4#4 ||| place 32 20 s |||
    place 32 16 (ArmReg.bits rn) ||| place 32 12 (ArmReg.bits rd) ||| place 32 0 op2

/-- A word of the DT format with `F = 1` (R87, R89). -/
def encodeDt (cond : Cond) (opc : BitVec 6) (rn rd : ArmReg) (off : BitVec 12) : Word :=
  place 32 28 cond.bits ||| place 32 26 1#2 ||| place 32 20 opc ||| place 32 16 (ArmReg.bits rn) |||
    place 32 12 (ArmReg.bits rd) ||| place 32 0 off

/-- A word of the BR format, by its 4-bit selector (R88). -/
def encodeBr (cond : Cond) (field4 : BitVec 4) (imm : BitVec 24) : Word :=
  place 32 28 cond.bits ||| place 32 24 field4 ||| place 32 0 imm

/-- A register with its shift in 12 bits (R95). -/
def shiftedRegBits (rm : ArmReg) (h : BitVec 5) : BitVec 12 :=
  place 12 7 h ||| place 12 4 0#3 ||| place 12 0 (ArmReg.bits rm)

/-- The number of a mode (R190). -/
def DtMode.number : DtMode → ModeNumber
  | .immOffset _ => .m5
  | .indexed (.regOffset _) => .m6
  | .indexed (.scaledOffset _ _) => .m7
  | .indexed (.immPre _) => .m8
  | .indexed (.immPost _) => .m9
  | .indexed (.regPre _) => .m10
  | .indexed (.scaledPre _ _) => .m11
  | .indexed (.regPost _) => .m12

/-- The operands of a mode in Offset12 (R98). -/
def DtMode.offset12 : DtMode → BitVec 12
  | .immOffset off => off
  | .indexed (.regOffset rm) => shiftedRegBits rm 0#5
  | .indexed (.scaledOffset rm h) => shiftedRegBits rm h
  | .indexed (.immPre off) => off
  | .indexed (.immPost off) => off
  | .indexed (.regPre rm) => shiftedRegBits rm 0#5
  | .indexed (.scaledPre rm h) => shiftedRegBits rm h
  | .indexed (.regPost rm) => shiftedRegBits rm 0#5

/-- A transfer's word, when `ARM_DT_OPCODE` has an entry for its form (R97). -/
def encodeTransfer (p : Params) (op : DtOp) (cond : Cond) (rd rn : ArmReg) (m : DtMode) : Option Word :=
  match p.dtOpcode ⟨op, m.number⟩ with
  | some opc => some (encodeDt cond opc rn rd m.offset12)
  | none => none

/-- The word of an instruction, `none` while its encoding is OPEN and unset (R109). -/
def encode (p : Params) : Instr → Option Word
  | .armAddReg cond s rd rn rm h =>
    some (encodeDp cond 0#1 (BitVec.ofBool s) rn rd (shiftedRegBits rm h))
  | .armAddImm cond s rd rn imm => some (encodeDp cond 1#1 (BitVec.ofBool s) rn rd imm)
  | .armLdrImm cond rd rn off => encodeTransfer p .ldr cond rd rn (.immOffset off)
  | .armB cond imm => some (encodeBr cond 12#4 imm)
  | .armBl cond imm => p.armBlField4.map fun f => encodeBr cond f imm
  | .armLdrIndexed cond rd rn m => encodeTransfer p .ldr cond rd rn (.indexed m)
  | .armStr cond rd rn m => encodeTransfer p .str cond rd rn m
  | .mipsAdd rd rs rt =>
    some (encodeR 0#6 (MipsReg.bits rs) (MipsReg.bits rt) (MipsReg.bits rd) 0#5 32#6)
  | .mipsAddi rt rs imm => some (encodeI 8#6 (MipsReg.bits rs) (MipsReg.bits rt) imm)
  | .mipsLw rt rs imm => some (encodeI 35#6 (MipsReg.bits rs) (MipsReg.bits rt) imm)
  | .mipsSw rt rs imm => some (encodeI 43#6 (MipsReg.bits rs) (MipsReg.bits rt) imm)
  | .mipsBeq rs rt imm => some (encodeI 4#6 (MipsReg.bits rs) (MipsReg.bits rt) imm)
  | .mipsJ target => some (encodeJ 2#6 target)

/-! ### A word of the opcode table -/

/-- The machine whose decoder reads a word that stands alone: MIPS where the MIPS decoder admits it, else ARM
where the ARM decoder does, else the run's own. The opcode table has rows of both machines and a word does
not say whose it is (notes/assumptions/11.md). -/
def isaOfWord (p : Params) (w : Word) : Isa :=
  match decodeMips p w, decodeArm p w with
  | .ok _, _ => .mips
  | _, .ok _ => .arm
  | _, _ => p.isa

/-- The instruction a word of spec/opcode_table.json stands for, read by the decoder of the machine that
`isaOfWord` selects, with every parameter at its default. -/
def decodeTableWord (nbits w : Nat) : Option Instr :=
  let word : Word := BitVec.ofNat 32 (w % 2 ^ nbits)
  let p := { Params.standard with isa := isaOfWord Params.standard word }
  match decode p word with
  | .ok i => some i
  | .reservedCondition => none
  | .illegalInstruction => none
  | .refusedR15 => none
  | .refusedOperandForm => none

end Sys2Proof
end

