-- ==== Sys2Proof/Machine/State.lean ====
section
/-! DEFINITION. The state of the machine, its faults and refusals, the launch a run starts from and the
state after reset (10_state.md, 60_exceptions.md R241, 70_reset_and_hazards.md R270). -/

namespace Sys2Proof.Machine

/-- The four ARM condition flags (R24). -/
inductive Flag where
  | n | z | c | v
  deriving DecidableEq, Repr

/-- What `UnwrittenRegister` names: a register or a flag (R241). -/
inductive Location where
  | armReg (r : ArmReg)
  | mipsReg (r : MipsReg)
  | flag (f : Flag)
  deriving DecidableEq, Repr

/-- The model faults of R241 whose kind is "fault", with the information it records. Every one is safe:
the machine stops where real hardware may go on, and no state is changed (R244). -/
inductive Fault where
  /-- Raised by the fetch of either machine when `pc mod 4 ≠ 0` (R54). Safe. -/
  | fetchMisaligned (pc : Word)
  /-- Raised by the fetch of either machine when `pc` is neither in the text nor `END_PC` (R54). Safe. -/
  | fetchOutsideText (pc : Word)
  /-- Raised by ARM decode for a word with `w[31:28] = 15` (R225), and for an instruction term with condition
  NV, which has no word. Safe. -/
  | reservedCondition (pc : Word) (w : Option Word)
  /-- Raised by any instruction that reads a register or a flag that `LAUNCH` left unwritten and nothing has
  written since (R33). It cannot occur in a run from `State.reset`. Safe. -/
  | unwrittenRegister (pc : Word) (what : Location)
  /-- Raised by `LDR`, `STR`, `lw`, `sw` when the data address is not a multiple of 4 (R53). Safe. -/
  | misalignedAccess (pc addr : Word)
  /-- Raised by `LDR`, `STR`, `lw`, `sw` outside `DATA_REGIONS` and `IO_REGIONS` (R59). Safe. -/
  | unmappedAccess (pc addr : Word)
  /-- Raised by `STR`, `sw` when the store overlaps the text (R65). Safe. -/
  | storeToText (pc addr : Word)
  /-- Raised by MIPS `add`, `addi` when the signed sum does not fit in 32 bits (R152, R153). Safe. -/
  | integerOverflow (pc : Word)
  deriving DecidableEq, Repr

/-- The refusals of R241, and two of the model's own. Every one is safe: the model gives no meaning where
real hardware may well have one. Where a refusal records the word, a term has none. -/
inductive Refusal where
  /-- Raised by an arm of `exec` whose instruction has no meaning yet. Safe. No arm raises it. -/
  | notModelled (mnemonic : String)
  /-- Raised by decode when the word matches no admitted row (R102), and for a term that is not an
  instruction of the machine the run is of, or is a MIPS term behind a closed gate (R3, R150). Safe. -/
  | illegalInstruction (pc : Word) (w : Option Word)
  /-- Raised by ARM decode when a register field holds 15 (R21). Safe. -/
  | refusedR15 (pc : Word) (w : Option Word)
  /-- Raised by decode for an operand form with no meaning (R93, R95, R98, R108), and by `ADD` with an
  immediate that has no value under `refuse_high`. Safe. -/
  | refusedOperandForm (pc : Word) (w : Option Word)
  /-- Raised by `LDR`, `STR` in modes 8 to 12 when `Rd = Rn` or `Rm = Rn` (R200). Safe. -/
  | refusedWritebackSameRegister (pc : Word)
  /-- Raised by the fetch when `pc = END_PC`: the run has ended normally, in a final state, and there is no
  step (R54, R273). Not one of the twelve of R241. Safe. -/
  | runEnded (pc : Word)
  /-- Raised by `beq` and `j` when `MIPS_BRANCH_DELAY_SLOT` is true, a value R274 gives no rules for. Not one
  of the twelve of R241. Safe. -/
  | delaySlotWithoutRules (pc : Word)
  deriving DecidableEq, Repr

/-- The bytes of the address space (R30, R57), as (address, byte) pairs in canonical form. -/
abbrev Memory := List Host.Cell

/-- The canonical form: addresses strictly rising and below 2^32, and no entry equal to what an
unlisted address reads as, so that equal memories are equal data. -/
abbrev Memory.wf (m : Memory) : Prop :=
  m.Pairwise (fun x y => x.1 < y.1) ∧ ∀ x ∈ m, x.1 < 2 ^ 32 ∧ x.2 ≠ Config.unlistedByte

/-- The event a store into `IO_REGIONS` leaves (R58). -/
structure IoEvent where
  addr : Word
  value : Word
  deriving DecidableEq, Repr

/-- The state of a run (10_state.md). A register or flag is `none` exactly when it "holds no value" (R33),
a condition `LAUNCH` may leave it in (R270); after reset every one holds a value. -/
structure State where
  /-- The parameters of the run (R5). No step changes them (R32; notes/assumptions/2.md). -/
  params : Params
  /-- The program counter of the machine the run is of (R23, R27). -/
  pc : Word
  /-- `r0` to `r14` (R20). -/
  armX : Vector (Option Word) 15
  /-- The flag N (R24). -/
  flagN : Option Bool
  /-- The flag Z (R24). -/
  flagZ : Option Bool
  /-- The flag C (R24). -/
  flagC : Option Bool
  /-- The flag V (R24). -/
  flagV : Option Bool
  /-- `$1` to `$31`, number k at index k - 1 (R26); `$0` is hardwired and needs no storage. -/
  mipsX : Vector (Option Word) 31
  /-- The bytes of `DATA_REGIONS` (R30, R57). -/
  mem : Memory
  /-- The model's own: how many draws this run has made (R58; notes/assumptions/7.md). -/
  draws : Nat
  /-- The recorded stores into `IO_REGIONS`, oldest first (R58). -/
  events : List IoEvent
  deriving DecidableEq, Repr

/-- `LAUNCH` (R270): what the state holds at the start of a run. -/
structure Launch where
  pc : Word
  armX : Vector (Option Word) 15
  flagN : Option Bool
  flagZ : Option Bool
  flagC : Option Bool
  flagV : Option Bool
  mipsX : Vector (Option Word) 31
  mem : Memory
  deriving DecidableEq, Repr

/-- The start of a run with parameters `p` from the launch `l` (R270). -/
def State.launch (p : Params) (l : Launch) : State where
  params := p
  pc := l.pc
  armX := l.armX
  flagN := l.flagN
  flagZ := l.flagZ
  flagC := l.flagC
  flagV := l.flagV
  mipsX := l.mipsX
  mem := l.mem
  draws := 0
  events := []

/-- The launch `State.reset` stands for: pc at `TEXT_BASE` (R34's "normally"), every register 0 and every
flag 0, no byte listed. DESIGN CHOICE, unsafe: the spec gives no reset value (notes/assumptions/1.md). -/
def Launch.standard : Launch where
  pc := Params.standard.textBase
  armX := Vector.replicate 15 (some 0)
  flagN := some false
  flagZ := some false
  flagC := some false
  flagV := some false
  mipsX := Vector.replicate 31 (some 0)
  mem := []

/-- The machine right after reset. The spec has no reset (R34, R270): this is the launch a log entry names. -/
def State.reset : State := State.launch Params.standard Launch.standard

end Sys2Proof.Machine
end

