-- ==== Sys2Proof/Machine/Ops.lean ====
section
/-! DEFINITION. The named operations over registers and memory (the primitives of R9, and R57). The spec
has no exception mechanism (R240, R244, R245): what takes the place of exception entry is `raise`, a
step whose outcome is a fault and which changes nothing, so there is no entry and no return to model. -/

namespace Sys2Proof.Machine

/-- An intermediate result: a value, a fault or a refusal (R10). -/
abbrev Res (α : Type) := Host.Outcome α Fault Refusal

/-- Sequencing: a fault or a refusal ends the instruction, and nothing after it happens (R10). -/
def andThen {α β : Type} (o : Res α) (f : α → Res β) : Res β :=
  match o with
  | .next a => f a
  | .fault r => .fault r
  | .refused r => .refused r

/-! ### Registers -/

/-- `x[i]` of the ARM machine (R9, R33). -/
def readArm (s : State) (r : ArmReg) : Res Word :=
  match s.armX[r] with
  | some v => .next v
  | none => .fault (.unwrittenRegister s.pc (.armReg r))

/-- `x[i] <- v` of the ARM machine (R9). -/
def State.writeArm (s : State) (r : ArmReg) (v : Word) : State := { s with armX := s.armX.set r (some v) }

/-- What MIPS register `r` holds: number 0 always holds 0 (R26, R33). -/
def State.mipsValue (s : State) : MipsReg → Option Word
  | ⟨0, _⟩ => some 0
  | ⟨n + 1, h⟩ => s.mipsX[n]'(by omega)

/-- `x[i]` of the MIPS machine (R9, R26, R33). -/
def readMips (s : State) (r : MipsReg) : Res Word :=
  match s.mipsValue r with
  | some v => .next v
  | none => .fault (.unwrittenRegister s.pc (.mipsReg r))

/-- `x[i] <- v` of the MIPS machine: a write to register 0 is discarded (R9, R26). -/
def State.writeMips (s : State) (r : MipsReg) (v : Word) : State :=
  match r with
  | ⟨0, _⟩ => s
  | ⟨n + 1, h⟩ => { s with mipsX := s.mipsX.set n (some v) (by omega) }

/-- `pc <- t` (R9). -/
def State.jumpTo (s : State) (t : Word) : State := { s with pc := t }

/-- `pc <- pc + 4`, modulo 2^32 (R23, R27). -/
def State.advance (s : State) : State := s.jumpTo (s.pc + 4)

/-! ### Bytes and words of memory -/

/-- One byte (R50, R51). -/
def Memory.read : Memory → Nat → Byte
  | [], _ => Config.unlistedByte
  | (k, b) :: m, a => if k = a then b else Memory.read m a

/-- Unlists an address. -/
def Memory.erase (m : Memory) (a : Nat) : Memory := m.filter fun x => decide (x.1 ≠ a)

/-- Lists a byte at its place in the order. -/
def Memory.insert : Memory → Nat → Byte → Memory
  | [], a, b => [(a, b)]
  | (k, v) :: m, a, b =>
    if a < k then (a, b) :: (k, v) :: m
    else if a = k then (a, b) :: m
    else (k, v) :: Memory.insert m a b

/-- Writes one byte and keeps the canonical form: the byte an unlisted address reads as is not listed. -/
def Memory.write (m : Memory) (a : Nat) (b : Byte) : Memory :=
  if b = Config.unlistedByte then m.erase a else m.insert a b

/-- Byte `i` of a word, byte 0 the least significant. -/
def byteOf (v : Word) (i : Nat) : Byte := v.extractLsb' (8 * i) 8

/-- The word whose byte 0, the least significant, is `b0`. -/
def wordOf (b3 b2 b1 b0 : Byte) : Word :=
  place 32 24 b3 ||| place 32 16 b2 ||| place 32 8 b1 ||| place 32 0 b0

/-- The word at four consecutive addresses, in the byte order (R56, R57). -/
def Memory.loadWord (m : Memory) (o : ByteOrder) (a : Nat) : Word :=
  match o with
  | .little => wordOf (m.read (a + 3)) (m.read (a + 2)) (m.read (a + 1)) (m.read a)
  | .big => wordOf (m.read a) (m.read (a + 1)) (m.read (a + 2)) (m.read (a + 3))

/-- Stores a word at four consecutive addresses, in the byte order (R56, R57). -/
def Memory.storeWord (m : Memory) (o : ByteOrder) (a : Nat) (v : Word) : Memory :=
  match o with
  | .little =>
    (((m.write a (byteOf v 0)).write (a + 1) (byteOf v 1)).write (a + 2) (byteOf v 2)).write (a + 3) (byteOf v 3)
  | .big =>
    (((m.write a (byteOf v 3)).write (a + 1) (byteOf v 2)).write (a + 2) (byteOf v 1)).write (a + 3) (byteOf v 0)

/-! ### The address map -/

/-- An address lies in a region. -/
def regionHas (r : Region) (a : Nat) : Bool := decide (r.lo.toNat ≤ a ∧ a ≤ r.hi.toNat)

/-- An address lies in one of the regions. -/
def inRegions (rs : List Region) (a : Nat) : Bool := rs.any fun r => regionHas r a

/-- `[addr, addr+3]` lies inside the regions, every byte in one of them (R57). -/
def wordInside (rs : List Region) (addr : Word) : Bool :=
  inRegions rs addr.toNat && inRegions rs (addr.toNat + 1) && inRegions rs (addr.toNat + 2) &&
    inRegions rs (addr.toNat + 3)

/-- The address just after the text, unbounded: `TEXT_BASE + 4 * length(TEXT)`. -/
def textEnd (p : Params) : Nat := p.textBase.toNat + 4 * p.text.length

/-- `END_PC` (R5, R273). -/
def endAddress (p : Params) : Word :=
  match p.endPc with
  | some t => t
  | none => BitVec.ofNat 32 (textEnd p)

/-- An address lies in `[TEXT_BASE, TEXT_BASE + 4 * length(TEXT))` (R54). -/
def inText (p : Params) (a : Nat) : Bool := decide (p.textBase.toNat ≤ a ∧ a < textEnd p)

/-- `[addr, addr+3]` overlaps the text range (R57). -/
def wordTouchesText (p : Params) (addr : Word) : Bool :=
  inText p addr.toNat || inText p (addr.toNat + 1) || inText p (addr.toNat + 2) || inText p (addr.toNat + 3)

/-! ### The memory primitives -/

/-- A read of a device: the next draw (R58). -/
def drawWord (s : State) : Word × State := (Config.draw s.draws, { s with draws := s.draws + 1 })

/-- `MemRead(addr, 4)` (R57): the word, and the state after the read (a draw is used up). -/
def memRead (s : State) (addr : Word) : Res (Word × State) :=
  if addr.toNat % 4 ≠ 0 then .fault (.misalignedAccess s.pc addr)
  else if !(wordInside s.params.dataRegions addr || wordInside s.params.ioRegions addr) then
    .fault (.unmappedAccess s.pc addr)
  else if wordInside s.params.ioRegions addr then .next (drawWord s)
  else .next (s.mem.loadWord s.params.byteOrder addr.toNat, s)

/-- `MemWrite(addr, 4, v)` (R57). -/
def memWrite (s : State) (addr v : Word) : Res State :=
  if addr.toNat % 4 ≠ 0 then .fault (.misalignedAccess s.pc addr)
  else if wordTouchesText s.params addr then .fault (.storeToText s.pc addr)
  else if !(wordInside s.params.dataRegions addr || wordInside s.params.ioRegions addr) then
    .fault (.unmappedAccess s.pc addr)
  else if wordInside s.params.ioRegions addr then .next { s with events := s.events ++ [⟨addr, v⟩] }
  else .next { s with mem := s.mem.storeWord s.params.byteOrder addr.toNat v }

end Sys2Proof.Machine
end

