-- ==== Sys2Proof/Machine/Flags.lean ====
section
/-! DEFINITION. The ARM condition flags: who writes them (R173) and what each condition tests (R220). -/

namespace Sys2Proof.Machine

/-- What a flag holds. -/
def State.flag (s : State) : Flag → Option Bool
  | .n => s.flagN
  | .z => s.flagZ
  | .c => s.flagC
  | .v => s.flagV

/-- Reads a flag; one that holds no value faults (R33). -/
def readFlag (s : State) (f : Flag) : Res Bool :=
  match s.flag f with
  | some b => .next b
  | none => .fault (.unwrittenRegister s.pc (.flag f))

/-- `CondPassed(c)` (R220). It reads exactly the flags its row names, in the order the row names them
(which of two unwritten flags is reported is a DESIGN CHOICE, notes/assumptions/8.md). -/
def condPassed (c : Cond) (s : State) : Res Bool :=
  match c with
  | .eq => readFlag s .z
  | .ne => andThen (readFlag s .z) fun z => .next (!z)
  | .hs => readFlag s .c
  | .lo => andThen (readFlag s .c) fun c => .next (!c)
  | .mi => readFlag s .n
  | .pl => andThen (readFlag s .n) fun n => .next (!n)
  | .vs => readFlag s .v
  | .vc => andThen (readFlag s .v) fun v => .next (!v)
  | .hi => andThen (readFlag s .c) fun c => andThen (readFlag s .z) fun z => .next (c && !z)
  | .ls => andThen (readFlag s .c) fun c => andThen (readFlag s .z) fun z => .next (!c || z)
  | .ge => andThen (readFlag s .n) fun n => andThen (readFlag s .v) fun v => .next (n == v)
  | .lt => andThen (readFlag s .n) fun n => andThen (readFlag s .v) fun v => .next (n != v)
  | .gt =>
    andThen (readFlag s .z) fun z => andThen (readFlag s .n) fun n => andThen (readFlag s .v) fun v =>
      .next (!z && n == v)
  | .le =>
    andThen (readFlag s .z) fun z => andThen (readFlag s .n) fun n => andThen (readFlag s .v) fun v =>
      .next (z || n != v)
  | .al => .next true
  | .nv => .fault (.reservedCondition s.pc none)

/-- Step 3 of R170: an instruction whose condition fails only advances the pc. -/
def whenPassed (c : Cond) (s : State) (body : Res State) : Res State :=
  andThen (condPassed c s) fun passed => if passed then body else .next s.advance

/-- `SetFlagsAdd(a, b, u, r)` (R173), with `u` the unbounded sum and `r` its low 32 bits. -/
def State.setFlagsAdd (s : State) (a b r : Word) : State :=
  { s with
    flagN := some r.msb
    flagZ := some (decide (r = 0))
    flagC := some (decide (2 ^ 32 ≤ a.toNat + b.toNat))
    flagV := some (a.msb == b.msb && r.msb != a.msb) }

end Sys2Proof.Machine
end

