-- ==== Sys2Proof/Machine/Operands.lean ====
section
/-! DEFINITION. Every operand form: ARM addressing modes 1 to 12 (R93 to R100, R171, R190 to R199, R221)
and MIPS addressing modes 1 to 5 (R130 to R134). -/

namespace Sys2Proof.Machine

/-! ### ARM second operands (modes 1 to 3) -/

/-- Mode 1: the value of a 12-bit immediate, none where `refuse_high` refuses it (R93). -/
def imm12Value (m : Imm12Mode) (imm : BitVec 12) : Option Word :=
  match m with
  | .refuseHigh => if imm.extractLsb' 8 4 = 0#4 then some ((imm.extractLsb' 0 8).setWidth 32) else none
  | .zext12 => some (imm.setWidth 32)
  | .rot8 => some (((imm.extractLsb' 0 8).setWidth 32).rotateRight (2 * (imm.extractLsb' 8 4).toNat))

/-- The shifter: logical shift left by 0 to 31, bits above bit 31 dropped (R95, R171). -/
def shiftLeft (v : Word) (h : BitVec 5) : Word := v <<< h.toNat

/-- Modes 2 and 3: a register, shifted first (R94, R95, R171). -/
def readShifted (s : State) (rm : ArmReg) (h : BitVec 5) : Res Word :=
  andThen (readArm s rm) fun v => .next (shiftLeft v h)

/-! ### ARM branch targets (mode 4) -/

/-- `BranchTargetARM(pc, w)` (R221, R100). -/
def armBranchTarget (p : Params) (pc : Word) (imm : BitVec 24) : Word :=
  pc + p.armPcReadOffset + (imm.signExtend 32 <<< 2)

/-! ### ARM memory operands (modes 5 to 12) -/

/-- When the offset is added and whether the base is written (R190). -/
inductive Indexing where
  /-- The sum is the address; the base is unchanged. -/
  | offset
  /-- The sum is the address and the new base. -/
  | pre
  /-- The base is the address; the sum is the new base. -/
  | post
  deriving DecidableEq, Repr

/-- The indexing of a mode (R190's table). -/
def indexingOf : DtMode → Indexing
  | .immOffset _ => .offset
  | .indexed (.regOffset _) => .offset
  | .indexed (.scaledOffset _ _) => .offset
  | .indexed (.immPre _) => .pre
  | .indexed (.immPost _) => .post
  | .indexed (.regPre _) => .pre
  | .indexed (.scaledPre _ _) => .pre
  | .indexed (.regPost _) => .post

/-- The offset register of a mode, if it has one. -/
def offsetReg : DtMode → Option ArmReg
  | .immOffset _ => none
  | .indexed (.regOffset rm) => some rm
  | .indexed (.scaledOffset rm _) => some rm
  | .indexed (.immPre _) => none
  | .indexed (.immPost _) => none
  | .indexed (.regPre rm) => some rm
  | .indexed (.scaledPre rm _) => some rm
  | .indexed (.regPost rm) => some rm

/-- The value of a mode's offset (R192 to R199). -/
def readOffset (s : State) : DtMode → Res Word
  | .immOffset off => .next (off.setWidth 32)
  | .indexed (.regOffset rm) => readArm s rm
  | .indexed (.scaledOffset rm h) => readShifted s rm h
  | .indexed (.immPre off) => .next (off.setWidth 32)
  | .indexed (.immPost off) => .next (off.setWidth 32)
  | .indexed (.regPre rm) => readArm s rm
  | .indexed (.scaledPre rm h) => readShifted s rm h
  | .indexed (.regPost rm) => readArm s rm

/-- The address used and the new base, if the mode writes it (R190, R191). -/
def indexed (ix : Indexing) (base off : Word) : Word × Option Word :=
  match ix with
  | .offset => (base + off, none)
  | .pre => (base + off, some (base + off))
  | .post => (base, some (base + off))

/-- `(addr, wb)` of a mode: the base is read first, then the offset register (R191, R242). -/
def dtAddress (s : State) (rn : ArmReg) (m : DtMode) : Res (Word × Option Word) :=
  andThen (readArm s rn) fun base =>
    andThen (readOffset s m) fun off => .next (indexed (indexingOf m) base off)

/-- Write-back with a repeated register, which R200 refuses. -/
def writebackClash (rd rn : ArmReg) (m : DtMode) : Bool :=
  decide (indexingOf m ≠ .offset ∧ (rd = rn ∨ offsetReg m = some rn))

/-- Writes the base back, if the mode does (R191). -/
def State.writeBase (s : State) (rn : ArmReg) (wb : Option Word) : State :=
  match wb with
  | some v => s.writeArm rn v
  | none => s

/-! ### MIPS operands -/

/-- Mode 1, immediate addressing (R130). -/
def immOperand (imm : BitVec 16) : Word := imm.signExtend 32

/-- Mode 3, base addressing (R132). -/
def mipsAddress (s : State) (rs : MipsReg) (imm : BitVec 16) : Res Word :=
  andThen (readMips s rs) fun base => .next (base + imm.signExtend 32)

/-- Mode 4, PC-relative addressing (R133). -/
def mipsBranchTarget (pc : Word) (imm : BitVec 16) : Word := (pc + 4) + (imm.signExtend 32 <<< 2)

/-- Mode 5, pseudodirect addressing (R134). -/
def mipsJumpTarget (pc : Word) (target : BitVec 26) : Word :=
  place 32 28 ((pc + 4).extractLsb' 28 4) ||| place 32 2 target ||| place 32 0 0#2

end Sys2Proof.Machine
end

