-- ==== Sys2Proof/Machine/ArmBranch.lean ====
section
/-! DEFINITION. The ARM branches `B` and `BL` (44_arm_branch.md). -/

namespace Sys2Proof.Machine

/-- The link register, `r14` (R22, R223). -/
def linkRegister : ArmReg := 14

/-- `B{cond} label` (R222). The target is checked by the next fetch (R224). -/
def execArmB (cond : Cond) (imm : BitVec 24) (s : State) : Res State :=
  whenPassed cond s <| .next (s.jumpTo (armBranchTarget s.params s.pc imm))

/-- `BL{cond} label` (R223). -/
def execArmBl (cond : Cond) (imm : BitVec 24) (s : State) : Res State :=
  whenPassed cond s <|
    .next ((s.writeArm linkRegister (s.pc + 4)).jumpTo (armBranchTarget s.params s.pc imm))

end Sys2Proof.Machine
end

