-- ==== Sys2Proof/Machine/ArmDataProcessing.lean ====
section
/-! DEFINITION. The ARM data-processing instruction `ADD` (42_arm_data_processing.md). -/

namespace Sys2Proof.Machine

/-- The addition of R172, its operands read: the result, the flags when `S = 1`, the pc. -/
def addBody (s : State) (setFlags : Bool) (rd : ArmReg) (a b : Word) : State :=
  let r := BitVec.ofNat 32 (a.toNat + b.toNat)
  let t := s.writeArm rd r
  (if setFlags then t.setFlagsAdd a b r else t).advance

/-- `ADD{cond}{S} Rd, Rn, Rm {, LSL #h}` (R172, modes 2 and 3 of R171). -/
def execArmAddReg (cond : Cond) (setFlags : Bool) (rd rn rm : ArmReg) (h : BitVec 5) (s : State) : Res State :=
  whenPassed cond s <|
    andThen (readArm s rn) fun a => andThen (readShifted s rm h) fun b => .next (addBody s setFlags rd a b)

/-- `ADD{cond}{S} Rd, Rn, #imm` (R172, mode 1 of R171). An immediate without a value is refused before the
condition is tested, after condition 15 (R170, R242). -/
def execArmAddImm (cond : Cond) (setFlags : Bool) (rd rn : ArmReg) (imm : BitVec 12) (s : State) : Res State :=
  match imm12Value s.params.armImm12Mode imm with
  | some b => whenPassed cond s <| andThen (readArm s rn) fun a => .next (addBody s setFlags rd a b)
  | none =>
    if cond = .nv then .fault (.reservedCondition s.pc none) else .refused (.refusedOperandForm s.pc none)

end Sys2Proof.Machine
end

