-- ==== Sys2Proof/Machine/ArmDataTransfer.lean ====
section
/-! DEFINITION. The ARM data-transfer instructions `LDR` and `STR` (43_arm_data_transfer.md). -/

namespace Sys2Proof.Machine

/-- The common execution of `LDR Rd, <mode>` (R191). -/
def loadBody (s : State) (rd rn : ArmReg) (m : DtMode) : Res State :=
  if writebackClash rd rn m then .refused (.refusedWritebackSameRegister s.pc)
  else
    andThen (dtAddress s rn m) fun x =>
      andThen (memRead s x.1) fun y => .next ((y.2.writeBase rn x.2).writeArm rd y.1).advance

/-- The common execution of `STR Rd, <mode>` (R201). -/
def storeBody (s : State) (rd rn : ArmReg) (m : DtMode) : Res State :=
  if writebackClash rd rn m then .refused (.refusedWritebackSameRegister s.pc)
  else
    andThen (dtAddress s rn m) fun x =>
      andThen (readArm s rd) fun v =>
        andThen (memWrite s x.1 v) fun t => .next (t.writeBase rn x.2).advance

/-- `LDR{cond} Rd, [Rn, #off]`, mode 5 (R192). -/
def execArmLdrImm (cond : Cond) (rd rn : ArmReg) (off : BitVec 12) (s : State) : Res State :=
  whenPassed cond s <| loadBody s rd rn (.immOffset off)

/-- `LDR{cond} Rd, <mode>`, modes 6 to 12 (R193 to R199). -/
def execArmLdrIndexed (cond : Cond) (rd rn : ArmReg) (mode : IndexedMode) (s : State) : Res State :=
  whenPassed cond s <| loadBody s rd rn (.indexed mode)

/-- `STR{cond} Rd, <mode>`, modes 5 to 12 (R201). -/
def execArmStr (cond : Cond) (rd rn : ArmReg) (mode : DtMode) (s : State) : Res State :=
  whenPassed cond s <| storeBody s rd rn mode

end Sys2Proof.Machine
end

