-- ==== Sys2Proof/Machine/Mips.lean ====
section
/-! DEFINITION. The six MIPS instructions (41_mips_representative_instructions.md). -/

namespace Sys2Proof.Machine

/-- Signed addition that faults when the unbounded sum does not fit in 32 bits (R152, R153). -/
def addSigned (s : State) (a b : Word) : Res Word :=
  let sum := a.toInt + b.toInt
  if sum < -2 ^ 31 ∨ sum > 2 ^ 31 - 1 then .fault (.integerOverflow s.pc) else .next (BitVec.ofInt 32 sum)

/-- `add rd, rs, rt` (R152). -/
def execMipsAdd (rd rs rt : MipsReg) (s : State) : Res State :=
  andThen (readMips s rs) fun a =>
    andThen (readMips s rt) fun b =>
      andThen (addSigned s a b) fun r => .next (s.writeMips rd r).advance

/-- `addi rt, rs, imm` (R153). -/
def execMipsAddi (rt rs : MipsReg) (imm : BitVec 16) (s : State) : Res State :=
  andThen (readMips s rs) fun a =>
    andThen (addSigned s a (immOperand imm)) fun r => .next (s.writeMips rt r).advance

/-- `lw rt, imm(rs)` (R154). -/
def execMipsLw (rt rs : MipsReg) (imm : BitVec 16) (s : State) : Res State :=
  andThen (mipsAddress s rs imm) fun addr =>
    andThen (memRead s addr) fun y => .next (y.2.writeMips rt y.1).advance

/-- `sw rt, imm(rs)` (R155). -/
def execMipsSw (rt rs : MipsReg) (imm : BitVec 16) (s : State) : Res State :=
  andThen (mipsAddress s rs imm) fun addr =>
    andThen (readMips s rt) fun v => andThen (memWrite s addr v) fun t => .next t.advance

/-- Branches and jumps have rules only without a delay slot (R274). -/
def withoutDelaySlot (s : State) (body : Res State) : Res State :=
  if s.params.mipsBranchDelaySlot then .refused (.delaySlotWithoutRules s.pc) else body

/-- `beq rs, rt, label` (R156). The target is checked by the next fetch (R54). -/
def execMipsBeq (rs rt : MipsReg) (imm : BitVec 16) (s : State) : Res State :=
  withoutDelaySlot s <|
    andThen (readMips s rs) fun a =>
      andThen (readMips s rt) fun b =>
        .next (if a = b then s.jumpTo (mipsBranchTarget s.pc imm) else s.advance)

/-- `j label` (R157). -/
def execMipsJ (target : BitVec 26) (s : State) : Res State :=
  withoutDelaySlot s <| .next (s.jumpTo (mipsJumpTarget s.pc target))

end Sys2Proof.Machine
end

