-- ==== Sys2Proof/Machine/Dispatch.lean ====
section
/-! DEFINITION. One arm per instruction. -/

namespace Sys2Proof.Machine

def exec (i : Instr) (s : State) : Host.Outcome State Fault Refusal :=
  match i with
  | .armAddReg cond setFlags rd rn rm h => Sys2Proof.Machine.execArmAddReg cond setFlags rd rn rm h s
  | .armAddImm cond setFlags rd rn imm => Sys2Proof.Machine.execArmAddImm cond setFlags rd rn imm s
  | .armLdrImm cond rd rn off => Sys2Proof.Machine.execArmLdrImm cond rd rn off s
  | .armB cond imm => Sys2Proof.Machine.execArmB cond imm s
  | .armBl cond imm => Sys2Proof.Machine.execArmBl cond imm s
  | .armLdrIndexed cond rd rn mode => Sys2Proof.Machine.execArmLdrIndexed cond rd rn mode s
  | .armStr cond rd rn mode => Sys2Proof.Machine.execArmStr cond rd rn mode s
  | .mipsAdd rd rs rt => Sys2Proof.Machine.execMipsAdd rd rs rt s
  | .mipsAddi rt rs imm => Sys2Proof.Machine.execMipsAddi rt rs imm s
  | .mipsLw rt rs imm => Sys2Proof.Machine.execMipsLw rt rs imm s
  | .mipsSw rt rs imm => Sys2Proof.Machine.execMipsSw rt rs imm s
  | .mipsBeq rs rt imm => Sys2Proof.Machine.execMipsBeq rs rt imm s
  | .mipsJ target => Sys2Proof.Machine.execMipsJ target s

end Sys2Proof.Machine
end

