-- ==== Sys2Proof/Machine/Fetch.lean ====
section
/-! DEFINITION. Fetching an instruction and reading it: the fetch of R54, the decode step of R151 and R170,
and the same step for a program of instruction terms (D34). -/

namespace Sys2Proof.Machine

/-- Slot `k` of a program. -/
def programSlot (t : Program) (k : Nat) : Option Slot :=
  match t with
  | .words ws => ws[k]?.map Slot.word
  | .terms is => is[k]?.map Slot.term

/-- The fetch (R54): its checks in order, then the slot of `TEXT` at index `(pc - TEXT_BASE) / 4`. -/
def fetch (s : State) : Res Slot :=
  if s.pc.toNat % 4 ≠ 0 then .fault (.fetchMisaligned s.pc)
  else if s.pc = endAddress s.params then .refused (.runEnded s.pc)
  else if !(inText s.params s.pc.toNat) then .fault (.fetchOutsideText s.pc)
  else
    match programSlot s.params.text ((s.pc.toNat - s.params.textBase.toNat) / 4) with
    | some x => .next x
    | none => .fault (.fetchOutsideText s.pc)

/-- The outcome of the decoder, with the information its fault or refusal records (R241). -/
def ofDecoded (pc w : Word) : Decoded → Res Instr
  | .ok i => .next i
  | .reservedCondition => .fault (.reservedCondition pc (some w))
  | .illegalInstruction => .refused (.illegalInstruction pc (some w))
  | .refusedR15 => .refused (.refusedR15 pc (some w))
  | .refusedOperandForm => .refused (.refusedOperandForm pc (some w))

/-- The instruction a slot holds: a word is decoded; a term is admitted when it is an instruction of the
machine the run is of and its gate is open (R3, R150, D34). -/
def readSlot (s : State) : Slot → Res Instr
  | .word w => ofDecoded s.pc w (decode s.params w)
  | .term i =>
    if isaOk s.params i && gateOk s.params i then .next i else .refused (.illegalInstruction s.pc none)

/-- Makes `w` the one word of the program, at the pc (cleared to a multiple of 4), for the machine that
`isaOfWord` selects: what a loader and the choice of `ISA` do before a run (R278). -/
def placeWord (s : State) (w : Word) : State :=
  let pc := s.pc &&& 0xFFFFFFFC
  { s with
    pc := pc
    params :=
      { s.params with isa := isaOfWord s.params w, textBase := pc, text := .words [w], endPc := none } }

end Sys2Proof.Machine
end

