-- ==== Sys2Proof/Machine/Step.lean ====
section
/-! DEFINITION. One step of the machine (R10, R151, R170). -/

namespace Sys2Proof.Machine

/-- One step: fetch, decode, execute (R10). -/
def step (s : State) : Host.Outcome State Fault Refusal :=
  andThen (fetch s) fun x => andThen (readSlot s x) fun i => exec i s

/-- The state whose next step fetches and runs the instruction of the opcode table with bits `w`. -/
def State.withFetchWord (s : State) (nbits w : Nat) : State :=
  placeWord s (BitVec.ofNat 32 (w % 2 ^ nbits))

end Sys2Proof.Machine
end

