-- ==== Sys2Proof/Machine/Assembly.lean ====
section
/-! DEFINITION. The assembler's side: the text of an instruction (R104, R105; there are no
pseudo-instructions, R106) and the displacement fields the assembler computes from a label (R156, R157,
R221). No step uses this file. -/

namespace Sys2Proof.Machine

/-! ### Displacement fields -/

/-- `signed_immed_24` of a branch at `pc` to `label` (R221); none where it is not an integer in
`-2^23 .. 2^23 - 1`. -/
def assembleArmBranch (p : Params) (pc label : Word) : Option (BitVec 24) :=
  let d := (label - (pc + p.armPcReadOffset)).toInt
  if d % 4 = 0 ∧ -2 ^ 23 ≤ d / 4 ∧ d / 4 ≤ 2 ^ 23 - 1 then some (BitVec.ofInt 24 (d / 4)) else none

/-- `imm16` of a `beq` at `pc` to `label` (R156); none where it is not an integer in `-32768 .. 32767`. -/
def assembleMipsBranch (pc label : Word) : Option (BitVec 16) :=
  let d := (label - (pc + 4)).toInt
  if d % 4 = 0 ∧ -32768 ≤ d / 4 ∧ d / 4 ≤ 32767 then some (BitVec.ofInt 16 (d / 4)) else none

/-- `target26` of a `j` at `pc` to `label` (R157); none where the label is not a word of the region of
`pc + 4`. -/
def assembleMipsJump (pc label : Word) : Option (BitVec 26) :=
  if label.extractLsb' 28 4 = (pc + 4).extractLsb' 28 4 ∧ label.extractLsb' 0 2 = 0#2 then
    some (label.extractLsb' 2 26)
  else none

/-! ### Assembly text -/

/-- The two-letter condition mnemonic of R90, written except for AL (R104). -/
def condSuffix : Cond → String
  | .eq => "EQ" | .ne => "NE" | .hs => "HS" | .lo => "LO" | .mi => "MI" | .pl => "PL" | .vs => "VS"
  | .vc => "VC" | .hi => "HI" | .ls => "LS" | .ge => "GE" | .lt => "LT" | .gt => "GT" | .le => "LE"
  | .al => "" | .nv => "NV"

/-- `r0` to `r14` (R104). -/
def armRegText (r : ArmReg) : String := "r" ++ toString r.val

/-- `$0` to `$31` (R105). -/
def mipsRegText (r : MipsReg) : String := "$" ++ toString r.val

/-- An ARM immediate, `#` and a decimal number (R104). -/
def armImmText (n : Nat) : String := "#" ++ toString n

/-- A register shifted by a constant; a shift of 0 is the plain register (R104, R94). -/
def shiftedText (rm : ArmReg) (h : BitVec 5) : String :=
  if h = 0#5 then armRegText rm else armRegText rm ++ ", LSL " ++ armImmText h.toNat

/-- A memory operand (R104, R190). -/
def modeText (rn : ArmReg) : DtMode → String
  | .immOffset off => "[" ++ armRegText rn ++ ", " ++ armImmText off.toNat ++ "]"
  | .indexed (.regOffset rm) => "[" ++ armRegText rn ++ ", " ++ armRegText rm ++ "]"
  | .indexed (.scaledOffset rm h) =>
    "[" ++ armRegText rn ++ ", " ++ armRegText rm ++ ", LSL " ++ armImmText h.toNat ++ "]"
  | .indexed (.immPre off) => "[" ++ armRegText rn ++ ", " ++ armImmText off.toNat ++ "]!"
  | .indexed (.immPost off) => "[" ++ armRegText rn ++ "], " ++ armImmText off.toNat
  | .indexed (.regPre rm) => "[" ++ armRegText rn ++ ", " ++ armRegText rm ++ "]!"
  | .indexed (.scaledPre rm h) =>
    "[" ++ armRegText rn ++ ", " ++ armRegText rm ++ ", LSL " ++ armImmText h.toNat ++ "]!"
  | .indexed (.regPost rm) => "[" ++ armRegText rn ++ "], " ++ armRegText rm

/-- A transfer (R104). -/
def transferText (name : String) (cond : Cond) (rd rn : ArmReg) (m : DtMode) : String :=
  name ++ condSuffix cond ++ " " ++ armRegText rd ++ ", " ++ modeText rn m

/-- An `ADD`: mnemonic, condition, `S` (the order of R172's `ADD{cond}{S}`), operands (R104). -/
def addText (cond : Cond) (setFlags : Bool) (rd rn : ArmReg) (operand : String) : String :=
  "ADD" ++ condSuffix cond ++ (if setFlags then "S " else " ") ++ armRegText rd ++ ", " ++ armRegText rn ++
    ", " ++ operand

/-- A MIPS transfer (R105). -/
def mipsTransferText (name : String) (rt rs : MipsReg) (imm : BitVec 16) : String :=
  name ++ " " ++ mipsRegText rt ++ ", " ++ toString imm.toInt ++ "(" ++ mipsRegText rs ++ ")"

/-- The assembly text of the instruction at `pc`, with `label` naming addresses (R104, R105). -/
def assemblyText (p : Params) (label : Word → String) (pc : Word) : Instr → String
  | .armAddReg cond s rd rn rm h => addText cond s rd rn (shiftedText rm h)
  | .armAddImm cond s rd rn imm =>
    addText cond s rd rn (armImmText ((imm12Value p.armImm12Mode imm).getD (imm.setWidth 32)).toNat)
  | .armLdrImm cond rd rn off => transferText "LDR" cond rd rn (.immOffset off)
  | .armB cond imm => "B" ++ condSuffix cond ++ " " ++ label (armBranchTarget p pc imm)
  | .armBl cond imm => "BL" ++ condSuffix cond ++ " " ++ label (armBranchTarget p pc imm)
  | .armLdrIndexed cond rd rn m => transferText "LDR" cond rd rn (.indexed m)
  | .armStr cond rd rn m => transferText "STR" cond rd rn m
  | .mipsAdd rd rs rt => "add " ++ mipsRegText rd ++ ", " ++ mipsRegText rs ++ ", " ++ mipsRegText rt
  | .mipsAddi rt rs imm =>
    "addi " ++ mipsRegText rt ++ ", " ++ mipsRegText rs ++ ", " ++ toString imm.toInt
  | .mipsLw rt rs imm => mipsTransferText "lw" rt rs imm
  | .mipsSw rt rs imm => mipsTransferText "sw" rt rs imm
  | .mipsBeq rs rt imm =>
    "beq " ++ mipsRegText rs ++ ", " ++ mipsRegText rt ++ ", " ++ label (mipsBranchTarget pc imm)
  | .mipsJ target => "j " ++ label (mipsJumpTarget pc target)

end Sys2Proof.Machine
end

