-- ==== Sys2Proof/Safety.lean ====
section
/-! DEFINITION. What counts as a safe run: the end of a run (R273), the launch premises (R271), and the
invariants that statements use. -/

namespace Sys2Proof.Machine

/-- A final state: the run has ended normally (R273). DESIGN CHOICE (notes/assumptions/18.md) for an `END_PC` that is no
multiple of 4: the test is `pc = END_PC` alone, so a state there is final although a step from it would fault
`FetchMisaligned` (R54) and R244 calls a faulting state not final. -/
def State.final (s : State) : Bool := decide (s.pc = endAddress s.params)

/-- The launch premises of R271: (1) and (3) on the parameters with the legality of R97 and R99, and (2) on
the pc. (4) and (5) hold by construction: a state records no fault and a step changes no parameter. -/
def State.launchOk (s : State) : Bool :=
  s.params.wf && decide (s.pc.toNat % 4 = 0) && inText s.params s.pc.toNat

/-- The pc is a multiple of 4 (R23, R27). -/
def State.pcAligned (s : State) : Prop := s.pc.toNat % 4 = 0

/-- Every register and every flag holds a value, so that no read can fault (R33). -/
def State.allWritten (s : State) : Prop :=
  (∀ r : ArmReg, (s.armX[r]).isSome) ∧ (∀ f : Flag, (s.flag f).isSome) ∧
    (∀ r : MipsReg, (s.mipsValue r).isSome)

/-- `MemRead(addr, 4)` reads plain memory: the address is aligned, its word is data and not a device's (R57). -/
abbrev State.readable (s : State) (addr : Word) : Prop :=
  addr.toNat % 4 = 0 ∧ wordInside s.params.dataRegions addr = true ∧ wordInside s.params.ioRegions addr = false

/-- `MemWrite(addr, 4, v)` writes plain memory: as for a read, and off the text (R57). -/
abbrev State.writable (s : State) (addr : Word) : Prop :=
  s.readable addr ∧ wordTouchesText s.params addr = false

/-- `t` is `s` with MIPS register `rd` holding `v`, unless it is register 0, and the pc at `target`; every
other register and every other part of the state is as it was (R26). -/
def MipsResult (s t : State) (rd : MipsReg) (v target : Word) : Prop :=
  (∀ q : MipsReg, t.mipsValue q = if q = rd ∧ rd ≠ 0 then some v else s.mipsValue q) ∧
    t = { s with mipsX := t.mipsX, pc := target }

/-- The run from `s` reaches the final state `t` after exactly `k` steps (R273). -/
def endsAfter (k : Nat) (s t : State) : Prop := Sys2Proof.core.run k s = .next t ∧ t.final = true

end Sys2Proof.Machine
end

