-- ==== Sys2Proof/Certificates/Slice0/Obligations.lean ====
section
/-! DEFINITION. The statements for the provers, family by family: encoding, the step, ARM, MIPS, memory, and
what every step keeps. -/

open Sys2Proof Sys2Proof.Machine

/-! ### Encoding and decoding -/

/-- R107, R108, R109: the word of a well-formed instruction decodes to that instruction, whatever its operands. -/
def Obligations.EncodedInstructionDecodesToItself : Prop :=
  ∀ (p : Params) (i : Instr) (w : Word),
    p.dtMapOk = true → p.blFieldOk = true → WellFormed p i = true → encode p i = some w → decode p w = .ok i

/-- R107, R108, R109: a word that decodes is the word of the instruction it decodes to, so no two words mean the
same and no bit is dropped. -/
def Obligations.DecodedWordIsItsEncoding : Prop :=
  ∀ (p : Params) (w : Word) (i : Instr), decode p w = .ok i → encode p i = some w

/-- R107, R108: a decoder gives only instructions of its own machine that the parameters admit. -/
def Obligations.DecodedInstructionIsWellFormed : Prop :=
  ∀ (p : Params) (w : Word) (i : Instr), decode p w = .ok i → WellFormed p i = true

/-- R97, R99, R109: an instruction has a word exactly when its encoding is fixed, or OPEN and set. -/
def Obligations.InstructionHasWordUnlessOpen : Prop :=
  ∀ (p : Params) (i : Instr),
    (encode p i).isSome =
      match i with
      | .armBl _ _ => p.armBlField4.isSome
      | .armLdrIndexed _ _ _ m => (p.dtOpcode ⟨.ldr, (DtMode.indexed m).number⟩).isSome
      | .armStr _ _ _ m => (p.dtOpcode ⟨.str, m.number⟩).isSome
      | _ => true

/-- Words written out from the encodings of R86 to R100 (95_test_vectors.md, D-A1 to D-A13, D-M6 to D-M8 and program
P4) decode to the instructions they stand for. -/
def Obligations.SpecWordsDecode : Prop :=
  (decodeArm Params.standard 0xE0815002 = .ok (.armAddReg .al false 5 1 2 0) ∧
    decodeArm Params.standard 0xE0802101 = .ok (.armAddReg .al false 2 0 1 2) ∧
    decodeArm Params.standard 0x10911002 = .ok (.armAddReg .ne true 1 1 2 0) ∧
    decodeArm Params.standard 0xE28100FF = .ok (.armAddImm .al false 0 1 0x0FF) ∧
    decodeArm Params.standard 0xE5835020 = .ok (.armLdrImm .al 5 3 32) ∧
    decodeArm Params.standard 0x1CFFFFFC = .ok (.armB .ne 0xFFFFFC) ∧
    decodeArm { Params.standard with armBlField4 := some 13 } 0xED000000 = .ok (.armBl .al 0)) ∧
  (decodeMips Params.standard 0x012A4020 = .ok (.mipsAdd 8 9 10) ∧
    decodeMips Params.standard 0x2108FFFF = .ok (.mipsAddi 8 8 0xFFFF) ∧
    decodeMips Params.standard 0x8D0A0020 = .ok (.mipsLw 10 8 0x0020) ∧
    decodeMips Params.standard 0xACA90000 = .ok (.mipsSw 9 5 0) ∧
    decodeMips Params.standard 0x11000001 = .ok (.mipsBeq 8 0 1) ∧
    decodeMips Params.standard 0x08100002 = .ok (.mipsJ 0x0100002))

/-- R81, R82, R83: the field extractor reads the fields at the places the three MIPS formats give them. -/
def Obligations.MipsFieldsMakeUpTheWord : Prop :=
  ∀ w : Word,
    let f := fieldsMips w
    w.toNat = f.op.toNat * 2 ^ 26 + f.rs.toNat * 2 ^ 21 + f.rt.toNat * 2 ^ 16 + f.rd.toNat * 2 ^ 11 +
        f.shamt.toNat * 2 ^ 6 + f.funct.toNat ∧
      w.toNat = f.op.toNat * 2 ^ 26 + f.rs.toNat * 2 ^ 21 + f.rt.toNat * 2 ^ 16 + f.imm16.toNat ∧
      w.toNat = f.op.toNat * 2 ^ 26 + f.target26.toNat

/-- R225: a fetched ARM word with condition 15 raises `ReservedCondition`, whatever its other bits. -/
def Obligations.ConditionFifteenIsReserved : Prop :=
  ∀ (s : State) (w : Word), s.params.isa = .arm → fetch s = .next (.word w) → w.extractLsb' 28 4 = 15#4 →
    step s = .fault (.reservedCondition s.pc (some w))

/-- R175: a DP word with an Opcode other than 4 is refused. -/
def Obligations.OtherDpOpcodesAreIllegal : Prop :=
  ∀ (s : State) (w : Word), s.params.isa = .arm → s.params.blFieldOk = true → fetch s = .next (.word w) →
    w.extractLsb' 28 4 ≠ 15#4 → w.extractLsb' 26 2 = 0#2 → w.extractLsb' 21 4 ≠ 4#4 →
      step s = .refused (.illegalInstruction s.pc (some w))

/-- R89, R97, R99, R102: a DT word whose Opcode is no value of `ARM_DT_OPCODE`, and a word with `F` 2 or 3 that is
neither `B` nor a set `BL`, is refused. -/
def Obligations.OtherTransferAndBranchWordsAreIllegal : Prop :=
  ∀ (s : State) (w : Word), s.params.isa = .arm → s.params.blFieldOk = true → fetch s = .next (.word w) →
    w.extractLsb' 28 4 ≠ 15#4 →
      (w.extractLsb' 26 2 = 1#2 → (∀ k : DtKey, s.params.dtOpcode k ≠ some (w.extractLsb' 20 6)) →
        step s = .refused (.illegalInstruction s.pc (some w))) ∧
      (w.extractLsb' 26 2 = 2#2 ∨ w.extractLsb' 26 2 = 3#2 → w.extractLsb' 24 4 ≠ 12#4 →
        s.params.armBlField4 ≠ some (w.extractLsb' 24 4) →
        step s = .refused (.illegalInstruction s.pc (some w)))

/-- R21: a word of an admitted ARM form with 15 in a register field is refused, before its operand form is looked at. -/
def Obligations.RegisterFifteenIsRefused : Prop :=
  ∀ (s : State) (w : Word), s.params.isa = .arm → s.params.blFieldOk = true → fetch s = .next (.word w) →
    w.extractLsb' 28 4 ≠ 15#4 →
      (w.extractLsb' 26 2 = 0#2 → w.extractLsb' 21 4 = 4#4 →
        (w.extractLsb' 16 4 = 15#4 ∨ w.extractLsb' 12 4 = 15#4 ∨
          (w.extractLsb' 25 1 = 0#1 ∧ w.extractLsb' 0 4 = 15#4)) →
        step s = .refused (.refusedR15 s.pc (some w))) ∧
      (∀ k : DtKey, w.extractLsb' 26 2 = 1#2 → s.params.dtKeyOf (w.extractLsb' 20 6) = some k →
        (w.extractLsb' 16 4 = 15#4 ∨ w.extractLsb' 12 4 = 15#4 ∨
          (k.mode ∈ [ModeNumber.m6, .m7, .m10, .m11, .m12] ∧ w.extractLsb' 0 4 = 15#4)) →
        step s = .refused (.refusedR15 s.pc (some w)))

/-- R93, R95, R242: an `ADD` whose registers are named and whose Operand2 has no meaning is refused: an immediate
above 255 under `refuse_high`, and a register with nonzero bits 6 to 4. The term of such an immediate is refused too,
after condition 15 (notes/assumptions/10.md). -/
def Obligations.AddOperandFormsWithoutMeaningAreRefused : Prop :=
  (∀ (s : State) (w : Word), s.params.isa = .arm → s.params.blFieldOk = true → fetch s = .next (.word w) →
    w.extractLsb' 28 4 ≠ 15#4 → w.extractLsb' 26 2 = 0#2 → w.extractLsb' 21 4 = 4#4 →
    w.extractLsb' 16 4 ≠ 15#4 → w.extractLsb' 12 4 ≠ 15#4 →
      (w.extractLsb' 25 1 = 1#1 → s.params.armImm12Mode = .refuseHigh → w.extractLsb' 8 4 ≠ 0#4 →
        step s = .refused (.refusedOperandForm s.pc (some w))) ∧
      (w.extractLsb' 25 1 = 0#1 → w.extractLsb' 0 4 ≠ 15#4 → w.extractLsb' 4 3 ≠ 0#3 →
        step s = .refused (.refusedOperandForm s.pc (some w)))) ∧
  ∀ (s : State) (cond : Cond) (setFlags : Bool) (rd rn : ArmReg) (imm : BitVec 12),
    s.params.armImm12Mode = .refuseHigh → 256 ≤ imm.toNat → cond ≠ .nv →
      exec (.armAddImm cond setFlags rd rn imm) s = .refused (.refusedOperandForm s.pc none)

/-- R95, R97, R98, R107: a transfer word of a set OPEN entry with a register offset is refused when bits 6 to 4 are not
0, and in an unscaled mode when bits 11 to 7 are not 0 (the model's reading, notes/assumptions/9.md). -/
def Obligations.RegisterOffsetFormsWithoutMeaningAreRefused : Prop :=
  ∀ (s : State) (w : Word) (k : DtKey), s.params.isa = .arm → s.params.blFieldOk = true →
    fetch s = .next (.word w) → w.extractLsb' 28 4 ≠ 15#4 → w.extractLsb' 26 2 = 1#2 →
    s.params.dtKeyOf (w.extractLsb' 20 6) = some k → w.extractLsb' 16 4 ≠ 15#4 → w.extractLsb' 12 4 ≠ 15#4 →
    w.extractLsb' 0 4 ≠ 15#4 →
      (k.mode ∈ [ModeNumber.m6, .m7, .m10, .m11, .m12] → w.extractLsb' 4 3 ≠ 0#3 →
        step s = .refused (.refusedOperandForm s.pc (some w))) ∧
      (k.mode ∈ [ModeNumber.m6, .m10, .m12] → w.extractLsb' 7 5 ≠ 0#5 →
        step s = .refused (.refusedOperandForm s.pc (some w)))

/-- R158 (with R150's gate and R108's operand form): every other MIPS word is refused. -/
def Obligations.OtherMipsWordsAreRefused : Prop :=
  ∀ (s : State) (w : Word), s.params.isa = .mips → fetch s = .next (.word w) →
    let f := fieldsMips w
    (s.params.mipsRepresentativeSet = false → step s = .refused (.illegalInstruction s.pc (some w))) ∧
      (f.op ∉ [0#6, 2#6, 4#6, 8#6, 35#6, 43#6] → step s = .refused (.illegalInstruction s.pc (some w))) ∧
      (f.op = 0#6 → f.funct ≠ 32#6 → step s = .refused (.illegalInstruction s.pc (some w))) ∧
      (s.params.mipsRepresentativeSet = true → f.op = 0#6 → f.funct = 32#6 → f.shamt ≠ 0#5 →
        step s = .refused (.refusedOperandForm s.pc (some w)))

/-- R93: which immediates the three modes admit and what value each gives; the literal and the rotated
reading agree exactly when `Operand2[11:8] = 0`. -/
def Obligations.ImmediateModesAgreeOnlyBelow256 : Prop :=
  ∀ imm : BitVec 12,
    imm12Value .refuseHigh imm = (if imm.toNat < 256 then some (BitVec.ofNat 32 imm.toNat) else none) ∧
      imm12Value .zext12 imm = some (BitVec.ofNat 32 imm.toNat) ∧
      imm12Value .rot8 imm =
        some ((BitVec.ofNat 32 (imm.toNat % 256)).rotateRight (2 * (imm.toNat / 256))) ∧
      (imm12Value .zext12 imm = imm12Value .rot8 imm ↔ imm.toNat < 256)

/-- R156, R157, R221: the displacement fields the assembler computes reach the label, and every field of a branch or
jump is the one the assembler computes for its own target. -/
def Obligations.AssembledDisplacementReachesLabel : Prop :=
  ∀ (p : Params) (pc label : Word),
    ((∀ imm, assembleArmBranch p pc label = some imm → armBranchTarget p pc imm = label) ∧
      ∀ imm, assembleArmBranch p pc (armBranchTarget p pc imm) = some imm) ∧
    ((∀ imm, assembleMipsBranch pc label = some imm → mipsBranchTarget pc imm = label) ∧
      ∀ imm, assembleMipsBranch pc (mipsBranchTarget pc imm) = some imm) ∧
    ((∀ target, assembleMipsJump pc label = some target → mipsJumpTarget pc target = label) ∧
      ∀ target, assembleMipsJump pc (mipsJumpTarget pc target) = some target)

/-! ### The step -/

/-- R10, R151, R170: when the word fetched decodes to an instruction, the step is that instruction's execution. -/
def Obligations.StepRunsDecodedWord : Prop :=
  ∀ (s : State) (w : Word) (i : Instr),
    fetch s = .next (.word w) → decode s.params w = .ok i → step s = exec i s

/-- R190, D34: a well-formed instruction term is executed by the same rules; a term of the other machine, or a MIPS
term behind a closed gate, is refused, and a term with condition NV faults (notes/assumptions/10.md). -/
def Obligations.StepRunsInstructionTerm : Prop :=
  ∀ (s : State) (i : Instr), fetch s = .next (.term i) →
    (WellFormed s.params i = true → step s = exec i s) ∧
      (isaOk s.params i = false ∨ gateOk s.params i = false → step s = .refused (.illegalInstruction s.pc none)) ∧
      (isaOk s.params i = true → i.cond? = some .nv → step s = .fault (.reservedCondition s.pc none))

/-- R54, R273: the fetch's checks in their order. That a finished run answers the refusal `runEnded` is the
model's choice (notes/assumptions/6.md). -/
def Obligations.FetchChecksInOrder : Prop :=
  ∀ s : State,
    (s.pc.toNat % 4 ≠ 0 → step s = .fault (.fetchMisaligned s.pc)) ∧
      (s.pc.toNat % 4 = 0 → s.pc = endAddress s.params → step s = .refused (.runEnded s.pc)) ∧
      (s.pc.toNat % 4 = 0 → s.pc ≠ endAddress s.params →
        (s.pc.toNat < s.params.textBase.toNat ∨
          s.params.textBase.toNat + 4 * s.params.text.length ≤ s.pc.toNat) →
        step s = .fault (.fetchOutsideText s.pc))

/-- R54, R271: under the launch premises every slot of the text is fetched at its own address. -/
def Obligations.FetchReadsTheSlotAtItsIndex : Prop :=
  ∀ (s : State) (k : Nat), s.params.mapOk = true → k < s.params.text.length →
    s.pc.toNat = s.params.textBase.toNat + 4 * k → s.pc ≠ endAddress s.params →
      ∃ x, fetch s = .next x ∧
        match s.params.text, x with
        | .words ws, .word w => ws[k]? = some w
        | .terms is, .term i => is[k]? = some i
        | _, _ => False

/-- Every instruction has a meaning: none is refused as not modelled. -/
def Obligations.EveryInstructionHasMeaning : Prop :=
  ∀ (i : Instr) (s : State) (name : String), exec i s ≠ .refused (.notModelled name)

/-- R10, R241: a fault and a refusal record the pc of the instruction. -/
def Obligations.StopsRecordThePc : Prop :=
  ∀ s : State,
    (∀ r, step s = .fault r →
      match r with
      | .fetchMisaligned pc => pc = s.pc
      | .fetchOutsideText pc => pc = s.pc
      | .reservedCondition pc _ => pc = s.pc
      | .unwrittenRegister pc _ => pc = s.pc
      | .misalignedAccess pc _ => pc = s.pc
      | .unmappedAccess pc _ => pc = s.pc
      | .storeToText pc _ => pc = s.pc
      | .integerOverflow pc => pc = s.pc) ∧
    (∀ r, step s = .refused r →
      match r with
      | .notModelled _ => False
      | .illegalInstruction pc _ => pc = s.pc
      | .refusedR15 pc _ => pc = s.pc
      | .refusedOperandForm pc _ => pc = s.pc
      | .refusedWritebackSameRegister pc => pc = s.pc
      | .runEnded pc => pc = s.pc
      | .delaySlotWithoutRules pc => pc = s.pc)

/-! ### ARM -/

/-- R220: what each condition tests, which flags it reads, what an unwritten one does, and the complementary pairs. -/
def Obligations.ConditionPredicates : Prop :=
  let named (c : Cond) : List Flag :=
    match c with
    | .eq => [.z] | .ne => [.z] | .hs => [.c] | .lo => [.c] | .mi => [.n] | .pl => [.n] | .vs => [.v] | .vc => [.v]
    | .hi => [.c, .z] | .ls => [.c, .z] | .ge => [.n, .v] | .lt => [.n, .v] | .gt => [.z, .n, .v]
    | .le => [.z, .n, .v] | .al => [] | .nv => []
  (∀ (s : State) (n z c v : Bool), s.flagN = some n → s.flagZ = some z → s.flagC = some c → s.flagV = some v →
      ∀ cond : Cond, cond ≠ .nv →
        condPassed cond s = .next
          (match cond with
            | .eq => z | .ne => !z | .hs => c | .lo => !c | .mi => n | .pl => !n | .vs => v | .vc => !v
            | .hi => c && !z | .ls => !c || z | .ge => n == v | .lt => n != v | .gt => !z && n == v
            | .le => z || n != v | .al => true | .nv => false)) ∧
    (∀ (s t : State) (cond : Cond), s.pc = t.pc → (∀ f ∈ named cond, s.flag f = t.flag f) →
      condPassed cond s = condPassed cond t) ∧
    (∀ (s : State) (cond : Cond), (∃ f ∈ named cond, s.flag f = none) →
      ∃ f ∈ named cond, s.flag f = none ∧ condPassed cond s = .fault (.unwrittenRegister s.pc (.flag f))) ∧
    (∀ (s : State) (cond : Cond) (x : Bool), cond ≠ .al → cond ≠ .nv → condPassed cond s = .next x →
      condPassed (Cond.ofBits (cond.bits ^^^ 1#4)) s = .next (!x))

/-- R170, R242: every ARM instruction tests its condition first. When it fails only the pc changes; when it reads an
unwritten flag that is the fault, whatever else the instruction would do. -/
def Obligations.ConditionIsTestedFirst : Prop :=
  ∀ (s : State) (i : Instr) (cond : Cond), i.cond? = some cond → immOk s.params i = true →
    (condPassed cond s = .next false → exec i s = .next { s with pc := s.pc + 4 }) ∧
      (∀ r, condPassed cond s = .fault r → exec i s = .fault r)

/-- R172, R173: `ADD` in its three operand forms whose condition passes: the sum modulo 2^32 in `Rd`, the four flags when
`S = 1` and none otherwise, the pc, nothing else; and its faults, `Rn` first. When the condition fails only the pc. -/
def Obligations.ArmAddResultAndFlags : Prop :=
  ∀ (s : State) (cond : Cond) (setFlags : Bool) (rd rn : ArmReg),
    let sum (a b : Word) : Word := BitVec.ofNat 32 (a.toNat + b.toNat)
    let after (a b : Word) : State :=
      { s with
        armX := s.armX.set rd (some (sum a b))
        flagN := if setFlags then some ((sum a b).getLsbD 31) else s.flagN
        flagZ := if setFlags then some (decide ((sum a b).toNat = 0)) else s.flagZ
        flagC := if setFlags then some (decide (a.toNat + b.toNat ≥ 2 ^ 32)) else s.flagC
        flagV :=
          if setFlags then
            some (decide (a.getLsbD 31 = b.getLsbD 31 ∧ (sum a b).getLsbD 31 ≠ a.getLsbD 31))
          else s.flagV
        pc := s.pc + 4 }
    (condPassed cond s = .next true →
      (∀ a : Word, s.armX[rn] = some a →
        (∀ (rm : ArmReg) (h : BitVec 5) (x : Word), s.armX[rm] = some x →
          exec (.armAddReg cond setFlags rd rn rm h) s = .next (after a (x <<< h.toNat))) ∧
        (∀ (rm : ArmReg) (h : BitVec 5), s.armX[rm] = none →
          exec (.armAddReg cond setFlags rd rn rm h) s = .fault (.unwrittenRegister s.pc (.armReg rm))) ∧
        (∀ (imm : BitVec 12) (b : Word), imm12Value s.params.armImm12Mode imm = some b →
          exec (.armAddImm cond setFlags rd rn imm) s = .next (after a b))) ∧
      (s.armX[rn] = none →
        (∀ (rm : ArmReg) (h : BitVec 5),
          exec (.armAddReg cond setFlags rd rn rm h) s = .fault (.unwrittenRegister s.pc (.armReg rn))) ∧
        (∀ (imm : BitVec 12) (b : Word), imm12Value s.params.armImm12Mode imm = some b →
          exec (.armAddImm cond setFlags rd rn imm) s = .fault (.unwrittenRegister s.pc (.armReg rn))))) ∧
    (condPassed cond s = .next false →
      (∀ (rm : ArmReg) (h : BitVec 5),
        exec (.armAddReg cond setFlags rd rn rm h) s = .next { s with pc := s.pc + 4 }) ∧
      (∀ (imm : BitVec 12) (b : Word), imm12Value s.params.armImm12Mode imm = some b →
        exec (.armAddImm cond setFlags rd rn imm) s = .next { s with pc := s.pc + 4 }))

/-- R192, R193, R194: `LDR` in modes 5, 6 and 7 loads the word at the sum into `Rd` and changes nothing else but the
pc. -/
def Obligations.LdrOffsetModes : Prop :=
  ∀ (s : State) (cond : Cond) (rd rn : ArmReg) (base : Word),
    condPassed cond s = .next true → s.armX[rn] = some base →
    let after (addr : Word) : State :=
      { s with
        armX := s.armX.set rd (some (s.mem.loadWord s.params.byteOrder addr.toNat))
        pc := s.pc + 4 }
    (∀ off : BitVec 12, s.readable (base + off.setWidth 32) →
      exec (.armLdrImm cond rd rn off) s = .next (after (base + off.setWidth 32))) ∧
    (∀ (rm : ArmReg) (x : Word), s.armX[rm] = some x → s.readable (base + x) →
      exec (.armLdrIndexed cond rd rn (.regOffset rm)) s = .next (after (base + x))) ∧
    (∀ (rm : ArmReg) (h : BitVec 5) (x : Word), s.armX[rm] = some x → s.readable (base + (x <<< h.toNat)) →
      exec (.armLdrIndexed cond rd rn (.scaledOffset rm h)) s = .next (after (base + (x <<< h.toNat))))

/-- R195, R197, R198: `LDR` in the pre-indexed modes 8, 10 and 11 loads the word at the sum, which is also the new
base. -/
def Obligations.LdrPreIndexedModes : Prop :=
  ∀ (s : State) (cond : Cond) (rd rn : ArmReg) (base : Word),
    condPassed cond s = .next true → s.armX[rn] = some base → rd ≠ rn →
    let after (addr : Word) : State :=
      { s with
        armX := (s.armX.set rn (some addr)).set rd (some (s.mem.loadWord s.params.byteOrder addr.toNat))
        pc := s.pc + 4 }
    (∀ off : BitVec 12, s.readable (base + off.setWidth 32) →
      exec (.armLdrIndexed cond rd rn (.immPre off)) s = .next (after (base + off.setWidth 32))) ∧
    (∀ (rm : ArmReg) (x : Word), rm ≠ rn → s.armX[rm] = some x → s.readable (base + x) →
      exec (.armLdrIndexed cond rd rn (.regPre rm)) s = .next (after (base + x))) ∧
    (∀ (rm : ArmReg) (h : BitVec 5) (x : Word), rm ≠ rn → s.armX[rm] = some x → s.readable (base + (x <<< h.toNat)) →
      exec (.armLdrIndexed cond rd rn (.scaledPre rm h)) s = .next (after (base + (x <<< h.toNat))))

/-- R196, R199: `LDR` in the post-indexed modes 9 and 12 loads the word at the old base; the sum is the new base. -/
def Obligations.LdrPostIndexedModes : Prop :=
  ∀ (s : State) (cond : Cond) (rd rn : ArmReg) (base : Word),
    condPassed cond s = .next true → s.armX[rn] = some base → rd ≠ rn → s.readable base →
    let after (newBase : Word) : State :=
      { s with
        armX := (s.armX.set rn (some newBase)).set rd (some (s.mem.loadWord s.params.byteOrder base.toNat))
        pc := s.pc + 4 }
    (∀ off : BitVec 12,
      exec (.armLdrIndexed cond rd rn (.immPost off)) s = .next (after (base + off.setWidth 32))) ∧
    (∀ (rm : ArmReg) (x : Word), rm ≠ rn → s.armX[rm] = some x →
      exec (.armLdrIndexed cond rd rn (.regPost rm)) s = .next (after (base + x)))

/-- R201: `STR` in its eight modes: the word of `Rd` at the mode's address, the new base in the modes that write it,
every other byte and everything else as before. -/
def Obligations.StrStoresInEveryMode : Prop :=
  ∀ (s : State) (cond : Cond) (rd rn : ArmReg) (m : DtMode) (base off v : Word),
    condPassed cond s = .next true → s.armX[rn] = some base → s.armX[rd] = some v →
    (match m with
      | .immOffset k => off = k.setWidth 32
      | .indexed (.regOffset rm) => s.armX[rm] = some off
      | .indexed (.scaledOffset rm h) => ∃ x : Word, s.armX[rm] = some x ∧ off = x <<< h.toNat
      | .indexed (.immPre k) => off = k.setWidth 32 ∧ rd ≠ rn
      | .indexed (.immPost k) => off = k.setWidth 32 ∧ rd ≠ rn
      | .indexed (.regPre rm) => s.armX[rm] = some off ∧ rd ≠ rn ∧ rm ≠ rn
      | .indexed (.scaledPre rm h) => (∃ x : Word, s.armX[rm] = some x ∧ off = x <<< h.toNat) ∧ rd ≠ rn ∧ rm ≠ rn
      | .indexed (.regPost rm) => s.armX[rm] = some off ∧ rd ≠ rn ∧ rm ≠ rn) →
    let addr : Word :=
      match m with
      | .indexed (.immPost _) => base
      | .indexed (.regPost _) => base
      | _ => base + off
    s.writable addr →
    ∃ t, exec (.armStr cond rd rn m) s = .next t ∧
      t.mem.loadWord s.params.byteOrder addr.toNat = v ∧
      (∀ x : Nat, x < addr.toNat ∨ addr.toNat + 4 ≤ x → t.mem.read x = s.mem.read x) ∧
      t =
        { s with
          mem := t.mem
          armX :=
            match m with
            | .immOffset _ => s.armX
            | .indexed (.regOffset _) => s.armX
            | .indexed (.scaledOffset _ _) => s.armX
            | _ => s.armX.set rn (some (base + off))
          pc := s.pc + 4 }

/-- R200: a mode that updates the base with `Rd = Rn` or `Rm = Rn` is refused, whatever the registers hold. -/
def Obligations.WritebackOfRepeatedRegisterIsRefused : Prop :=
  ∀ (s : State) (cond : Cond) (rd rn : ArmReg) (m : IndexedMode), condPassed cond s = .next true →
    (match m with
      | .regOffset _ => False
      | .scaledOffset _ _ => False
      | .immPre _ => rd = rn
      | .immPost _ => rd = rn
      | .regPre rm => rd = rn ∨ rm = rn
      | .scaledPre rm _ => rd = rn ∨ rm = rn
      | .regPost rm => rd = rn ∨ rm = rn) →
    exec (.armLdrIndexed cond rd rn m) s = .refused (.refusedWritebackSameRegister s.pc) ∧
      exec (.armStr cond rd rn (.indexed m)) s = .refused (.refusedWritebackSameRegister s.pc)

/-- R33, R191, R201, R242: a transfer that reads an unwritten register faults on it: the base first, then the offset
register, then a store's data. -/
def Obligations.TransfersFaultOnUnwrittenRegistersInOrder : Prop :=
  ∀ (s : State) (cond : Cond) (rd rn : ArmReg) (m : DtMode),
    condPassed cond s = .next true → writebackClash rd rn m = false →
    let load : Instr :=
      match m with
      | .immOffset off => .armLdrImm cond rd rn off
      | .indexed m => .armLdrIndexed cond rd rn m
    let store : Instr := .armStr cond rd rn m
    (s.armX[rn] = none →
      exec load s = .fault (.unwrittenRegister s.pc (.armReg rn)) ∧
        exec store s = .fault (.unwrittenRegister s.pc (.armReg rn))) ∧
    (∀ (base : Word) (rm : ArmReg), s.armX[rn] = some base → offsetReg m = some rm → s.armX[rm] = none →
      exec load s = .fault (.unwrittenRegister s.pc (.armReg rm)) ∧
        exec store s = .fault (.unwrittenRegister s.pc (.armReg rm))) ∧
    (∀ x, dtAddress s rn m = .next x → s.armX[rd] = none →
      exec store s = .fault (.unwrittenRegister s.pc (.armReg rd)))

/-- R53, R57, R59, R65, R242: the address checks of a transfer at the address its mode computes, in their order:
alignment, then (a store) the text, then the regions. -/
def Obligations.TransferAddressChecksInOrder : Prop :=
  ∀ (s : State) (cond : Cond) (rd rn : ArmReg) (m : DtMode) (addr : Word) (wb : Option Word),
    condPassed cond s = .next true → writebackClash rd rn m = false → dtAddress s rn m = .next (addr, wb) →
    let load : Instr :=
      match m with
      | .immOffset off => .armLdrImm cond rd rn off
      | .indexed m => .armLdrIndexed cond rd rn m
    let unmapped : Prop :=
      wordInside s.params.dataRegions addr = false ∧ wordInside s.params.ioRegions addr = false
    (addr.toNat % 4 ≠ 0 → exec load s = .fault (.misalignedAccess s.pc addr)) ∧
      (addr.toNat % 4 = 0 → unmapped → exec load s = .fault (.unmappedAccess s.pc addr)) ∧
      (∀ v : Word, s.armX[rd] = some v →
        (addr.toNat % 4 ≠ 0 → exec (.armStr cond rd rn m) s = .fault (.misalignedAccess s.pc addr)) ∧
        (addr.toNat % 4 = 0 → wordTouchesText s.params addr = true →
          exec (.armStr cond rd rn m) s = .fault (.storeToText s.pc addr)) ∧
        (addr.toNat % 4 = 0 → wordTouchesText s.params addr = false → unmapped →
          exec (.armStr cond rd rn m) s = .fault (.unmappedAccess s.pc addr)))

/-- R221, R222: a taken `B` goes to the branch plus `ARM_PC_READ_OFFSET` plus four times the signed field, and does
nothing else; the target is aligned when the branch and that offset are. -/
def Obligations.BranchGoesToItsTarget : Prop :=
  ∀ (s : State) (cond : Cond) (imm : BitVec 24), condPassed cond s = .next true →
    let target : Word := s.pc + s.params.armPcReadOffset + BitVec.ofInt 32 (4 * imm.toInt)
    exec (.armB cond imm) s = .next { s with pc := target } ∧
      (s.pc.toNat % 4 = 0 → s.params.armPcReadOffset.toNat % 4 = 0 → target.toNat % 4 = 0)

/-- R223: a taken `BL` goes where `B` would and leaves the address of the next instruction in `r14`. -/
def Obligations.BranchWithLinkSavesReturnAddress : Prop :=
  ∀ (s : State) (cond : Cond) (imm : BitVec 24), condPassed cond s = .next true →
    exec (.armBl cond imm) s = .next
      { s with
        armX := s.armX.set 14 (some (s.pc + 4))
        pc := s.pc + s.params.armPcReadOffset + BitVec.ofInt 32 (4 * imm.toInt) }

/-! ### MIPS -/

/-- R26: register 0 reads as 0 and discards writes; registers 1 to 31 hold what was last written. -/
def Obligations.MipsRegisterZeroIsHardwired : Prop :=
  ∀ (s : State) (v : Word),
    readMips s 0 = .next 0 ∧ s.writeMips 0 v = s ∧
      ∀ r q : MipsReg, r ≠ 0 → (s.writeMips r v).mipsValue q = if q = r then some v else s.mipsValue q

/-- R152: `add`: the sum, or `IntegerOverflow` when the signed sum does not fit, even where `rd` is 0; unwritten
sources fault, `rs` first. -/
def Obligations.MipsAddResultAndFaults : Prop :=
  ∀ (s : State) (rd rs rt : MipsReg),
    (∀ a b : Word, s.mipsValue rs = some a → s.mipsValue rt = some b →
      (-2 ^ 31 ≤ a.toInt + b.toInt → a.toInt + b.toInt ≤ 2 ^ 31 - 1 →
        ∃ t, exec (.mipsAdd rd rs rt) s = .next t ∧ MipsResult s t rd (a + b) (s.pc + 4)) ∧
      (a.toInt + b.toInt < -2 ^ 31 ∨ 2 ^ 31 - 1 < a.toInt + b.toInt →
        exec (.mipsAdd rd rs rt) s = .fault (.integerOverflow s.pc))) ∧
    (s.mipsValue rs = none → exec (.mipsAdd rd rs rt) s = .fault (.unwrittenRegister s.pc (.mipsReg rs))) ∧
    (∀ a : Word, s.mipsValue rs = some a → s.mipsValue rt = none →
      exec (.mipsAdd rd rs rt) s = .fault (.unwrittenRegister s.pc (.mipsReg rt)))

/-- R153: `addi`: the sum with the sign-extended immediate, or its faults. -/
def Obligations.MipsAddiResultAndFaults : Prop :=
  ∀ (s : State) (rt rs : MipsReg) (imm : BitVec 16),
    (∀ a : Word, s.mipsValue rs = some a →
      (-2 ^ 31 ≤ a.toInt + imm.toInt → a.toInt + imm.toInt ≤ 2 ^ 31 - 1 →
        ∃ t, exec (.mipsAddi rt rs imm) s = .next t ∧
          MipsResult s t rt (BitVec.ofInt 32 (a.toInt + imm.toInt)) (s.pc + 4)) ∧
      (a.toInt + imm.toInt < -2 ^ 31 ∨ 2 ^ 31 - 1 < a.toInt + imm.toInt →
        exec (.mipsAddi rt rs imm) s = .fault (.integerOverflow s.pc))) ∧
    (s.mipsValue rs = none → exec (.mipsAddi rt rs imm) s = .fault (.unwrittenRegister s.pc (.mipsReg rs)))

/-- R154: `lw`: the word at base plus displacement, or its faults in their order. -/
def Obligations.MipsLwResultAndFaults : Prop :=
  ∀ (s : State) (rt rs : MipsReg) (imm : BitVec 16),
    (∀ base : Word, s.mipsValue rs = some base →
      let addr : Word := base + BitVec.ofInt 32 imm.toInt
      (s.readable addr →
        ∃ t, exec (.mipsLw rt rs imm) s = .next t ∧
          MipsResult s t rt (s.mem.loadWord s.params.byteOrder addr.toNat) (s.pc + 4)) ∧
      (addr.toNat % 4 ≠ 0 → exec (.mipsLw rt rs imm) s = .fault (.misalignedAccess s.pc addr)) ∧
      (addr.toNat % 4 = 0 → wordInside s.params.dataRegions addr = false →
        wordInside s.params.ioRegions addr = false →
        exec (.mipsLw rt rs imm) s = .fault (.unmappedAccess s.pc addr))) ∧
    (s.mipsValue rs = none → exec (.mipsLw rt rs imm) s = .fault (.unwrittenRegister s.pc (.mipsReg rs)))

/-- R155: `sw`: the word of `rt` at base plus displacement, every other byte and every register as before, or its
faults in their order. -/
def Obligations.MipsSwStoresAndFaults : Prop :=
  ∀ (s : State) (rt rs : MipsReg) (imm : BitVec 16),
    (∀ base : Word, s.mipsValue rs = some base →
      let addr : Word := base + BitVec.ofInt 32 imm.toInt
      (∀ v : Word, s.mipsValue rt = some v →
        (s.writable addr →
          ∃ t, exec (.mipsSw rt rs imm) s = .next t ∧
            t.mem.loadWord s.params.byteOrder addr.toNat = v ∧
            (∀ x : Nat, x < addr.toNat ∨ addr.toNat + 4 ≤ x → t.mem.read x = s.mem.read x) ∧
            t = { s with mem := t.mem, pc := s.pc + 4 }) ∧
        (addr.toNat % 4 ≠ 0 → exec (.mipsSw rt rs imm) s = .fault (.misalignedAccess s.pc addr)) ∧
        (addr.toNat % 4 = 0 → wordTouchesText s.params addr = true →
          exec (.mipsSw rt rs imm) s = .fault (.storeToText s.pc addr)) ∧
        (addr.toNat % 4 = 0 → wordTouchesText s.params addr = false →
          wordInside s.params.dataRegions addr = false → wordInside s.params.ioRegions addr = false →
          exec (.mipsSw rt rs imm) s = .fault (.unmappedAccess s.pc addr))) ∧
      (s.mipsValue rt = none →
        exec (.mipsSw rt rs imm) s = .fault (.unwrittenRegister s.pc (.mipsReg rt)))) ∧
    (s.mipsValue rs = none → exec (.mipsSw rt rs imm) s = .fault (.unwrittenRegister s.pc (.mipsReg rs)))

/-- R156, R133: `beq` goes to `pc + 4` plus four times the signed displacement when its registers are equal, else to
`pc + 4`, and changes nothing else. -/
def Obligations.MipsBeqBranchesOnEqual : Prop :=
  ∀ (s : State) (rs rt : MipsReg) (imm : BitVec 16), s.params.mipsBranchDelaySlot = false →
    (∀ a b : Word, s.mipsValue rs = some a → s.mipsValue rt = some b →
      exec (.mipsBeq rs rt imm) s = .next
        { s with pc := if a = b then s.pc + 4 + BitVec.ofInt 32 (4 * imm.toInt) else s.pc + 4 }) ∧
    (s.mipsValue rs = none → exec (.mipsBeq rs rt imm) s = .fault (.unwrittenRegister s.pc (.mipsReg rs))) ∧
    (∀ a : Word, s.mipsValue rs = some a → s.mipsValue rt = none →
      exec (.mipsBeq rs rt imm) s = .fault (.unwrittenRegister s.pc (.mipsReg rt)))

/-- R157, R134: `j` goes to the upper four bits of `pc + 4`, the 26 bits of its field and two zeros, and changes
nothing else. -/
def Obligations.MipsJGoesToItsRegion : Prop :=
  ∀ (s : State) (target : BitVec 26), s.params.mipsBranchDelaySlot = false →
    ∃ t, exec (.mipsJ target) s = .next t ∧
      t.pc.toNat = (s.pc + 4).toNat / 2 ^ 28 * 2 ^ 28 + target.toNat * 4 ∧
      t = { s with pc := t.pc }

/-- R274: with `MIPS_BRANCH_DELAY_SLOT` true, a value the spec gives no rules for, `beq` and `j` are refused; the
refusal is the model's choice (notes/assumptions/12.md). -/
def Obligations.DelaySlotHasNoRules : Prop :=
  ∀ s : State, s.params.mipsBranchDelaySlot = true →
    (∀ rs rt imm, exec (.mipsBeq rs rt imm) s = .refused (.delaySlotWithoutRules s.pc)) ∧
      ∀ target, exec (.mipsJ target) s = .refused (.delaySlotWithoutRules s.pc)

/-! ### Memory and devices -/

/-- R56, R57: byte `i` of a loaded word is the byte at `addr + i` in little-endian order and at `addr + 3 - i` in
big-endian order. -/
def Obligations.LoadedWordIsItsBytes : Prop :=
  ∀ (m : Memory) (addr i : Nat), i < 4 →
    byteOf (m.loadWord .little addr) i = m.read (addr + i) ∧ byteOf (m.loadWord .big addr) i = m.read (addr + 3 - i)

/-- R62: a load returns what the store before it stored at the same address, in either byte order: `LDR` after `STR` in
any two modes, by any registers, `lw` after `sw` by any base and displacement. -/
def Obligations.LoadReturnsTheStoredWord : Prop :=
  (∀ (s t : State) (cond cond' : Cond) (rd rn rd' rn' : ArmReg) (m m' : DtMode) (addr v : Word) (wb wb' : Option Word),
    dtAddress s rn m = .next (addr, wb) → s.armX[rd] = some v → s.writable addr →
    condPassed cond s = .next true → exec (.armStr cond rd rn m) s = .next t →
    condPassed cond' t = .next true → writebackClash rd' rn' m' = false → dtAddress t rn' m' = .next (addr, wb') →
    let load : Instr :=
      match m' with
      | .immOffset off => .armLdrImm cond' rd' rn' off
      | .indexed m' => .armLdrIndexed cond' rd' rn' m'
    ∃ u, exec load t = .next u ∧ u.armX[rd'] = some v) ∧
  (∀ (s t : State) (rt rs rt' rs' : MipsReg) (imm imm' : BitVec 16) (base base' v : Word),
    s.mipsValue rs = some base → s.mipsValue rt = some v → s.writable (base + BitVec.ofInt 32 imm.toInt) →
    exec (.mipsSw rt rs imm) s = .next t →
    t.mipsValue rs' = some base' → base' + BitVec.ofInt 32 imm'.toInt = base + BitVec.ofInt 32 imm.toInt → rt' ≠ 0 →
    ∃ u, exec (.mipsLw rt' rs' imm') t = .next u ∧ u.mipsValue rt' = some v)

/-- R58: a load from `IO_REGIONS`, `LDR` in any mode or `lw`, answers the next draw, whatever it is, and uses it up; the
base is written back in the modes that do so, memory is unchanged. That the draws are numbered by a counter is the
model's form (notes/assumptions/7.md). -/
def Obligations.DeviceLoadIsAFreshDraw : Prop :=
  (∀ (s : State) (cond : Cond) (rd rn : ArmReg) (m : DtMode) (addr : Word) (wb : Option Word),
    condPassed cond s = .next true → writebackClash rd rn m = false → dtAddress s rn m = .next (addr, wb) →
    addr.toNat % 4 = 0 → wordInside s.params.ioRegions addr = true →
    let load : Instr :=
      match m with
      | .immOffset off => .armLdrImm cond rd rn off
      | .indexed m => .armLdrIndexed cond rd rn m
    let based : Vector (Option Word) 15 :=
      match wb with
      | some b => s.armX.set rn (some b)
      | none => s.armX
    exec load s = .next
      { s with armX := based.set rd (some (Config.draw s.draws)), draws := s.draws + 1, pc := s.pc + 4 }) ∧
  (∀ (s : State) (rt rs : MipsReg) (imm : BitVec 16) (base : Word),
    s.mipsValue rs = some base → (base + BitVec.ofInt 32 imm.toInt).toNat % 4 = 0 →
    wordInside s.params.ioRegions (base + BitVec.ofInt 32 imm.toInt) = true →
    ∃ t, exec (.mipsLw rt rs imm) s = .next t ∧
      MipsResult { s with draws := s.draws + 1 } t rt (Config.draw s.draws) (s.pc + 4))

/-- R58: a store into `IO_REGIONS`, `STR` in any mode or `sw`, is recorded as an event and changes no byte of memory, and
no register but the base in the modes that write it back. -/
def Obligations.DeviceStoreIsRecorded : Prop :=
  (∀ (s : State) (cond : Cond) (rd rn : ArmReg) (m : DtMode) (addr v : Word) (wb : Option Word),
    condPassed cond s = .next true → writebackClash rd rn m = false → dtAddress s rn m = .next (addr, wb) →
    s.armX[rd] = some v → addr.toNat % 4 = 0 → wordTouchesText s.params addr = false →
    wordInside s.params.ioRegions addr = true →
    exec (.armStr cond rd rn m) s = .next
      { s with
        armX :=
          match wb with
          | some b => s.armX.set rn (some b)
          | none => s.armX
        events := s.events ++ [⟨addr, v⟩]
        pc := s.pc + 4 }) ∧
  (∀ (s : State) (rt rs : MipsReg) (imm : BitVec 16) (base v : Word),
    s.mipsValue rs = some base → s.mipsValue rt = some v →
    let addr : Word := base + BitVec.ofInt 32 imm.toInt
    addr.toNat % 4 = 0 → wordTouchesText s.params addr = false → wordInside s.params.ioRegions addr = true →
    exec (.mipsSw rt rs imm) s = .next { s with events := s.events ++ [⟨addr, v⟩], pc := s.pc + 4 })

/-! ### What every instruction leaves alone -/

/-- R23, R27: an instruction that is not a branch or a jump ends with `pc + 4`. -/
def Obligations.PcAdvancesExceptByBranches : Prop :=
  ∀ (i : Instr) (s t : State), exec i s = .next t →
    (match i with
      | .armB _ _ => False
      | .armBl _ _ => False
      | .mipsBeq _ _ _ => False
      | .mipsJ _ => False
      | _ => True) →
    t.pc = s.pc + 4

/-- R24: the flags are written only by `ADD` with `S = 1` whose condition passed, and then all four hold a value. -/
def Obligations.OnlyAddSWritesFlags : Prop :=
  ∀ (i : Instr) (s t : State), exec i s = .next t →
    (∀ f : Flag, t.flag f = s.flag f) ∨
      ((∀ f : Flag, (t.flag f).isSome) ∧
        ((∃ c rd rn rm h, i = .armAddReg c true rd rn rm h ∧ condPassed c s = .next true) ∨
          ∃ c rd rn imm, i = .armAddImm c true rd rn imm ∧ condPassed c s = .next true))

/-- R55: only `STR` and `sw` change memory or record an event, and only `LDR` and `lw` draw from a device. -/
def Obligations.OnlyTransfersReachMemory : Prop :=
  ∀ (i : Instr) (s t : State), exec i s = .next t →
    ((∀ c rd rn m, i ≠ .armStr c rd rn m) → (∀ rt rs imm, i ≠ .mipsSw rt rs imm) →
      t.mem = s.mem ∧ t.events = s.events) ∧
    ((∀ c rd rn off, i ≠ .armLdrImm c rd rn off) → (∀ c rd rn m, i ≠ .armLdrIndexed c rd rn m) →
      (∀ rt rs imm, i ≠ .mipsLw rt rs imm) → t.draws = s.draws)

/-! ### What every step keeps -/

/-- R32: no step changes a parameter: the text, the regions and the instruction set are fixed for a run. -/
def Obligations.StepKeepsParameters : Prop :=
  ∀ s t : State, step s = .next t → t.params = s.params

/-- R3: the two machines share nothing: a step of a run of one leaves the other's registers alone. -/
def Obligations.MachinesAreIndependent : Prop :=
  ∀ s t : State, step s = .next t →
    (s.params.isa = .arm → t.mipsX = s.mipsX) ∧
      (s.params.isa = .mips → t.armX = s.armX ∧ ∀ f : Flag, t.flag f = s.flag f)

/-- R30, R57: every step keeps memory in its canonical form. -/
def Obligations.StepKeepsMemoryCanonical : Prop :=
  ∀ s t : State, Memory.wf s.mem → step s = .next t → Memory.wf t.mem

/-- R23, R27, R224: every step keeps the pc a multiple of 4, when `ARM_PC_READ_OFFSET` is one (its default 8 is). -/
def Obligations.StepKeepsPcAligned : Prop :=
  ∀ s t : State, s.pcAligned → s.params.armPcReadOffset.toNat % 4 = 0 → step s = .next t →
    t.pcAligned ∧ t.params.armPcReadOffset.toNat % 4 = 0

/-- R33: once every register and flag holds a value, no step raises `UnwrittenRegister` and every step keeps it so. -/
def Obligations.WrittenRegistersStayWritten : Prop :=
  ∀ s : State, s.allWritten →
    (∀ t, step s = .next t → t.allWritten) ∧ ∀ pc what, step s ≠ .fault (.unwrittenRegister pc what)

/-- R57, R59, R65: a step changes no byte outside `DATA_REGIONS`; under the launch premises that includes the text. -/
def Obligations.StepWritesOnlyDataRegions : Prop :=
  ∀ s t : State, step s = .next t →
    (∀ a : Nat, inRegions s.params.dataRegions a = false → t.mem.read a = s.mem.read a) ∧
      (s.params.mapOk = true → ∀ a : Nat, inText s.params a = true → t.mem.read a = s.mem.read a)

/-- R58: the record of device stores only grows, and the count of draws rises by one with a load from `IO_REGIONS` and
with nothing else, so that the next such load answers another draw. The count is the model's form
(notes/assumptions/7.md). -/
def Obligations.DeviceHistoryOnlyGrows : Prop :=
  ∀ s t : State, step s = .next t →
    s.events <+: t.events ∧ s.draws ≤ t.draws ∧ t.draws ≤ s.draws + 1 ∧
    ∀ (x : Slot) (i : Instr), fetch s = .next x → readSlot s x = .next i →
      let armDevice (cond : Cond) (rn : ArmReg) (m : DtMode) : Prop :=
        condPassed cond s = .next true ∧
          ∃ addr wb, dtAddress s rn m = .next (addr, wb) ∧ wordInside s.params.ioRegions addr = true
      let deviceLoad : Prop :=
        match i with
        | .armLdrImm cond _ rn off => armDevice cond rn (.immOffset off)
        | .armLdrIndexed cond _ rn m => armDevice cond rn (.indexed m)
        | .mipsLw _ rs imm =>
          ∃ base, s.mipsValue rs = some base ∧
            wordInside s.params.ioRegions (base + BitVec.ofInt 32 imm.toInt) = true
        | _ => False
      (deviceLoad → t.draws = s.draws + 1) ∧ (¬deviceLoad → t.draws = s.draws)

/-- R56: no program can observe `BYTE_ORDER`: two runs that differ in the byte order alone, and start with the
same words at the aligned addresses, go on in step, for any number of steps. Devices answer both runs alike: the n-th draw
of the one is the n-th of the other (the model's form, notes/assumptions/7.md). -/
def Obligations.ByteOrderIsUnobservable : Prop :=
  let same (s t : State) : Prop :=
    t = { s with params := { s.params with byteOrder := t.params.byteOrder }, mem := t.mem } ∧
      ∀ a : Nat, a % 4 = 0 →
        s.mem.loadWord s.params.byteOrder a = t.mem.loadWord t.params.byteOrder a
  ∀ (k : Nat) (s t : State), same s t →
    match (Sys2Proof.core.run k s : Res State), (Sys2Proof.core.run k t : Res State) with
    | .next s', .next t' => same s' t'
    | .fault a, .fault b => a = b
    | .refused a, .refused b => a = b
    | _, _ => False

/-- R190, D34: a program of words and the program of the instruction terms those words encode run alike, for any
number of steps. Devices answer both runs alike: the n-th draw of the one is the n-th of the other (the model's form,
notes/assumptions/7.md). -/
def Obligations.WordsAndTermsRunAlike : Prop :=
  ∀ (k : Nat) (s : State) (ws : List Word) (is : List Instr),
    s.params.dtMapOk = true → s.params.blFieldOk = true →
    List.Forall₂ (fun i w => WellFormed s.params i = true ∧ encode s.params i = some w) is ws →
    let withText (t : State) (text : Program) : State := { t with params := { t.params with text := text } }
    match (Sys2Proof.core.run k (withText s (.words ws)) : Res State),
      (Sys2Proof.core.run k (withText s (.terms is)) : Res State) with
    | .next a, .next b => b = withText a (.terms is)
    | .fault a, .fault b => a = b
    | .refused a, .refused b => a = b
    | _, _ => False

/-- The reset state of the model (notes/assumptions/1.md and 3.md, its own choice: the spec gives none, R34): pc at
`TEXT_BASE`, every register and flag 0, no byte listed; and it meets what the steps keep. -/
def Obligations.ResetMeetsTheInvariants : Prop :=
  State.reset.pc = State.reset.params.textBase ∧ (∀ r : ArmReg, State.reset.armX[r] = some 0) ∧
    (∀ r : MipsReg, State.reset.mipsValue r = some 0) ∧ (∀ f : Flag, State.reset.flag f = some false) ∧
    (∀ a : Nat, State.reset.mem.read a = 0) ∧ State.reset.params.wf = true ∧ Memory.wf State.reset.mem ∧
    State.reset.pcAligned ∧ State.reset.params.armPcReadOffset.toNat % 4 = 0 ∧ State.reset.allWritten

/-- R190's table: the address each mode of a transfer uses, and the base register after it (`none`: unchanged). -/
def Obligations.AddressingModesFollowTheTable : Prop :=
  ∀ (s : State) (rn : ArmReg) (base : Word), s.armX[rn] = some base →
    (∀ off : BitVec 12,
      dtAddress s rn (.immOffset off) = .next (base + off.setWidth 32, none) ∧
      dtAddress s rn (.indexed (.immPre off)) = .next (base + off.setWidth 32, some (base + off.setWidth 32)) ∧
      dtAddress s rn (.indexed (.immPost off)) = .next (base, some (base + off.setWidth 32))) ∧
    ∀ (rm : ArmReg) (x : Word), s.armX[rm] = some x →
      dtAddress s rn (.indexed (.regOffset rm)) = .next (base + x, none) ∧
      dtAddress s rn (.indexed (.regPre rm)) = .next (base + x, some (base + x)) ∧
      dtAddress s rn (.indexed (.regPost rm)) = .next (base, some (base + x)) ∧
      ∀ h : BitVec 5,
        dtAddress s rn (.indexed (.scaledOffset rm h)) = .next (base + (x <<< h.toNat), none) ∧
        dtAddress s rn (.indexed (.scaledPre rm h)) = .next (base + (x <<< h.toNat), some (base + (x <<< h.toNat)))
end

