-- ==== Sys2Proof/Laws/Decode.lean ====
section
/-! SUPPORT. Fields placed in a word and taken out of it again; conditions and register numbers. -/

namespace Sys2Proof

/-! ### One field -/

/-- Taking bits that lie inside a placed field gives those bits of the field. -/
theorem extract_place_inside {n : Nat} (width lo start len : Nat) (f : BitVec n) (h1 : lo ≤ start)
    (h2 : start + len ≤ lo + n) (h3 : lo + n ≤ width) :
    (place width lo f).extractLsb' start len = f.extractLsb' (start - lo) len := by
  ext k hk
  simp only [place, BitVec.getElem_extractLsb', BitVec.getLsbD_shiftLeft, BitVec.getLsbD_setWidth]
  have e : start + k - lo = start - lo + k := by omega
  simp [e, show start + k < width by omega, show ¬start + k < lo by omega, show start - lo + k < width by omega]

/-- Taking bits above a placed field gives zeros. -/
theorem extract_place_above {n : Nat} (width lo start len : Nat) (f : BitVec n) (h : lo + n ≤ start) :
    (place width lo f).extractLsb' start len = 0#len := by
  ext k hk
  simp only [place, BitVec.getElem_extractLsb', BitVec.getLsbD_shiftLeft, BitVec.getLsbD_setWidth]
  simp [BitVec.getLsbD_of_ge f (start + k - lo) (by omega)]

/-- Taking bits below a placed field gives zeros. -/
theorem extract_place_below {n : Nat} (width lo start len : Nat) (f : BitVec n) (h : start + len ≤ lo) :
    (place width lo f).extractLsb' start len = 0#len := by
  ext k hk
  simp only [place, BitVec.getElem_extractLsb', BitVec.getLsbD_shiftLeft, BitVec.getLsbD_setWidth]
  simp [show start + k < lo by omega]

/-! ### Conditions and register numbers -/

@[simp] theorem Cond.ofBits_bits (c : Cond) : Cond.ofBits c.bits = c := by cases c <;> rfl

theorem Cond.bits_ofBits (b : BitVec 4) : (Cond.ofBits b).bits = b := by
  revert b; decide

@[simp] theorem armReg?_bits (r : ArmReg) : armReg? (ArmReg.bits r) = some r := by
  revert r; decide

theorem ArmReg.bits_of_armReg? {b : BitVec 4} {r : ArmReg} (h : armReg? b = some r) : ArmReg.bits r = b := by
  revert b r; decide

theorem armReg?_eq_none {b : BitVec 4} : armReg? b = none ↔ b = 15#4 := by
  revert b; decide

@[simp] theorem mipsReg_bits (r : MipsReg) : mipsReg (MipsReg.bits r) = r := by
  revert r; decide

@[simp] theorem MipsReg.bits_mipsReg (b : BitVec 5) : MipsReg.bits (mipsReg b) = b := by
  revert b; decide

/-! ### `ARM_DT_OPCODE` -/

/-- A key found in the OPEN entries is one of them. -/
theorem mem_of_lookup {l : List (DtKey × BitVec 6)} {k : DtKey} {o : BitVec 6} (h : l.lookup k = some o) :
    (k, o) ∈ l := by
  induction l with
  | nil => cases h
  | cons e l ih =>
    rw [List.lookup] at h
    split at h
    · rename_i he
      cases h
      rw [eq_of_beq he]
      exact List.mem_cons_self
    · exact List.mem_cons_of_mem _ (ih h)

/-- The key an Opcode selects has that Opcode. -/
theorem Params.dtOpcode_of_dtKeyOf {p : Params} {opc : BitVec 6} {k : DtKey} (h : p.dtKeyOf opc = some k) :
    p.dtOpcode k = some opc := by
  unfold Params.dtKeyOf at h
  split at h
  · rename_i e
    cases h
    rw [e]
    rfl
  · simpa using List.find?_some h

/-- In a legal map two keys do not share an Opcode (R97). -/
theorem Params.dtOpcode_injective {p : Params} (hd : p.dtMapOk = true) {k j : DtKey} {o : BitVec 6}
    (hk : p.dtOpcode k = some o) (hj : p.dtOpcode j = some o) : k = j := by
  simp only [Params.dtMapOk, Bool.and_eq_true, List.all_eq_true, decide_eq_true_eq] at hd
  obtain ⟨hfix, hpair⟩ := hd
  simp only [Params.dtOpcode] at hk hj
  split at hk <;> split at hj
  · simp_all
  · cases hk; exact absurd rfl (hfix _ (mem_of_lookup hj)).2
  · cases hj; exact absurd rfl (hfix _ (mem_of_lookup hk)).2
  · by_contra hne
    have : Std.Symm fun a b : DtKey × BitVec 6 => a.1 ≠ b.1 ∧ a.2 ≠ b.2 := ⟨fun _ _ h => ⟨h.1.symm, h.2.symm⟩⟩
    exact (hpair.forall (mem_of_lookup hk) (mem_of_lookup hj) fun e => hne (congrArg Prod.fst e)).2 rfl

/-- In a legal map the Opcode of a key selects that key (R107). -/
theorem Params.dtKeyOf_of_dtOpcode {p : Params} (hd : p.dtMapOk = true) {k : DtKey} {o : BitVec 6}
    (h : p.dtOpcode k = some o) : p.dtKeyOf o = some k := by
  have hsome : ∃ j, p.dtKeyOf o = some j := by
    unfold Params.dtKeyOf
    split
    · exact ⟨_, rfl⟩
    · rename_i h24
      have hk : k ≠ ⟨.ldr, .m5⟩ := by
        rintro rfl
        exact h24 (Option.some.inj h).symm
      have hmem : k ∈ DtKey.openKeys := by
        obtain ⟨op, m⟩ := k
        cases op <;> cases m <;> first | exact absurd rfl hk | decide
      exact Option.isSome_iff_exists.mp (List.find?_isSome.mpr ⟨k, hmem, by simpa using h⟩)
  obtain ⟨j, hj⟩ := hsome
  rw [hj, Params.dtOpcode_injective hd h (Params.dtOpcode_of_dtKeyOf hj)]

/-! ### The fields of an encoded word -/

/-- The BR format puts its condition, selector and displacement where R88 says. -/
theorem fields_encodeBr (cond : Cond) (f : BitVec 4) (imm : BitVec 24) :
    (encodeBr cond f imm).extractLsb' 28 4 = cond.bits ∧ (encodeBr cond f imm).extractLsb' 24 4 = f ∧
      (encodeBr cond f imm).extractLsb' 0 24 = imm := by
  simp only [encodeBr, BitVec.extractLsb'_or]
  simp (disch := omega) [extract_place_inside, extract_place_above, extract_place_below]

/-- The DP format puts its fields where R86 says. -/
theorem fields_encodeDp (cond : Cond) (i s : BitVec 1) (rn rd : ArmReg) (op2 : BitVec 12) :
    let w := encodeDp cond i s rn rd op2
    w.extractLsb' 28 4 = cond.bits ∧ w.extractLsb' 26 2 = 0#2 ∧ w.extractLsb' 25 1 = i ∧
      w.extractLsb' 21 4 = 4#4 ∧ w.extractLsb' 20 1 = s ∧ w.extractLsb' 16 4 = ArmReg.bits rn ∧
      w.extractLsb' 12 4 = ArmReg.bits rd ∧ w.extractLsb' 0 12 = op2 := by
  simp only [encodeDp, BitVec.extractLsb'_or]
  simp (disch := omega) [extract_place_inside, extract_place_above, extract_place_below]

/-- The DT format puts its fields where R87 says. -/
theorem fields_encodeDt (cond : Cond) (opc : BitVec 6) (rn rd : ArmReg) (off : BitVec 12) :
    let w := encodeDt cond opc rn rd off
    w.extractLsb' 28 4 = cond.bits ∧ w.extractLsb' 26 2 = 1#2 ∧ w.extractLsb' 20 6 = opc ∧
      w.extractLsb' 16 4 = ArmReg.bits rn ∧ w.extractLsb' 12 4 = ArmReg.bits rd ∧ w.extractLsb' 0 12 = off := by
  simp only [encodeDt, BitVec.extractLsb'_or]
  simp (disch := omega) [extract_place_inside, extract_place_above, extract_place_below]

/-- The R-format puts its fields where R81 says. -/
theorem fields_encodeR (op : BitVec 6) (rs rt rd shamt : BitVec 5) (funct : BitVec 6) :
    let f := fieldsMips (encodeR op rs rt rd shamt funct)
    f.op = op ∧ f.rs = rs ∧ f.rt = rt ∧ f.rd = rd ∧ f.shamt = shamt ∧ f.funct = funct := by
  simp only [fieldsMips, encodeR, BitVec.extractLsb'_or]
  simp (disch := omega) [extract_place_inside, extract_place_above, extract_place_below]

/-- The I-format puts its fields where R82 says. -/
theorem fields_encodeI (op : BitVec 6) (rs rt : BitVec 5) (imm : BitVec 16) :
    let f := fieldsMips (encodeI op rs rt imm)
    f.op = op ∧ f.rs = rs ∧ f.rt = rt ∧ f.imm16 = imm := by
  simp only [fieldsMips, encodeI, BitVec.extractLsb'_or]
  simp (disch := omega) [extract_place_inside, extract_place_above, extract_place_below]

/-- The J-format puts its fields where R83 says. -/
theorem fields_encodeJ (op : BitVec 6) (target : BitVec 26) :
    let f := fieldsMips (encodeJ op target)
    f.op = op ∧ f.target26 = target := by
  simp only [fieldsMips, encodeJ, BitVec.extractLsb'_or]
  simp (disch := omega) [extract_place_inside, extract_place_above, extract_place_below]

/-- A register with its shift puts its fields where R95 says. -/
theorem fields_shiftedRegBits (rm : ArmReg) (h : BitVec 5) :
    (shiftedRegBits rm h).extractLsb' 7 5 = h ∧ (shiftedRegBits rm h).extractLsb' 4 3 = 0#3 ∧
      (shiftedRegBits rm h).extractLsb' 0 4 = ArmReg.bits rm := by
  simp only [shiftedRegBits, BitVec.extractLsb'_or]
  simp (disch := omega) [extract_place_inside, extract_place_above, extract_place_below]

/-! ### A word put together from its fields -/

/-- A word is its R-format fields put together (R81). -/
theorem encodeR_fields (w : Word) :
    encodeR (fieldsMips w).op (fieldsMips w).rs (fieldsMips w).rt (fieldsMips w).rd (fieldsMips w).shamt
      (fieldsMips w).funct = w := by
  unfold encodeR place fieldsMips
  ext k hk
  simp
  interval_cases k <;> simp

/-- A word is its I-format fields put together (R82). -/
theorem encodeI_fields (w : Word) :
    encodeI (fieldsMips w).op (fieldsMips w).rs (fieldsMips w).rt (fieldsMips w).imm16 = w := by
  unfold encodeI place fieldsMips
  ext k hk
  simp
  interval_cases k <;> simp

/-- A word is its J-format fields put together (R83). -/
theorem encodeJ_fields (w : Word) : encodeJ (fieldsMips w).op (fieldsMips w).target26 = w := by
  unfold encodeJ place fieldsMips
  ext k hk
  simp
  interval_cases k <;> simp

/-- A DP word is its fields put together (R86). -/
theorem place_fields_dp (w : Word) :
    place 32 28 (w.extractLsb' 28 4) ||| place 32 26 (w.extractLsb' 26 2) ||| place 32 25 (w.extractLsb' 25 1) |||
      place 32 21 (w.extractLsb' 21 4) ||| place 32 20 (w.extractLsb' 20 1) ||| place 32 16 (w.extractLsb' 16 4) |||
      place 32 12 (w.extractLsb' 12 4) ||| place 32 0 (w.extractLsb' 0 12) = w := by
  unfold place
  ext k hk
  simp
  interval_cases k <;> simp

/-- A DT word is its fields put together (R87). -/
theorem place_fields_dt (w : Word) :
    place 32 28 (w.extractLsb' 28 4) ||| place 32 26 (w.extractLsb' 26 2) ||| place 32 20 (w.extractLsb' 20 6) |||
      place 32 16 (w.extractLsb' 16 4) ||| place 32 12 (w.extractLsb' 12 4) ||| place 32 0 (w.extractLsb' 0 12) = w := by
  unfold place
  ext k hk
  simp
  interval_cases k <;> simp

/-- A BR word is its fields put together (R88). -/
theorem place_fields_br (w : Word) :
    place 32 28 (w.extractLsb' 28 4) ||| place 32 24 (w.extractLsb' 24 4) ||| place 32 0 (w.extractLsb' 0 24) = w := by
  unfold place
  ext k hk
  simp
  interval_cases k <;> simp

/-- A 12-bit operand is its shift, the three bits below it and its register (R95). -/
theorem place_fields_shifted (x : BitVec 12) :
    place 12 7 (x.extractLsb' 7 5) ||| place 12 4 (x.extractLsb' 4 3) ||| place 12 0 (x.extractLsb' 0 4) = x := by
  unfold place
  ext k hk
  simp
  interval_cases k <;> simp

/-! ### Whose instructions a decoder answers -/

theorem DtOp.instr_isa (op : DtOp) (c : Cond) (rd rn : ArmReg) (m : DtMode) : (op.instr c rd rn m).isa = .arm := by
  cases op <;> cases m <;> rfl

theorem decodeRegOffset_isa {scaled : Bool} {off : BitVec 12} {k : ArmReg → BitVec 5 → Instr} {i : Instr}
    (h : decodeRegOffset scaled off k = .ok i) (hk : ∀ rm sh, (k rm sh).isa = .arm) : i.isa = .arm := by
  unfold decodeRegOffset at h
  split at h
  · cases h
  · split at h
    · cases h
    · split at h
      · cases h
      · cases h; exact hk ..

/-- The ARM decoder answers only ARM instructions (R3, R107). -/
theorem decodeArm_isa {p : Params} {w : Word} {i : Instr} (h : decodeArm p w = .ok i) : i.isa = .arm := by
  unfold decodeArm at h
  simp only at h
  split at h
  · cases h
  split at h
  · cases h; rfl
  split at h
  · cases h; rfl
  split at h
  · unfold decodeDp at h
    split at h
    · cases h
    split at h
    · split at h
      · split at h <;> cases h; rfl
      · split at h
        · cases h
        · split at h <;> cases h; rfl
    · cases h
  split at h
  · unfold decodeDt at h
    split at h
    · cases h
    split at h
    · unfold decodeDtOperands at h
      simp only at h
      split at h <;>
        first
        | (cases h; exact DtOp.instr_isa ..)
        | exact decodeRegOffset_isa h fun _ _ => DtOp.instr_isa ..
    · cases h
  · cases h

/-- The MIPS decoder answers only MIPS instructions (R3, R108). -/
theorem decodeMips_isa {p : Params} {w : Word} {i : Instr} (h : decodeMips p w = .ok i) : i.isa = .mips := by
  unfold decodeMips at h
  simp only at h
  repeat' split at h
  all_goals first | (cases h; rfl) | cases h

/-- The decoder of a run answers only instructions of its machine (R3). -/
theorem decode_isa {p : Params} {w : Word} {i : Instr} (h : decode p w = .ok i) : i.isa = p.isa := by
  unfold decode at h
  split at h
  · rename_i e; rw [e]; exact decodeArm_isa h
  · rename_i e; rw [e]; exact decodeMips_isa h

end Sys2Proof
end

