-- ==== Sys2Proof/Laws/Memory.lean ====
section
/-! SUPPORT. Memory: a read after a write, the canonical form, and words (R57). -/

namespace Sys2Proof.Machine

/-! ### One byte -/

theorem Memory.read_insert (m : Memory) (a x : Nat) (b : Byte) :
    (m.insert a b).read x = if a = x then b else m.read x := by
  induction m with
  | nil => rfl
  | cons e m ih =>
    obtain ⟨k, v⟩ := e
    simp only [Memory.insert]
    split
    · rfl
    · split
      · rename_i h; subst h; simp only [Memory.read]; split <;> simp_all
      · simp only [Memory.read, ih]; split <;> simp_all

theorem Memory.read_erase (m : Memory) (a x : Nat) :
    (m.erase a).read x = if a = x then Config.unlistedByte else m.read x := by
  induction m with
  | nil => simp [Memory.erase, Memory.read]
  | cons e m ih =>
    obtain ⟨k, v⟩ := e
    simp only [Memory.erase, List.filter_cons] at ih ⊢
    by_cases hk : k = a
    · subst hk; simp only [ne_eq, not_true_eq_false, decide_false, Bool.false_eq_true, if_false, ih, Memory.read]
      split <;> simp_all
    · simp only [ne_eq, hk, not_false_eq_true, decide_true, if_true, Memory.read, ih]
      by_cases hx : k = x
      · rw [if_pos hx, if_pos hx, if_neg fun h => hk (hx.trans h.symm)]
      · rw [if_neg hx, if_neg hx]

/-- A read after a write: the byte written at its address, every other byte as before. -/
@[simp] theorem Memory.read_write (m : Memory) (a x : Nat) (b : Byte) :
    (m.write a b).read x = if a = x then b else m.read x := by
  simp only [Memory.write]
  split
  · rename_i h; rw [Memory.read_erase, h]
  · exact Memory.read_insert m a x b

/-! ### The canonical form -/

theorem Memory.mem_insert {m : Memory} {a : Nat} {b : Byte} {e : Host.Cell} (h : e ∈ m.insert a b) :
    e = (a, b) ∨ e ∈ m := by
  induction m with
  | nil => simpa [Memory.insert] using h
  | cons c m ih =>
    obtain ⟨k, v⟩ := c
    simp only [Memory.insert] at h
    split at h
    · simpa using h
    · split at h
      · simp only [List.mem_cons] at h ⊢; tauto
      · simp only [List.mem_cons] at h ⊢; rcases h with h | h
        · tauto
        · have := ih h; tauto

theorem Memory.insert_sorted {m : Memory} {a : Nat} {b : Byte} (h : m.Pairwise fun x y => x.1 < y.1) :
    (m.insert a b).Pairwise fun x y => x.1 < y.1 := by
  induction m with
  | nil => simp [Memory.insert]
  | cons c m ih =>
    obtain ⟨k, v⟩ := c
    have hc := List.pairwise_cons.mp h
    simp only [Memory.insert]
    split
    · rename_i hlt
      refine List.pairwise_cons.mpr ⟨fun e he => ?_, h⟩
      rcases List.mem_cons.mp he with rfl | he
      · exact hlt
      · exact Nat.lt_trans hlt (hc.1 e he)
    · split
      · rename_i _ heq; subst heq; exact List.pairwise_cons.mpr ⟨fun e he => hc.1 e he, hc.2⟩
      · rename_i h1 h2
        refine List.pairwise_cons.mpr ⟨fun e he => ?_, ih hc.2⟩
        rcases Memory.mem_insert he with rfl | he
        · have : k < a := by omega
          exact this
        · exact hc.1 e he

/-- A write inside the address space keeps the canonical form. -/
theorem Memory.wf_write {m : Memory} {a : Nat} {b : Byte} (h : Memory.wf m) (ha : a < 2 ^ 32) :
    Memory.wf (m.write a b) := by
  simp only [Memory.write]
  split
  · exact ⟨h.1.filter _, fun e he => h.2 e (List.mem_of_mem_filter he)⟩
  · rename_i hb
    refine ⟨Memory.insert_sorted h.1, fun e he => ?_⟩
    rcases Memory.mem_insert he with rfl | he
    · exact ⟨ha, hb⟩
    · exact h.2 e he

/-- A canonical memory reads as unlisted below its first entry. -/
theorem Memory.read_eq_unlisted {m : Memory} {a : Nat} (h : ∀ e ∈ m, a < e.1) : m.read a = Config.unlistedByte := by
  induction m with
  | nil => rfl
  | cons c m ih =>
    have hc : a < c.1 := h c (by simp)
    rw [Memory.read, if_neg (by omega)]
    exact ih fun e he => h e (by simp [he])

/-- Canonical memories that read the same everywhere are equal data. -/
theorem Memory.ext_of_read {m n : Memory} (hm : Memory.wf m) (hn : Memory.wf n)
    (h : ∀ a, m.read a = n.read a) : m = n := by
  induction m generalizing n with
  | nil =>
    cases n with
    | nil => rfl
    | cons c n =>
      have := h c.1
      rw [Memory.read, Memory.read, if_pos rfl] at this
      exact absurd this.symm (hn.2 c (by simp)).2
  | cons d m ih =>
    cases n with
    | nil =>
      have := h d.1
      rw [Memory.read, Memory.read, if_pos rfl] at this
      exact absurd this (hm.2 d (by simp)).2
    | cons c n =>
      obtain ⟨hm1, hm2⟩ := List.pairwise_cons.mp hm.1
      obtain ⟨hn1, hn2⟩ := List.pairwise_cons.mp hn.1
      have hfst : d.1 = c.1 := by
        rcases Nat.lt_trichotomy d.1 c.1 with hlt | heq | hgt
        · have := h d.1
          rw [Memory.read, if_pos rfl, Memory.read_eq_unlisted (m := c :: n)] at this
          · exact absurd this (hm.2 d (by simp)).2
          · intro e he
            rcases List.mem_cons.mp he with rfl | he
            · exact hlt
            · exact Nat.lt_trans hlt (hn1 e he)
        · exact heq
        · have := h c.1
          rw [Memory.read_eq_unlisted (m := d :: m), Memory.read, if_pos rfl] at this
          · exact absurd this.symm (hn.2 c (by simp)).2
          · intro e he
            rcases List.mem_cons.mp he with rfl | he
            · exact hgt
            · exact Nat.lt_trans hgt (hm1 e he)
      have hsnd : d.2 = c.2 := by
        have := h d.1
        rwa [Memory.read, if_pos rfl, Memory.read, if_pos hfst.symm] at this
      have htail : m = n := by
        refine ih ⟨hm2, fun e he => hm.2 e (by simp [he])⟩ ⟨hn2, fun e he => hn.2 e (by simp [he])⟩ fun a => ?_
        by_cases ha : d.1 = a
        · rw [Memory.read_eq_unlisted fun e he => ha ▸ hm1 e he,
            Memory.read_eq_unlisted fun e he => (ha ▸ hfst) ▸ hn1 e he]
        · have := h a
          rwa [Memory.read, if_neg ha, Memory.read, if_neg (hfst ▸ ha)] at this
      rw [Prod.ext hfst hsnd, htail]

/-! ### Words -/

/-- The bytes of a word put together are the word. -/
@[simp] theorem wordOf_byteOf (v : Word) : wordOf (byteOf v 3) (byteOf v 2) (byteOf v 1) (byteOf v 0) = v := by
  unfold wordOf byteOf place
  ext k hk
  simp
  interval_cases k <;> simp

/-- The byte a stored word leaves at an address. -/
theorem Memory.read_storeWord (m : Memory) (o : ByteOrder) (a x : Nat) (v : Word) :
    (m.storeWord o a v).read x =
      if a ≤ x ∧ x < a + 4 then
        (match o with
          | .little => byteOf v (x - a)
          | .big => byteOf v (3 - (x - a)))
      else m.read x := by
  have hcases : x = a ∨ x = a + 1 ∨ x = a + 2 ∨ x = a + 3 ∨ ¬(a ≤ x ∧ x < a + 4) := by omega
  rcases hcases with rfl | rfl | rfl | rfl | h
  · cases o <;> simp [Memory.storeWord]
  · cases o <;> simp [Memory.storeWord]
  · cases o <;> simp [Memory.storeWord]
  · cases o <;> simp [Memory.storeWord]
  · rw [if_neg h]
    cases o <;> simp [Memory.storeWord, show a ≠ x by omega, show a + 1 ≠ x by omega,
      show a + 2 ≠ x by omega, show a + 3 ≠ x by omega]

/-- A stored word leaves every byte outside its four as it was. -/
theorem Memory.read_storeWord_outside (m : Memory) (o : ByteOrder) (a x : Nat) (v : Word)
    (h : x < a ∨ a + 4 ≤ x) : (m.storeWord o a v).read x = m.read x := by
  rw [Memory.read_storeWord, if_neg (by omega)]

/-- A word stored and loaded in one byte order is the word. -/
theorem Memory.loadWord_storeWord (m : Memory) (o : ByteOrder) (a : Nat) (v : Word) :
    (m.storeWord o a v).loadWord o a = v := by
  cases o <;> simp [Memory.loadWord, Memory.read_storeWord]

/-- A stored word leaves the words that share no byte with it as they were. -/
theorem Memory.loadWord_storeWord_outside (m : Memory) (o : ByteOrder) (a x : Nat) (v : Word)
    (h : x + 4 ≤ a ∨ a + 4 ≤ x) : (m.storeWord o a v).loadWord o x = m.loadWord o x := by
  cases o <;> simp only [Memory.loadWord] <;>
    rw [Memory.read_storeWord_outside _ _ _ _ _ (by omega), Memory.read_storeWord_outside _ _ _ _ _ (by omega),
      Memory.read_storeWord_outside _ _ _ _ _ (by omega), Memory.read_storeWord_outside _ _ _ _ _ (by omega)]

/-- Storing a word inside the address space keeps the canonical form. -/
theorem Memory.wf_storeWord {m : Memory} {o : ByteOrder} {a : Nat} {v : Word} (h : Memory.wf m)
    (ha : a + 3 < 2 ^ 32) : Memory.wf (m.storeWord o a v) := by
  cases o <;>
    exact Memory.wf_write (Memory.wf_write (Memory.wf_write (Memory.wf_write h (by omega)) (by omega)) (by omega)) ha

end Sys2Proof.Machine
end

