-- ==== Sys2Proof/Laws/State.lean ====
section
/-! SUPPORT. One lemma per field per update of State, so that no later proof unfolds a record update. -/

namespace Sys2Proof.Machine


/-! ### `writeArm` -/

@[simp] theorem State.writeArm_params (s : State) (r : ArmReg) (v : Word) : (s.writeArm r v).params = s.params := rfl
@[simp] theorem State.writeArm_pc (s : State) (r : ArmReg) (v : Word) : (s.writeArm r v).pc = s.pc := rfl
@[simp] theorem State.writeArm_armX (s : State) (r : ArmReg) (v : Word) : (s.writeArm r v).armX = s.armX.set r (some v) := rfl
@[simp] theorem State.writeArm_flagN (s : State) (r : ArmReg) (v : Word) : (s.writeArm r v).flagN = s.flagN := rfl
@[simp] theorem State.writeArm_flagZ (s : State) (r : ArmReg) (v : Word) : (s.writeArm r v).flagZ = s.flagZ := rfl
@[simp] theorem State.writeArm_flagC (s : State) (r : ArmReg) (v : Word) : (s.writeArm r v).flagC = s.flagC := rfl
@[simp] theorem State.writeArm_flagV (s : State) (r : ArmReg) (v : Word) : (s.writeArm r v).flagV = s.flagV := rfl
@[simp] theorem State.writeArm_mipsX (s : State) (r : ArmReg) (v : Word) : (s.writeArm r v).mipsX = s.mipsX := rfl
@[simp] theorem State.writeArm_mem (s : State) (r : ArmReg) (v : Word) : (s.writeArm r v).mem = s.mem := rfl
@[simp] theorem State.writeArm_draws (s : State) (r : ArmReg) (v : Word) : (s.writeArm r v).draws = s.draws := rfl
@[simp] theorem State.writeArm_events (s : State) (r : ArmReg) (v : Word) : (s.writeArm r v).events = s.events := rfl

/-! ### `jumpTo` -/

@[simp] theorem State.jumpTo_params (s : State) (t : Word) : (s.jumpTo t).params = s.params := rfl
@[simp] theorem State.jumpTo_pc (s : State) (t : Word) : (s.jumpTo t).pc = t := rfl
@[simp] theorem State.jumpTo_armX (s : State) (t : Word) : (s.jumpTo t).armX = s.armX := rfl
@[simp] theorem State.jumpTo_flagN (s : State) (t : Word) : (s.jumpTo t).flagN = s.flagN := rfl
@[simp] theorem State.jumpTo_flagZ (s : State) (t : Word) : (s.jumpTo t).flagZ = s.flagZ := rfl
@[simp] theorem State.jumpTo_flagC (s : State) (t : Word) : (s.jumpTo t).flagC = s.flagC := rfl
@[simp] theorem State.jumpTo_flagV (s : State) (t : Word) : (s.jumpTo t).flagV = s.flagV := rfl
@[simp] theorem State.jumpTo_mipsX (s : State) (t : Word) : (s.jumpTo t).mipsX = s.mipsX := rfl
@[simp] theorem State.jumpTo_mem (s : State) (t : Word) : (s.jumpTo t).mem = s.mem := rfl
@[simp] theorem State.jumpTo_draws (s : State) (t : Word) : (s.jumpTo t).draws = s.draws := rfl
@[simp] theorem State.jumpTo_events (s : State) (t : Word) : (s.jumpTo t).events = s.events := rfl

/-! ### `advance` -/

@[simp] theorem State.advance_params (s : State) : s.advance.params = s.params := rfl
@[simp] theorem State.advance_pc (s : State) : s.advance.pc = s.pc + 4 := rfl
@[simp] theorem State.advance_armX (s : State) : s.advance.armX = s.armX := rfl
@[simp] theorem State.advance_flagN (s : State) : s.advance.flagN = s.flagN := rfl
@[simp] theorem State.advance_flagZ (s : State) : s.advance.flagZ = s.flagZ := rfl
@[simp] theorem State.advance_flagC (s : State) : s.advance.flagC = s.flagC := rfl
@[simp] theorem State.advance_flagV (s : State) : s.advance.flagV = s.flagV := rfl
@[simp] theorem State.advance_mipsX (s : State) : s.advance.mipsX = s.mipsX := rfl
@[simp] theorem State.advance_mem (s : State) : s.advance.mem = s.mem := rfl
@[simp] theorem State.advance_draws (s : State) : s.advance.draws = s.draws := rfl
@[simp] theorem State.advance_events (s : State) : s.advance.events = s.events := rfl

/-! ### `setFlagsAdd` -/

@[simp] theorem State.setFlagsAdd_params (s : State) (a b r : Word) : (s.setFlagsAdd a b r).params = s.params := rfl
@[simp] theorem State.setFlagsAdd_pc (s : State) (a b r : Word) : (s.setFlagsAdd a b r).pc = s.pc := rfl
@[simp] theorem State.setFlagsAdd_armX (s : State) (a b r : Word) : (s.setFlagsAdd a b r).armX = s.armX := rfl
@[simp] theorem State.setFlagsAdd_flagN (s : State) (a b r : Word) : (s.setFlagsAdd a b r).flagN = some r.msb := rfl
@[simp] theorem State.setFlagsAdd_flagZ (s : State) (a b r : Word) : (s.setFlagsAdd a b r).flagZ = some (decide (r = 0)) := rfl
@[simp] theorem State.setFlagsAdd_flagC (s : State) (a b r : Word) : (s.setFlagsAdd a b r).flagC = some (decide (2 ^ 32 ≤ a.toNat + b.toNat)) := rfl
@[simp] theorem State.setFlagsAdd_flagV (s : State) (a b r : Word) : (s.setFlagsAdd a b r).flagV = some (a.msb == b.msb && r.msb != a.msb) := rfl
@[simp] theorem State.setFlagsAdd_mipsX (s : State) (a b r : Word) : (s.setFlagsAdd a b r).mipsX = s.mipsX := rfl
@[simp] theorem State.setFlagsAdd_mem (s : State) (a b r : Word) : (s.setFlagsAdd a b r).mem = s.mem := rfl
@[simp] theorem State.setFlagsAdd_draws (s : State) (a b r : Word) : (s.setFlagsAdd a b r).draws = s.draws := rfl
@[simp] theorem State.setFlagsAdd_events (s : State) (a b r : Word) : (s.setFlagsAdd a b r).events = s.events := rfl

/-! ### `writeMips`: only `$1` to `$31` can change -/

@[simp] theorem State.writeMips_params (s : State) (r : MipsReg) (v : Word) : (s.writeMips r v).params = s.params := by
  obtain ⟨_ | n, h⟩ := r <;> rfl
@[simp] theorem State.writeMips_pc (s : State) (r : MipsReg) (v : Word) : (s.writeMips r v).pc = s.pc := by
  obtain ⟨_ | n, h⟩ := r <;> rfl
@[simp] theorem State.writeMips_armX (s : State) (r : MipsReg) (v : Word) : (s.writeMips r v).armX = s.armX := by
  obtain ⟨_ | n, h⟩ := r <;> rfl
@[simp] theorem State.writeMips_flagN (s : State) (r : MipsReg) (v : Word) : (s.writeMips r v).flagN = s.flagN := by
  obtain ⟨_ | n, h⟩ := r <;> rfl
@[simp] theorem State.writeMips_flagZ (s : State) (r : MipsReg) (v : Word) : (s.writeMips r v).flagZ = s.flagZ := by
  obtain ⟨_ | n, h⟩ := r <;> rfl
@[simp] theorem State.writeMips_flagC (s : State) (r : MipsReg) (v : Word) : (s.writeMips r v).flagC = s.flagC := by
  obtain ⟨_ | n, h⟩ := r <;> rfl
@[simp] theorem State.writeMips_flagV (s : State) (r : MipsReg) (v : Word) : (s.writeMips r v).flagV = s.flagV := by
  obtain ⟨_ | n, h⟩ := r <;> rfl
@[simp] theorem State.writeMips_mem (s : State) (r : MipsReg) (v : Word) : (s.writeMips r v).mem = s.mem := by
  obtain ⟨_ | n, h⟩ := r <;> rfl
@[simp] theorem State.writeMips_draws (s : State) (r : MipsReg) (v : Word) : (s.writeMips r v).draws = s.draws := by
  obtain ⟨_ | n, h⟩ := r <;> rfl
@[simp] theorem State.writeMips_events (s : State) (r : MipsReg) (v : Word) : (s.writeMips r v).events = s.events := by
  obtain ⟨_ | n, h⟩ := r <;> rfl

/-! ### `writeBase`: only `r0` to `r14` can change -/

@[simp] theorem State.writeBase_params (s : State) (rn : ArmReg) (wb : Option Word) : (s.writeBase rn wb).params = s.params := by
  cases wb <;> rfl
@[simp] theorem State.writeBase_pc (s : State) (rn : ArmReg) (wb : Option Word) : (s.writeBase rn wb).pc = s.pc := by
  cases wb <;> rfl
@[simp] theorem State.writeBase_flagN (s : State) (rn : ArmReg) (wb : Option Word) : (s.writeBase rn wb).flagN = s.flagN := by
  cases wb <;> rfl
@[simp] theorem State.writeBase_flagZ (s : State) (rn : ArmReg) (wb : Option Word) : (s.writeBase rn wb).flagZ = s.flagZ := by
  cases wb <;> rfl
@[simp] theorem State.writeBase_flagC (s : State) (rn : ArmReg) (wb : Option Word) : (s.writeBase rn wb).flagC = s.flagC := by
  cases wb <;> rfl
@[simp] theorem State.writeBase_flagV (s : State) (rn : ArmReg) (wb : Option Word) : (s.writeBase rn wb).flagV = s.flagV := by
  cases wb <;> rfl
@[simp] theorem State.writeBase_mipsX (s : State) (rn : ArmReg) (wb : Option Word) : (s.writeBase rn wb).mipsX = s.mipsX := by
  cases wb <;> rfl
@[simp] theorem State.writeBase_mem (s : State) (rn : ArmReg) (wb : Option Word) : (s.writeBase rn wb).mem = s.mem := by
  cases wb <;> rfl
@[simp] theorem State.writeBase_draws (s : State) (rn : ArmReg) (wb : Option Word) : (s.writeBase rn wb).draws = s.draws := by
  cases wb <;> rfl
@[simp] theorem State.writeBase_events (s : State) (rn : ArmReg) (wb : Option Word) : (s.writeBase rn wb).events = s.events := by
  cases wb <;> rfl

/-! ### Reading registers and flags after an update -/

/-- A MIPS write is seen by a read of the same register, unless it is register 0. -/
theorem State.mipsValue_writeMips (s : State) (r q : MipsReg) (v : Word) :
    (s.writeMips r v).mipsValue q = if r = q ∧ r.val ≠ 0 then some v else s.mipsValue q := by
  obtain ⟨_ | n, hn⟩ := r
  · simp [State.writeMips]
  · obtain ⟨_ | k, hk⟩ := q
    · simp [State.mipsValue]
    · simp [State.writeMips, State.mipsValue, Vector.getElem_set]

@[simp] theorem State.mipsValue_jumpTo (s : State) (t : Word) (q : MipsReg) :
    (s.jumpTo t).mipsValue q = s.mipsValue q := by
  obtain ⟨_ | k, hk⟩ := q <;> rfl

@[simp] theorem State.mipsValue_advance (s : State) (q : MipsReg) : s.advance.mipsValue q = s.mipsValue q :=
  s.mipsValue_jumpTo _ q

/-- Register 0 always holds 0. -/
@[simp] theorem State.mipsValue_zero (s : State) : s.mipsValue 0 = some 0 := rfl

/-- The value of a MIPS register depends on the register file alone. -/
theorem State.mipsValue_congr {s t : State} (h : t.mipsX = s.mipsX) (q : MipsReg) : t.mipsValue q = s.mipsValue q := by
  obtain ⟨_ | k, hk⟩ := q
  · rfl
  · simp [State.mipsValue, h]

/-- An ARM write is seen by a read of the same register only. -/
theorem State.armX_writeArm (s : State) (r q : ArmReg) (v : Word) :
    (s.writeArm r v).armX[q] = if r = q then some v else s.armX[q] := by
  simp [Vector.getElem_set, Fin.ext_iff]

/-- The value of a flag depends on the four flag fields alone. -/
theorem State.flag_congr {s t : State} (hn : t.flagN = s.flagN) (hz : t.flagZ = s.flagZ)
    (hc : t.flagC = s.flagC) (hv : t.flagV = s.flagV) (f : Flag) : t.flag f = s.flag f := by
  cases f <;> assumption

/-- Every flag holds a value once the flags have been set (R173). -/
theorem State.flag_setFlagsAdd_isSome (s : State) (a b r : Word) (f : Flag) :
    ((s.setFlagsAdd a b r).flag f).isSome := by
  cases f <;> rfl

end Sys2Proof.Machine
end

