-- ==== Sys2Proof/Laws/Ops.lean ====
section
/-! SUPPORT. One lemma per shared operation that says once everything it can do. -/

namespace Sys2Proof.Machine

/-! ### Sequencing -/

@[simp] theorem andThen_next {α β : Type} (a : α) (f : α → Res β) : andThen (.next a) f = f a := rfl

@[simp] theorem andThen_fault {α β : Type} (r : Fault) (f : α → Res β) :
    andThen (.fault r) f = .fault r := rfl

@[simp] theorem andThen_refused {α β : Type} (r : Refusal) (f : α → Res β) :
    andThen (.refused r) f = .refused r := rfl

/-- A sequence answers a value exactly when both parts do. -/
theorem andThen_eq_next {α β : Type} {o : Res α} {f : α → Res β} {b : β} :
    andThen o f = .next b ↔ ∃ a, o = .next a ∧ f a = .next b := by
  cases o <;> simp

/-- A sequence faults exactly when its first part does, or its first part answers and its second faults. -/
theorem andThen_eq_fault {α β : Type} {o : Res α} {f : α → Res β} {r : Fault} :
    andThen o f = .fault r ↔ o = .fault r ∨ ∃ a, o = .next a ∧ f a = .fault r := by
  cases o <;> simp

/-- A sequence refuses exactly when its first part does, or its first part answers and its second refuses. -/
theorem andThen_eq_refused {α β : Type} {o : Res α} {f : α → Res β} {r : Refusal} :
    andThen o f = .refused r ↔ o = .refused r ∨ ∃ a, o = .next a ∧ f a = .refused r := by
  cases o <;> simp

/-! ### Registers and flags -/

theorem readArm_of_some {s : State} {r : ArmReg} {v : Word} (h : s.armX[r] = some v) : readArm s r = .next v := by
  simp [readArm, h]

theorem readArm_of_none {s : State} {r : ArmReg} (h : s.armX[r] = none) :
    readArm s r = .fault (.unwrittenRegister s.pc (.armReg r)) := by
  simp [readArm, h]

theorem readArm_eq_next {s : State} {r : ArmReg} {v : Word} : readArm s r = .next v ↔ s.armX[r] = some v := by
  unfold readArm; split <;> simp_all

theorem readMips_of_some {s : State} {r : MipsReg} {v : Word} (h : s.mipsValue r = some v) :
    readMips s r = .next v := by
  simp [readMips, h]

theorem readMips_of_none {s : State} {r : MipsReg} (h : s.mipsValue r = none) :
    readMips s r = .fault (.unwrittenRegister s.pc (.mipsReg r)) := by
  simp [readMips, h]

theorem readMips_eq_next {s : State} {r : MipsReg} {v : Word} : readMips s r = .next v ↔ s.mipsValue r = some v := by
  unfold readMips; split <;> simp_all

theorem readFlag_of_some {s : State} {f : Flag} {b : Bool} (h : s.flag f = some b) : readFlag s f = .next b := by
  simp [readFlag, h]

theorem readFlag_of_none {s : State} {f : Flag} (h : s.flag f = none) :
    readFlag s f = .fault (.unwrittenRegister s.pc (.flag f)) := by
  simp [readFlag, h]

theorem readFlag_eq_next {s : State} {f : Flag} {b : Bool} : readFlag s f = .next b ↔ s.flag f = some b := by
  unfold readFlag; split <;> simp_all

/-! ### Conditions -/

/-- What a conditional instruction does: its body when the condition passes, only the pc when it fails. -/
theorem whenPassed_eq_next {c : Cond} {s t : State} {body : Res State} :
    whenPassed c s body = .next t ↔
      (condPassed c s = .next true ∧ body = .next t) ∨ (condPassed c s = .next false ∧ t = s.advance) := by
  unfold whenPassed
  cases condPassed c s with
  | next b => cases b <;> simp [eq_comm]
  | fault r => simp
  | refused r => simp

theorem whenPassed_of_true {c : Cond} {s : State} (h : condPassed c s = .next true) (body : Res State) :
    whenPassed c s body = body := by
  simp [whenPassed, h]

theorem whenPassed_of_false {c : Cond} {s : State} (h : condPassed c s = .next false) (body : Res State) :
    whenPassed c s body = .next s.advance := by
  simp [whenPassed, h]

/-! ### Memory primitives -/

/-- What a word read that answers can do: a word of memory and no change, or a draw (R57, R58). -/
theorem memRead_cases {s t : State} {addr v : Word} (h : memRead s addr = .next (v, t)) :
    addr.toNat % 4 = 0 ∧
      ((wordInside s.params.ioRegions addr = true ∧ v = Config.draw s.draws ∧ t = { s with draws := s.draws + 1 }) ∨
        (wordInside s.params.ioRegions addr = false ∧ wordInside s.params.dataRegions addr = true ∧
          v = s.mem.loadWord s.params.byteOrder addr.toNat ∧ t = s)) := by
  unfold memRead at h
  split at h
  · cases h
  · rename_i h1
    split at h
    · cases h
    · rename_i h2
      split at h
      · rename_i h3
        cases h
        exact ⟨by omega, .inl ⟨h3, rfl, rfl⟩⟩
      · rename_i h3
        cases h
        simp only [Bool.not_eq_true', Bool.not_eq_false, Bool.or_eq_true] at h2
        exact ⟨by omega, .inr ⟨by simpa using h3, by simpa [h3] using h2, rfl, rfl⟩⟩

/-- What a word write that answers can do: an event, or a word of memory (R57, R58). -/
theorem memWrite_cases {s t : State} {addr v : Word} (h : memWrite s addr v = .next t) :
    addr.toNat % 4 = 0 ∧ wordTouchesText s.params addr = false ∧
      ((wordInside s.params.ioRegions addr = true ∧ t = { s with events := s.events ++ [⟨addr, v⟩] }) ∨
        (wordInside s.params.ioRegions addr = false ∧ wordInside s.params.dataRegions addr = true ∧
          t = { s with mem := s.mem.storeWord s.params.byteOrder addr.toNat v })) := by
  unfold memWrite at h
  split at h
  · cases h
  · rename_i h1
    split at h
    · cases h
    · rename_i h2
      split at h
      · cases h
      · rename_i h3
        refine ⟨by omega, by simpa using h2, ?_⟩
        split at h
        · rename_i h4
          cases h
          exact .inl ⟨h4, rfl⟩
        · rename_i h4
          cases h
          simp only [Bool.not_eq_true', Bool.not_eq_false, Bool.or_eq_true] at h3
          exact .inr ⟨by simpa using h4, by simpa [h4] using h3, rfl⟩

/-- A word of plain memory is read as it stands (R57). -/
theorem memRead_data {s : State} {addr : Word} (ha : addr.toNat % 4 = 0)
    (hd : wordInside s.params.dataRegions addr = true) (hi : wordInside s.params.ioRegions addr = false) :
    memRead s addr = .next (s.mem.loadWord s.params.byteOrder addr.toNat, s) := by
  simp [memRead, ha, hd, hi]

/-- A device word is a draw (R58). -/
theorem memRead_io {s : State} {addr : Word} (ha : addr.toNat % 4 = 0)
    (hi : wordInside s.params.ioRegions addr = true) :
    memRead s addr = .next (Config.draw s.draws, { s with draws := s.draws + 1 }) := by
  simp [memRead, ha, hi, drawWord]

/-- A word of plain memory is stored (R57). -/
theorem memWrite_data {s : State} {addr v : Word} (ha : addr.toNat % 4 = 0)
    (ht : wordTouchesText s.params addr = false) (hd : wordInside s.params.dataRegions addr = true)
    (hi : wordInside s.params.ioRegions addr = false) :
    memWrite s addr v = .next { s with mem := s.mem.storeWord s.params.byteOrder addr.toNat v } := by
  simp [memWrite, ha, ht, hd, hi]

/-- A store to a device is recorded (R58). -/
theorem memWrite_io {s : State} {addr v : Word} (ha : addr.toNat % 4 = 0)
    (ht : wordTouchesText s.params addr = false) (hi : wordInside s.params.ioRegions addr = true) :
    memWrite s addr v = .next { s with events := s.events ++ [⟨addr, v⟩] } := by
  simp [memWrite, ha, ht, hi]

/-- An aligned address leaves room for its word below 2^32 (R57: "`addr + 3` cannot wrap"). -/
theorem aligned_add_three_lt {addr : Word} (h : addr.toNat % 4 = 0) : addr.toNat + 3 < 2 ^ 32 := by
  have := addr.isLt
  omega

end Sys2Proof.Machine
end

