-- ==== Sys2Proof/Laws/Exec.lean ====
section
/-! SUPPORT. What the bodies the instructions share can do, and the step taken apart. -/

namespace Sys2Proof.Machine

/-- What an addressing mode that answers gives: the base and the offset read, put together as the mode's
indexing says (R190, R191). -/
theorem dtAddress_eq_next {s : State} {rn : ArmReg} {m : DtMode} {x : Word × Option Word} :
    dtAddress s rn m = .next x ↔
      ∃ base off, s.armX[rn] = some base ∧ readOffset s m = .next off ∧ x = indexed (indexingOf m) base off := by
  simp only [dtAddress, andThen_eq_next, readArm_eq_next, Host.Outcome.next.injEq]
  constructor
  · rintro ⟨b, hb, o, ho, rfl⟩; exact ⟨b, o, hb, ho, rfl⟩
  · rintro ⟨b, o, hb, ho, rfl⟩; exact ⟨b, hb, o, ho, rfl⟩

/-- What a load that answers does (R191). -/
theorem loadBody_eq_next {s t : State} {rd rn : ArmReg} {m : DtMode} (h : loadBody s rd rn m = .next t) :
    writebackClash rd rn m = false ∧
      ∃ x v u, dtAddress s rn m = .next x ∧ memRead s x.1 = .next (v, u) ∧
        t = ((u.writeBase rn x.2).writeArm rd v).advance := by
  unfold loadBody at h
  split at h
  · cases h
  · rename_i hc
    obtain ⟨x, hx, h⟩ := andThen_eq_next.mp h
    obtain ⟨y, hy, h⟩ := andThen_eq_next.mp h
    exact ⟨by simpa using hc, x, y.1, y.2, hx, hy, (Host.Outcome.next.inj h).symm⟩

/-- What a store that answers does (R201). -/
theorem storeBody_eq_next {s t : State} {rd rn : ArmReg} {m : DtMode} (h : storeBody s rd rn m = .next t) :
    writebackClash rd rn m = false ∧
      ∃ x v u, dtAddress s rn m = .next x ∧ s.armX[rd] = some v ∧ memWrite s x.1 v = .next u ∧
        t = (u.writeBase rn x.2).advance := by
  unfold storeBody at h
  split at h
  · cases h
  · rename_i hc
    obtain ⟨x, hx, h⟩ := andThen_eq_next.mp h
    obtain ⟨v, hv, h⟩ := andThen_eq_next.mp h
    obtain ⟨u, hu, h⟩ := andThen_eq_next.mp h
    exact ⟨by simpa using hc, x, v, u, hx, readArm_eq_next.mp hv, hu, (Host.Outcome.next.inj h).symm⟩

/-- What a signed addition that answers gives (R152, R153). -/
theorem addSigned_eq_next {s : State} {a b r : Word} :
    addSigned s a b = .next r ↔
      -2 ^ 31 ≤ a.toInt + b.toInt ∧ a.toInt + b.toInt ≤ 2 ^ 31 - 1 ∧ r = BitVec.ofInt 32 (a.toInt + b.toInt) := by
  simp only [addSigned]
  split
  · simp only [reduceCtorEq, false_iff]; omega
  · simp only [Host.Outcome.next.injEq]
    constructor
    · rintro rfl; exact ⟨by omega, by omega, rfl⟩
    · rintro ⟨-, -, rfl⟩; rfl

/-- A step that answers fetched a slot, read an instruction from it and executed it (R10). -/
theorem step_eq_next {s t : State} :
    step s = .next t ↔ ∃ x i, fetch s = .next x ∧ readSlot s x = .next i ∧ exec i s = .next t := by
  simp only [step, andThen_eq_next]
  constructor
  · rintro ⟨x, hx, i, hi, h⟩; exact ⟨x, i, hx, hi, h⟩
  · rintro ⟨x, i, hx, hi, h⟩; exact ⟨x, hx, i, hi, h⟩

/-- A fetch that answers passed its three checks (R54). -/
theorem fetch_eq_next {s : State} {x : Slot} (h : fetch s = .next x) :
    s.pc.toNat % 4 = 0 ∧ s.pc ≠ endAddress s.params ∧ inText s.params s.pc.toNat = true ∧
      programSlot s.params.text ((s.pc.toNat - s.params.textBase.toNat) / 4) = some x := by
  unfold fetch at h
  split at h
  · cases h
  · split at h
    · cases h
    · split at h
      · cases h
      · split at h
        · cases h
          rename_i h1 h2 h3 _ h4
          exact ⟨by omega, h2, by simpa using h3, h4⟩
        · cases h

/-- The instruction a slot holds is one of the run's machine (R3). -/
theorem readSlot_isa {s : State} {x : Slot} {i : Instr} (h : readSlot s x = .next i) : i.isa = s.params.isa := by
  cases x with
  | word w =>
    simp only [readSlot] at h
    cases hd : decode s.params w with
    | ok j => rw [hd] at h; cases h; exact decode_isa hd
    | reservedCondition => rw [hd] at h; cases h
    | illegalInstruction => rw [hd] at h; cases h
    | refusedR15 => rw [hd] at h; cases h
    | refusedOperandForm => rw [hd] at h; cases h
  | term j =>
    simp only [readSlot] at h
    split at h
    · rename_i e
      cases h
      simp only [isaOk, Bool.and_eq_true, decide_eq_true_eq] at e
      exact e.1
    · cases h

/-- An offset register that holds no value makes the mode's offset fault (R33). -/
theorem readOffset_of_none {s : State} {m : DtMode} {rm : ArmReg} (h : offsetReg m = some rm)
    (hn : s.armX[rm] = none) : readOffset s m = .fault (.unwrittenRegister s.pc (.armReg rm)) := by
  cases m with
  | immOffset => cases h
  | indexed m =>
    cases m <;> simp only [offsetReg, reduceCtorEq, Option.some.injEq] at h <;> subst h <;>
      simp [readOffset, readShifted, readArm_of_none hn]

end Sys2Proof.Machine
end

