-- ==== Sys2Proof/Laws/PerInstr.lean ====
section
/-! SUPPORT. Facts about every instruction as syntax, one lemma per constructor. -/

namespace Sys2Proof.Laws

/-- Every ARM word begins with its instruction's condition (R90). -/
def CondField.Statement (i : Instr) : Prop :=
  ∀ (p : Params) (w : Word) (c : Cond), encode p i = some w → i.cond? = some c → w.extractLsb' 28 4 = c.bits

/-- The word of a transfer begins with its condition. -/
theorem condField_encodeTransfer {p : Params} {op : DtOp} {c : Cond} {rd rn : ArmReg} {m : DtMode} {w : Word}
    (h : encodeTransfer p op c rd rn m = some w) : w.extractLsb' 28 4 = c.bits := by
  unfold encodeTransfer at h
  split at h
  · cases h; exact (fields_encodeDt ..).1
  · cases h

theorem CondField.armAddReg (c : Cond) (s : Bool) (rd rn rm : ArmReg) (h : BitVec 5) :
    CondField.Statement (.armAddReg c s rd rn rm h) := by
  rintro p w _ ⟨⟩ ⟨⟩; exact (fields_encodeDp ..).1

theorem CondField.armAddImm (c : Cond) (s : Bool) (rd rn : ArmReg) (imm : BitVec 12) :
    CondField.Statement (.armAddImm c s rd rn imm) := by
  rintro p w _ ⟨⟩ ⟨⟩; exact (fields_encodeDp ..).1

theorem CondField.armLdrImm (c : Cond) (rd rn : ArmReg) (off : BitVec 12) :
    CondField.Statement (.armLdrImm c rd rn off) := by
  rintro p w _ h ⟨⟩
  simp only [encode] at h
  exact condField_encodeTransfer h

theorem CondField.armB (c : Cond) (imm : BitVec 24) : CondField.Statement (.armB c imm) := by
  rintro p w _ ⟨⟩ ⟨⟩; exact (fields_encodeBr ..).1

theorem CondField.armBl (c : Cond) (imm : BitVec 24) : CondField.Statement (.armBl c imm) := by
  rintro p w _ h ⟨⟩
  obtain ⟨f, -, rfl⟩ := Option.map_eq_some_iff.mp h
  exact (fields_encodeBr ..).1

theorem CondField.armLdrIndexed (c : Cond) (rd rn : ArmReg) (m : IndexedMode) :
    CondField.Statement (.armLdrIndexed c rd rn m) := by
  rintro p w _ h ⟨⟩
  simp only [encode] at h
  exact condField_encodeTransfer h

theorem CondField.armStr (c : Cond) (rd rn : ArmReg) (m : DtMode) :
    CondField.Statement (.armStr c rd rn m) := by
  rintro p w _ h ⟨⟩
  simp only [encode] at h
  exact condField_encodeTransfer h

theorem CondField.mipsAdd (rd rs rt : MipsReg) : CondField.Statement (.mipsAdd rd rs rt) := by
  rintro p w _ _ ⟨⟩

theorem CondField.mipsAddi (rt rs : MipsReg) (imm : BitVec 16) : CondField.Statement (.mipsAddi rt rs imm) := by
  rintro p w _ _ ⟨⟩

theorem CondField.mipsLw (rt rs : MipsReg) (imm : BitVec 16) : CondField.Statement (.mipsLw rt rs imm) := by
  rintro p w _ _ ⟨⟩

theorem CondField.mipsSw (rt rs : MipsReg) (imm : BitVec 16) : CondField.Statement (.mipsSw rt rs imm) := by
  rintro p w _ _ ⟨⟩

theorem CondField.mipsBeq (rs rt : MipsReg) (imm : BitVec 16) : CondField.Statement (.mipsBeq rs rt imm) := by
  rintro p w _ _ ⟨⟩

theorem CondField.mipsJ (target : BitVec 26) : CondField.Statement (.mipsJ target) := by
  rintro p w _ _ ⟨⟩

end Sys2Proof.Laws
end

