-- ==== Sys2Proof/Tests/Slice0.lean ====
section
/-! SUPPORT. Tests: the vectors of 95_test_vectors.md (each test names its own), the checks of `WellFormed` with a term
or a parameter each refuses, and for every statement with hypotheses a state and operands that meet them. -/

namespace Sys2Proof.Tests

open Sys2Proof.Machine

/-! ### Small states -/

/-- Text of one word at 0, data at 0x1000 to 0x1FFF, a device at 0x8000. -/
def params (isa : Isa) : Params :=
  { Params.standard with
    isa := isa, textBase := 0, text := .words [0xE0815002], dataRegions := [⟨0x1000, 0x1FFF⟩], ioRegions := [⟨0x8000, 0x8003⟩] }

/-- A launch at pc 0 with every register and flag unwritten. -/
def bare (p : Params) : State :=
  .launch p
    { pc := 0, armX := Vector.replicate 15 none, flagN := none, flagZ := none, flagC := none, flagV := none,
      mipsX := Vector.replicate 31 none, mem := [] }

def arm : State := bare (params .arm)

def mips : State := bare (params .mips)

/-- The ARM and the MIPS machine with a text of one word or of one term. -/
def armWord (w : Word) : State := bare { params .arm with text := .words [w] }

def mipsWord (w : Word) : State := bare { params .mips with text := .words [w] }

def armTerm (i : Instr) : State := bare { params .arm with text := .terms [i] }

def mipsTerm (i : Instr) : State := bare { params .mips with text := .terms [i] }

def setA (s : State) (l : List (ArmReg × Word)) : State := l.foldl (fun t e => t.writeArm e.1 e.2) s

def setM (s : State) (l : List (MipsReg × Word)) : State := l.foldl (fun t e => t.writeMips e.1 e.2) s

def setF (s : State) (n z c v : Bool) : State :=
  { s with flagN := some n, flagZ := some z, flagC := some c, flagV := some v }

def setW (s : State) (a : Nat) (v : Word) : State := { s with mem := s.mem.storeWord s.params.byteOrder a v }

/-- The memory of section 2.6, and its base register. -/
def array : State :=
  setA (setW (setW (setW (setW arm 0x1000 0xAA) 0x1004 6) 0x1008 5) 0x100C 9) [(0, 0x1000)]

def next? (o : Res State) : Option State := match o with | .next t => some t | .fault _ => none | .refused _ => none

def fault? (o : Res State) : Option Fault := match o with | .next _ => none | .fault r => some r | .refused _ => none

def refused? (o : Res State) : Option Refusal := match o with | .next _ => none | .fault _ => none | .refused r => some r

/-- Parameters with every OPEN encoding set: BL by 13 (R99), two loads and a store by values of the test's own. -/
def openParams : Params :=
  { params .arm with
    armBlField4 := some 13, armDtOpcode := [(⟨.ldr, .m6⟩, 56), (⟨.ldr, .m7⟩, 57), (⟨.ldr, .m9⟩, 8), (⟨.str, .m5⟩, 16)] }

/-! ### `WellFormed` refuses an ill-formed term, one for each check -/

theorem test_wf_accepts : WellFormed Params.standard (.armAddImm .al true 0 1 255) = true := by decide

theorem test_wf_isa : isaOk Params.standard (.mipsAdd 1 2 3) = false ∧ WellFormed Params.standard (.mipsAdd 1 2 3) = false := by decide

theorem test_wf_gate :
    let p := { Params.standard with isa := .mips, mipsRepresentativeSet := false }
    gateOk p (.mipsJ 0) = false ∧ WellFormed p (.mipsJ 0) = false := by decide

theorem test_wf_cond : condOk (.armB .nv 0) = false ∧ WellFormed Params.standard (.armB .nv 0) = false := by decide

theorem test_wf_imm :
    immOk Params.standard (.armAddImm .al false 0 1 256) = false ∧
      WellFormed Params.standard (.armAddImm .al false 0 1 256) = false := by decide

theorem test_params_ok : openParams.wf = true ∧ Params.standard.wf = true := by decide

theorem test_params_dtMap :
    Params.dtMapOk { Params.standard with armDtOpcode := [(⟨.str, .m5⟩, 24)] } = false ∧
      Params.dtMapOk { Params.standard with armDtOpcode := [(⟨.ldr, .m5⟩, 25)] } = false ∧
      Params.dtMapOk { Params.standard with armDtOpcode := [(⟨.ldr, .m6⟩, 1), (⟨.ldr, .m7⟩, 1)] } = false := by decide

theorem test_params_blField :
    Params.blFieldOk { Params.standard with armBlField4 := some 12 } = false ∧
      Params.blFieldOk { Params.standard with armBlField4 := some 7 } = false := by decide

theorem test_params_map :
    Params.mapOk { Params.standard with textBase := 2 } = false ∧
      Params.mapOk { Params.standard with textBase := 0xFFFFFFFC, text := .words [0, 0] } = false ∧
      Params.mapOk { Params.standard with ioRegions := [⟨0x10, 0x13⟩] } = false ∧
      Params.mapOk { Params.standard with textBase := 0, text := .words [0] } = false ∧
      Params.mapOk { Params.standard with ioRegions := [⟨0x80000000, 0x80000003⟩], text := .words [0] } = false := by decide

/-! ### Decoding: words written out from the encodings of R86 to R100 and R109 -/

/-- D-A1, D-A4, D-A5, D-A7, D-A8: `1110 00 0 0100 0 0001 0101 000000000010` and its variants. -/
theorem test_decode_armAddReg :
    decodeArm (params .arm) 0b1110_00_0_0100_0_0001_0101_00000_00_0_0010#32 = .ok (.armAddReg .al false 5 1 2 0) ∧
      decodeArm (params .arm) 0b1110_00_0_0100_0_0000_0010_00010_00_0_0001#32 = .ok (.armAddReg .al false 2 0 1 2) ∧
      decodeArm (params .arm) 0xE0810F82 = .ok (.armAddReg .al false 0 1 2 31) ∧
      decodeArm (params .arm) 0xE0911002 = .ok (.armAddReg .al true 1 1 2 0) ∧
      decodeArm (params .arm) 0x00815002 = .ok (.armAddReg .eq false 5 1 2 0) := by decide

/-- D-A2, D-A6, D-A16. -/
theorem test_decode_armAddImm :
    decodeArm (params .arm) 0b1110_00_1_0100_0_0000_0010_000000000101#32 = .ok (.armAddImm .al false 2 0 5) ∧
      decodeArm (params .arm) 0xE28100FF = .ok (.armAddImm .al false 0 1 255) ∧
      decodeArm { params .arm with armImm12Mode := .zext12 } 0xE2810F01 = .ok (.armAddImm .al false 0 1 0xF01) := by decide

/-- D-A9, D-A10, D-A11. -/
theorem test_decode_armLdrImm :
    decodeArm (params .arm) 0b1110_01_011000_0011_0101_000000100000#32 = .ok (.armLdrImm .al 5 3 32) ∧
      decodeArm (params .arm) 0xE5802008 = .ok (.armLdrImm .al 2 0 8) ∧
      decodeArm (params .arm) 0xE5801FFF = .ok (.armLdrImm .al 1 0 4095) := by decide

/-- D-A12, D-A13. -/
theorem test_decode_armB :
    decodeArm (params .arm) 0b1110_1100_000000000000000000000000#32 = .ok (.armB .al 0) ∧
      decodeArm (params .arm) 0x1CFFFFFC = .ok (.armB .ne 0xFFFFFC) := by decide

/-- D-A23: with `ARM_BL_FIELD4 = 13` the word is `BL` with displacement 0. -/
theorem test_decode_armBl : decodeArm openParams 0b1110_1101_000000000000000000000000#32 = .ok (.armBl .al 0) := by decide

/-- R97, R98: the layouts of OPEN entries that the parameters set. -/
theorem test_decode_armLdrIndexed :
    decodeArm openParams 0b1110_01_111000_0000_0010_00000_00_0_0001#32 = .ok (.armLdrIndexed .al 2 0 (.regOffset 1)) ∧
      decodeArm openParams 0b1110_01_111001_0000_0010_00010_00_0_0001#32 = .ok (.armLdrIndexed .al 2 0 (.scaledOffset 1 2)) ∧
      decodeArm openParams 0b1110_01_001000_0000_0010_000000000100#32 = .ok (.armLdrIndexed .al 2 0 (.immPost 4)) := by decide

theorem test_decode_armStr :
    decodeArm openParams 0b1110_01_010000_0011_0101_000000000100#32 = .ok (.armStr .al 5 3 (.immOffset 4)) := by decide

/-- D-M6, D-I6. -/
theorem test_decode_mipsAdd :
    decodeMips (params .mips) 0b000000_01001_01010_01000_00000_100000#32 = .ok (.mipsAdd 8 9 10) ∧
      decodeMips (params .mips) 0x012A0020 = .ok (.mipsAdd 0 9 10) := by decide

/-- D-I9. -/
theorem test_decode_mipsAddi :
    decodeMips (params .mips) 0b001000_01000_01000_1111111111111111#32 = .ok (.mipsAddi 8 8 0xFFFF) := by decide

/-- D-M7, D-I14. -/
theorem test_decode_mipsLw :
    decodeMips (params .mips) 0b100011_01000_01010_0000000000100000#32 = .ok (.mipsLw 10 8 32) ∧
      decodeMips (params .mips) 0x8C8AFFFC = .ok (.mipsLw 10 4 0xFFFC) := by decide

/-- D-I18. -/
theorem test_decode_mipsSw :
    decodeMips (params .mips) 0b101011_00101_01001_0000000000000000#32 = .ok (.mipsSw 9 5 0) := by decide

/-- Program P4 at 0x18. -/
theorem test_decode_mipsBeq :
    decodeMips (params .mips) 0b000100_01000_00000_0000000000000001#32 = .ok (.mipsBeq 8 0 1) := by decide

/-- D-M8. -/
theorem test_decode_mipsJ :
    decodeMips (params .mips) 0b000010_00000100000000000000000010#32 = .ok (.mipsJ 0x0100002) := by decide

/-- D-M2, D-M4. -/
theorem test_fieldsMips :
    fieldsMips 0x8D0A0020 = ⟨35, 8, 10, 0, 0, 32, 0x0020, 0x10A0020⟩ ∧
      fieldsMips 0xFFFFFFFF = ⟨63, 31, 31, 31, 31, 63, 0xFFFF, 0x3FFFFFF⟩ := by decide

/-- Every other encoder, on the same words. -/
theorem test_encode :
    encode openParams (.armAddReg .al false 2 0 1 2) = some 0xE0802101 ∧
      encode openParams (.armLdrIndexed .al 2 0 (.scaledOffset 1 2)) = some 0xE7902101 ∧
      encode openParams (.armBl .al 0) = some 0xED000000 ∧
      encode openParams (.armStr .al 5 3 (.indexed (.regPost 1))) = none ∧
      encode openParams (.mipsAdd 9 9 10) = some 0x012A4820 ∧ encode openParams (.mipsJ 2) = some 0x08000002 := by decide

/-- D-A14 to D-A24. -/
theorem test_decode_arm_refusals :
    decodeArm (params .arm) 0xE0415002 = .illegalInstruction ∧
      ([0xE081F002#32, 0xE08F5002, 0xE081500F, 0xE583F020, 0xE081501F].all fun w =>
        decodeArm (params .arm) w = .refusedR15) = true ∧
      ([0xE2810F01#32, 0xE0815012, 0xE0815022].all fun w => decodeArm (params .arm) w = .refusedOperandForm) = true ∧
      ([0xF0815002#32, 0xF081F012].all fun w => decodeArm (params .arm) w = .reservedCondition) = true ∧
      ([0xE8000000#32, 0xE5935020, 0xEA000000, 0xEB000000, 0xED000000, 0x00000000, 0xE041F002].all fun w =>
        decodeArm (params .arm) w = .illegalInstruction) = true := by decide

/-- D-M9 to D-M13, and the closed gate. -/
theorem test_decode_mips_refusals :
    ([0x00000000#32, 0x012A4822, 0x0C000000, 0xFFFFFFFF].all fun w =>
        decodeMips (params .mips) w = .illegalInstruction) = true ∧
      decodeMips (params .mips) 0x012A4860 = .refusedOperandForm ∧
      decodeMips { params .mips with mipsRepresentativeSet := false } 0x012A4020 = .illegalInstruction := by decide

/-- The table's words, each read by the decoder of its own machine. -/
theorem test_decodeTableWord :
    decodeTableWord 32 0xE0815002 = some (.armAddReg .al false 5 1 2 0) ∧ decodeTableWord 32 0x012A4020 = some (.mipsAdd 8 9 10) ∧
      decodeTableWord 32 0xFFFFFFFF = none := by decide

/-! ### One step of each instruction -/

/-- D-F9 (S = 0 leaves the flags). -/
theorem test_armAddReg_sum :
    (next? (step (setF (setA (armWord 0xE0815002) [(1, 7), (2, 0x20)]) true false true false))).map
        (fun t => (t.armX[5], t.pc, t.flagN, t.flagZ)) =
      some (some 0x27, 4, some true, some false) := by decide

/-- D-F1, D-F2, D-F3: the result and NZCV. -/
theorem test_armAddReg_flags :
    (([(0x00000001, 0xFFFFFFFF), (0x7FFFFFFF, 0x00000001), (0x80000000, 0x80000000)] : List (Word × Word)).map fun e =>
        (next? (exec (.armAddReg .al true 1 1 2 0) (setA arm [(1, e.1), (2, e.2)]))).map fun t =>
          (t.armX[1], [t.flagN, t.flagZ, t.flagC, t.flagV])) =
      [some (some 0, [some false, some true, some true, some false]),
        some (some 0x80000000, [some true, some false, some false, some true]),
        some (some 0, [some false, some true, some true, some true])] := by decide

/-- D-F11; and D-A16's operand under `rot8`. -/
theorem test_armAddImm_sum :
    (next? (exec (.armAddImm .al false 3 3 0) (setA arm [(3, 9)]))).map (fun t => (t.armX[3], t.pc)) = some (some 9, 4) ∧
      imm12Value .rot8 0xF01 = some 4 := by decide

/-- D-F12, D-F14: a failed condition reads no register; an unwritten flag faults. -/
theorem test_condition_first :
    (next? (exec (.armAddReg .eq false 5 1 2 0) (setF arm false false false false))).map (fun t => (t.armX[5], t.pc)) =
        some (none, 4) ∧
      fault? (exec (.armAddReg .eq false 5 1 2 0) arm) = some (.unwrittenRegister 0 (.flag .z)) := by decide

/-- D-O6, D-O7: the shifter. -/
theorem test_shiftLeft : shiftLeft 0x40000001 2 = 4 ∧ shiftLeft 0xFFFFFFFF 31 = 0x80000000 := by decide

/-- D-L1, D-L3. -/
theorem test_armLdrImm :
    (next? (step { array with params := (armWord 0xE5802008).params })).map (fun t => (t.armX[2], t.armX[0])) =
        some (some 5, some 0x1000) ∧
      (next? (exec (.armLdrImm .al 0 0 4) array)).map (fun t => t.armX[0]) = some (some 6) := by decide

/-- D-L14, D-L15. -/
theorem test_armLdrImm_faults :
    fault? (exec (.armLdrImm .al 2 0 2) array) = some (.misalignedAccess 0 0x1002) ∧
      fault? (exec (.armLdrImm .al 2 0 0xFFF) (setA array [(0, 0x1001)])) = some (.unmappedAccess 0 0x2000) := by decide

/-- D-L4 to D-L11: the value loaded and the base after, mode by mode. -/
theorem test_armLdrIndexed :
    (([(.regOffset 1, 8), (.scaledOffset 1 2, 3), (.immPre 4, 0), (.immPost 4, 0), (.regPre 1, 8),
          (.scaledPre 1 2, 3), (.regPost 1, 8), (.regPost 1, 0xFFFFFFFC)] : List (IndexedMode × Word)).map fun e =>
        (next? (exec (.armLdrIndexed .al 2 0 e.1) (setA array [(1, e.2)]))).map fun t => (t.armX[2], t.armX[0])) =
      [some (some 5, some 0x1000), some (some 9, some 0x1000), some (some 6, some 0x1004), some (some 0xAA, some 0x1004),
        some (some 5, some 0x1008), some (some 9, some 0x100C), some (some 0xAA, some 0x1008),
        some (some 0xAA, some 0x0FFC)] := by decide

/-- D-L12, D-L13, D-P4. -/
theorem test_armLdrIndexed_writeback :
    refused? (exec (.armLdrIndexed .al 0 0 (.immPost 4)) arm) = some (.refusedWritebackSameRegister 0) ∧
      refused? (exec (.armLdrIndexed .al 2 0 (.regPre 0)) array) = some (.refusedWritebackSameRegister 0) := by decide

/-- D-L18, and a pre-indexed store by the rule of mode 8. -/
theorem test_armStr :
    (next? (exec (.armStr .al 5 3 (.immOffset 4)) (setA arm [(3, 0x1000), (5, 0x2C)]))).map (fun t => (t.mem, t.armX[3])) =
        some ([(0x1004, 0x2C)], some 0x1000) ∧
      (next? (exec (.armStr .al 5 3 (.indexed (.immPre 8))) (setA arm [(3, 0x1000), (5, 0x11223344)]))).map
          (fun t => (t.mem, t.armX[3])) =
        some ([(0x1008, 0x44), (0x1009, 0x33), (0x100A, 0x22), (0x100B, 0x11)], some 0x1008) := by decide

/-- D-X8, D-X9. -/
theorem test_armStr_faults :
    fault? (exec (.armStr .al 5 3 (.immOffset 0)) (setA arm [(3, 0), (5, 1)])) = some (.storeToText 0 0) ∧
      fault? (exec (.armStr .al 5 3 (.immOffset 1)) (setA arm [(3, 0), (5, 1)])) = some (.misalignedAccess 0 1) := by decide

/-- D-B1, D-B6, and program P2's `BNE` when it fails. -/
theorem test_armB :
    armBranchTarget (params .arm) 0x0C 0xFFFFFC = 0x04 ∧ armBranchTarget (params .arm) 0x100 0x800000 = 0xFE000108 ∧
      (next? (exec (.armB .ne 0xFFFFFC) (setF { arm with pc := 0x0C } false true false false))).map (·.pc) = some 0x10 := by
  decide

/-- Section 2.7: `BL` at 0x100 with imm24 0x3E. -/
theorem test_armBl :
    (next? (exec (.armBl .al 0x3E) { arm with pc := 0x100 })).map (fun t => (t.armX[14], t.pc)) =
      some (some 0x104, 0x200) := by decide

/-- D-I1, D-I6. -/
theorem test_mipsAdd :
    (next? (step (setM (mipsWord 0x012A4820) [(9, 30), (10, 0xFFFFFFFB)]))).map (fun t => (t.mipsValue 9, t.pc)) =
        some (some 25, 4) ∧
      (next? (exec (.mipsAdd 0 9 10) (setM mips [(9, 1), (10, 2)]))).map (fun t => (t.mipsX, t.pc)) =
        some ((setM mips [(9, 1), (10, 2)]).mipsX, 4) := by decide

/-- D-I3, D-I7. -/
theorem test_mipsAdd_overflow :
    fault? (exec (.mipsAdd 8 9 10) (setM mips [(9, 0x7FFFFFFF), (10, 1)])) = some (.integerOverflow 0) ∧
      fault? (exec (.mipsAdd 0 9 10) (setM mips [(9, 0x7FFFFFFF), (10, 1)])) = some (.integerOverflow 0) := by decide

/-- D-I10, D-I12. -/
theorem test_mipsAddi :
    (next? (exec (.mipsAddi 8 8 0xFFFF) (setM mips [(8, 0)]))).map (·.mipsValue 8) = some (some 0xFFFFFFFF) ∧
      fault? (exec (.mipsAddi 8 8 0x8000) (setM mips [(8, 0x80000000)])) = some (.integerOverflow 0) := by decide

/-- D-I14, D-I17. -/
theorem test_mipsLw :
    (next? (exec (.mipsLw 10 4 0xFFFC) (setW (setM mips [(4, 0x1004)]) 0x1000 10))).map (·.mipsValue 10) = some (some 10) ∧
      fault? (exec (.mipsLw 0 4 0) (setM mips [(4, 0x3000)])) = some (.unmappedAccess 0 0x3000) := by decide

/-- D-I18; D-P6. -/
theorem test_mipsSw :
    (next? (exec (.mipsSw 9 5 0) (setM mips [(5, 0x1000), (9, 25)]))).map (·.mem) = some [(0x1000, 25)] ∧
      fault? (exec (.mipsSw 9 0 2) (setM mips [(9, 5)])) = some (.misalignedAccess 0 2) := by decide

/-- D-J1 taken and not taken; D-J5. -/
theorem test_mipsBeq :
    ([0, 1].map fun (v : Word) => (next? (exec (.mipsBeq 8 0 1) (setM { mips with pc := 0x18 } [(8, v)]))).map (·.pc)) =
        [some 0x20, some 0x1C] ∧
      mipsBranchTarget 0x100 0x8000 = 0xFFFE0104 := by decide

/-- D-J7, D-J8. -/
theorem test_mipsJ :
    (next? (exec (.mipsJ 2) { mips with pc := 0x1C })).map (·.pc) = some 0x08 ∧
      mipsJumpTarget 0x0FFFFFFC 0 = 0x10000000 := by decide

/-- D-X2, D-X3, D-P8: the fetch. -/
theorem test_fetch :
    refused? (step { arm with pc := 4 }) = some (.runEnded 4) ∧ fault? (step { arm with pc := 8 }) = some (.fetchOutsideText 8) ∧
      fault? (step { arm with pc := 0x1002 }) = some (.fetchMisaligned 0x1002) := by decide

/-- D-X10, D-X11: a store to the device is recorded and is not what a load answers. -/
theorem test_device :
    (next? (exec (.armStr .al 5 3 (.immOffset 0)) (setA arm [(3, 0x8000), (5, 7)]))).map (fun t => (t.events, t.mem)) =
        some ([⟨0x8000, 7⟩], []) ∧
      (next? (exec (.armLdrImm .al 5 3 0) (setA arm [(3, 0x8000)]))).map (fun t => (t.draws, t.mem)) = some (1, []) := by
  decide

/-- Section 2.5, row 1000: conditions 0 to 14 in order. -/
theorem test_conditions :
    ([Cond.eq, .ne, .hs, .lo, .mi, .pl, .vs, .vc, .hi, .ls, .ge, .lt, .gt, .le, .al].map fun c =>
        match condPassed c (setF arm true false false false) with | .next b => b | .fault _ => false | .refused _ => false) =
      [false, true, false, true, true, false, false, true, false, true, false, true, false, true, true] := by decide

/-- The rows of the examples in R104, R222 and D-F15, as text. -/
theorem test_assemblyText :
    assemblyText (params .arm) (fun _ => "loop") 0x0C (.armB .ne 0xFFFFFC) = "BNE loop" ∧
      assemblyText (params .arm) (fun _ => "") 0 (.armAddReg .al false 2 0 1 2) = "ADD r2, r0, r1, LSL #2" ∧
      assemblyText (params .arm) (fun _ => "") 0 (.armLdrIndexed .al 2 0 (.scaledPre 1 2)) = "LDR r2, [r0, r1, LSL #2]!" ∧
      assemblyText (params .mips) (fun _ => "") 0 (.mipsAddi 8 8 0xFFFF) = "addi $8, $8, -1" := by decide

/-! ### States and operands that meet the hypotheses of the statements

Each is named after its statement; where a statement has clauses, one for each, at the edge of its range. -/

theorem witness_EncodedInstructionDecodesToItself :
    openParams.dtMapOk = true ∧ openParams.blFieldOk = true ∧ WellFormed openParams (.armLdrIndexed .al 2 0 (.scaledOffset 1 2)) = true ∧
      encode openParams (.armLdrIndexed .al 2 0 (.scaledOffset 1 2)) = some 0xE7902101 := by decide

theorem witness_DecodedWordIsItsEncoding_and_DecodedInstructionIsWellFormed :
    decode openParams 0xE7902101 = .ok (.armLdrIndexed .al 2 0 (.scaledOffset 1 2)) ∧
      decode (params .mips) 0x012A4020 = .ok (.mipsAdd 8 9 10) := by decide

theorem witness_ConditionFifteenIsReserved :
    (armWord 0xF0815002).params.isa = .arm ∧ fetch (armWord 0xF0815002) = .next (.word 0xF0815002) ∧
      (0xF0815002#32).extractLsb' 28 4 = 15#4 := ⟨rfl, rfl, by decide⟩

theorem witness_OtherDpOpcodesAreIllegal :
    (armWord 0xE0415002).params.isa = .arm ∧ (armWord 0xE0415002).params.blFieldOk = true ∧
      fetch (armWord 0xE0415002) = .next (.word 0xE0415002) ∧ (0xE0415002#32).extractLsb' 28 4 ≠ 15#4 ∧
      (0xE0415002#32).extractLsb' 26 2 = 0#2 ∧ (0xE0415002#32).extractLsb' 21 4 ≠ 4#4 :=
  ⟨rfl, rfl, rfl, by decide, by decide, by decide⟩

/-- A DT word with Opcode 25, a word with `F = 2`, and one with `w[27:24] = 13`. -/
theorem witness_OtherTransferAndBranchWordsAreIllegal :
    (fetch (armWord 0xE5935020) = .next (.word 0xE5935020) ∧ (0xE5935020#32).extractLsb' 26 2 = 1#2 ∧
        ∀ k, (params .arm).dtOpcode k ≠ some ((0xE5935020#32).extractLsb' 20 6)) ∧
      ((0xE8000000#32).extractLsb' 26 2 = 2#2 ∧ (0xE8000000#32).extractLsb' 24 4 ≠ 12#4) ∧
      ((0xED000000#32).extractLsb' 26 2 = 3#2 ∧ (0xED000000#32).extractLsb' 24 4 ≠ 12#4 ∧
        (params .arm).armBlField4 ≠ some ((0xED000000#32).extractLsb' 24 4)) := by
  refine ⟨⟨rfl, by decide, ?_⟩, by decide, by decide⟩
  rintro ⟨op, m⟩
  cases op <;> cases m <;> decide

theorem witness_RegisterFifteenIsRefused :
    ((0xE081F002#32).extractLsb' 26 2 = 0#2 ∧ (0xE081F002#32).extractLsb' 21 4 = 4#4 ∧
        (0xE081F002#32).extractLsb' 12 4 = 15#4) ∧
      ((0xE081500F#32).extractLsb' 25 1 = 0#1 ∧ (0xE081500F#32).extractLsb' 0 4 = 15#4) ∧
      ((0xE790210F#32).extractLsb' 26 2 = 1#2 ∧ openParams.dtKeyOf ((0xE790210F#32).extractLsb' 20 6) = some ⟨.ldr, .m7⟩ ∧
        (0xE790210F#32).extractLsb' 0 4 = 15#4) := by decide

theorem witness_AddOperandFormsWithoutMeaningAreRefused :
    (fetch (armWord 0xE2810F01) = .next (.word 0xE2810F01) ∧ (params .arm).armImm12Mode = .refuseHigh) ∧
      ((0xE2810F01#32).extractLsb' 26 2 = 0#2 ∧ (0xE2810F01#32).extractLsb' 21 4 = 4#4 ∧
        (0xE2810F01#32).extractLsb' 16 4 ≠ 15#4 ∧ (0xE2810F01#32).extractLsb' 12 4 ≠ 15#4 ∧
        (0xE2810F01#32).extractLsb' 25 1 = 1#1 ∧ (0xE2810F01#32).extractLsb' 8 4 ≠ 0#4) ∧
      ((0xE0815012#32).extractLsb' 26 2 = 0#2 ∧ (0xE0815012#32).extractLsb' 21 4 = 4#4 ∧
        (0xE0815012#32).extractLsb' 16 4 ≠ 15#4 ∧ (0xE0815012#32).extractLsb' 12 4 ≠ 15#4 ∧
        (0xE0815012#32).extractLsb' 25 1 = 0#1 ∧ (0xE0815012#32).extractLsb' 0 4 ≠ 15#4 ∧
        (0xE0815012#32).extractLsb' 4 3 ≠ 0#3) ∧
      256 ≤ (256#12).toNat := ⟨⟨rfl, rfl⟩, by decide, by decide, by decide⟩

/-- A word of mode 7 with bit 4 set, and one of mode 6 with bit 7 set. -/
theorem witness_RegisterOffsetFormsWithoutMeaningAreRefused :
    (openParams.dtKeyOf ((0xE7902111#32).extractLsb' 20 6) = some ⟨.ldr, .m7⟩ ∧ (0xE7902111#32).extractLsb' 4 3 ≠ 0#3) ∧
      (openParams.dtKeyOf ((0xE7802081#32).extractLsb' 20 6) = some ⟨.ldr, .m6⟩ ∧ (0xE7802081#32).extractLsb' 7 5 ≠ 0#5) ∧
      ([0xE7902111#32, 0xE7802081].all fun w =>
        w.extractLsb' 28 4 ≠ 15#4 && w.extractLsb' 26 2 = 1#2 && w.extractLsb' 16 4 ≠ 15#4 && w.extractLsb' 12 4 ≠ 15#4 &&
          w.extractLsb' 0 4 ≠ 15#4) = true := by decide

theorem witness_OtherMipsWordsAreRefused :
    (mipsWord 0x0C000000).params.isa = .mips ∧ fetch (mipsWord 0x0C000000) = .next (.word 0x0C000000) ∧
      (fieldsMips 0x0C000000).op ∉ [0#6, 2#6, 4#6, 8#6, 35#6, 43#6] ∧
      ((fieldsMips 0x012A4822).op = 0#6 ∧ (fieldsMips 0x012A4822).funct ≠ 32#6) ∧
      ((fieldsMips 0x012A4860).op = 0#6 ∧ (fieldsMips 0x012A4860).funct = 32#6 ∧ (fieldsMips 0x012A4860).shamt ≠ 0#5) :=
  ⟨rfl, rfl, by decide, by decide, by decide⟩

/-- The farthest targets each way. -/
theorem witness_AssembledDisplacementReachesLabel :
    assembleArmBranch (params .arm) 0x100 0x02000104 = some 0x7FFFFF ∧
      assembleArmBranch (params .arm) 0x100 0xFE000108 = some 0x800000 ∧
      assembleMipsBranch 0x100 0xFFFE0104 = some 0x8000 ∧ assembleMipsBranch 0x100 0x00020100 = some 0x7FFF ∧
      assembleMipsJump 0x0FFFFFFC 0x10000000 = some 0 := by decide

theorem witness_StepRunsDecodedWord :
    fetch (armWord 0xE0815002) = .next (.word 0xE0815002) ∧
      decode (armWord 0xE0815002).params 0xE0815002 = .ok (.armAddReg .al false 5 1 2 0) := ⟨rfl, by decide⟩

theorem witness_StepRunsInstructionTerm :
    (fetch (armTerm (.armLdrIndexed .al 2 0 (.immPost 4))) = .next (.term (.armLdrIndexed .al 2 0 (.immPost 4))) ∧
        WellFormed (params .arm) (.armLdrIndexed .al 2 0 (.immPost 4)) = true) ∧
      (fetch (armTerm (.mipsJ 0)) = .next (.term (.mipsJ 0)) ∧ isaOk (params .arm) (.mipsJ 0) = false) ∧
      (fetch (armTerm (.armB .nv 0)) = .next (.term (.armB .nv 0)) ∧ isaOk (params .arm) (.armB .nv 0) = true ∧
        (Instr.armB .nv 0).cond? = some .nv) := ⟨⟨rfl, by decide⟩, ⟨rfl, by decide⟩, rfl, by decide, rfl⟩

/-- The text is the four bytes at 0: pc 2, pc 4 (the end) and pc 8 just after it. -/
theorem witness_FetchChecksInOrder :
    ({ arm with pc := 2 } : State).pc.toNat % 4 ≠ 0 ∧ ({ arm with pc := 4 } : State).pc = endAddress (params .arm) ∧
      (({ arm with pc := 8 } : State).pc ≠ endAddress (params .arm) ∧
        (params .arm).textBase.toNat + 4 * (params .arm).text.length ≤ ({ arm with pc := 8 } : State).pc.toNat) := by decide

theorem witness_FetchReadsTheSlotAtItsIndex :
    arm.params.mapOk = true ∧ 0 < arm.params.text.length ∧ arm.pc.toNat = arm.params.textBase.toNat + 4 * 0 ∧
      arm.pc ≠ endAddress arm.params := by decide

theorem witness_StopsRecordThePc :
    fault? (step { arm with pc := 2 }) = some (.fetchMisaligned 2) ∧ refused? (step { arm with pc := 4 }) = some (.runEnded 4) := by
  decide

theorem witness_ConditionPredicates :
    (setF arm true false true false).flagN = some true ∧ (setF arm true false true false).flagV = some false ∧
      arm.flag .z = none ∧ (match condPassed .gt (setF arm true false true true) with | .next b => b | _ => false) = true := by
  decide

/-- The condition fails, and the flag is unwritten. -/
theorem witness_ConditionIsTestedFirst :
    (Instr.armAddImm .eq false 0 1 255).cond? = some .eq ∧ immOk (params .arm) (.armAddImm .eq false 0 1 255) = true ∧
      condPassed .eq (setF arm false false false false) = .next false ∧
      condPassed .eq arm = .fault (.unwrittenRegister 0 (.flag .z)) := ⟨rfl, by decide, rfl, rfl⟩

theorem witness_ArmAddResultAndFlags :
    condPassed .al (setA arm [(1, 7), (2, 9)]) = .next true ∧ (setA arm [(1, 7), (2, 9)]).armX[(1 : ArmReg)] = some 7 ∧
      (setA arm [(1, 7), (2, 9)]).armX[(2 : ArmReg)] = some 9 ∧ (setA arm [(1, 7)]).armX[(2 : ArmReg)] = none ∧
      imm12Value arm.params.armImm12Mode 255 = some 255 ∧ arm.armX[(1 : ArmReg)] = none ∧
      condPassed .eq (setF arm false false false false) = .next false :=
  ⟨rfl, by decide, by decide, by decide, by decide, by decide, rfl⟩

/-- The last word of the data region, at 0x1FFC. -/
theorem witness_LdrOffsetModes :
    condPassed .al (setA array [(1, 0xFFC)]) = .next true ∧ (setA array [(1, 0xFFC)]).armX[(0 : ArmReg)] = some 0x1000 ∧
      (setA array [(1, 0xFFC)]).armX[(1 : ArmReg)] = some 0xFFC ∧ array.readable (0x1000 + (0xFFC#12).setWidth 32) ∧
      array.readable (0x1000 + 0xFFC) ∧ array.readable (0x1000 + ((0x3FF : Word) <<< (2#5).toNat)) := ⟨rfl, by decide⟩

theorem witness_LdrPreIndexedModes :
    condPassed .al (setA array [(1, 8)]) = .next true ∧ (setA array [(1, 8)]).armX[(0 : ArmReg)] = some 0x1000 ∧
      (2 : ArmReg) ≠ 0 ∧ (1 : ArmReg) ≠ 0 ∧ (setA array [(1, 8)]).armX[(1 : ArmReg)] = some 8 ∧
      array.readable (0x1000 + (4#12).setWidth 32) ∧ array.readable (0x1000 + 8) ∧
      array.readable (0x1000 + ((8 : Word) <<< (2#5).toNat)) := ⟨rfl, by decide⟩

theorem witness_LdrPostIndexedModes :
    condPassed .al (setA array [(1, 8)]) = .next true ∧ (setA array [(1, 8)]).armX[(0 : ArmReg)] = some 0x1000 ∧
      (2 : ArmReg) ≠ 0 ∧ array.readable 0x1000 ∧ (1 : ArmReg) ≠ 0 ∧ (setA array [(1, 8)]).armX[(1 : ArmReg)] = some 8 :=
  ⟨rfl, by decide⟩

/-- Modes 5, 7 (an offset) and 12, which write at 0x1FFC, 0x100C and 0x1000. -/
theorem witness_StrStoresInEveryMode :
    let s := setA array [(1, 3), (5, 0x2C)]
    condPassed .al s = .next true ∧ s.armX[(0 : ArmReg)] = some 0x1000 ∧ s.armX[(5 : ArmReg)] = some 0x2C ∧
      s.armX[(1 : ArmReg)] = some 3 ∧ (5 : ArmReg) ≠ 0 ∧ (1 : ArmReg) ≠ 0 ∧ s.writable (0x1000 + (0xFFC#12).setWidth 32) ∧
      s.writable (0x1000 + ((3 : Word) <<< (2#5).toNat)) ∧ s.writable 0x1000 := ⟨rfl, by decide⟩

theorem witness_WritebackOfRepeatedRegisterIsRefused : condPassed .al arm = .next true ∧ (0 : ArmReg) = 0 := ⟨rfl, rfl⟩

theorem witness_TransfersFaultOnUnwrittenRegistersInOrder :
    condPassed .al array = .next true ∧ writebackClash 2 0 (.indexed (.regPre 1)) = false ∧
      arm.armX[(0 : ArmReg)] = none ∧
      (array.armX[(0 : ArmReg)] = some 0x1000 ∧ offsetReg (.indexed (.regPre 1)) = some 1 ∧ array.armX[(1 : ArmReg)] = none) ∧
      (dtAddress array 0 (.immOffset 0) = .next (0x1000, none) ∧ array.armX[(2 : ArmReg)] = none) :=
  ⟨rfl, by decide, by decide, by decide, rfl, by decide⟩

/-- Address 0x1FFD is misaligned, 0 is text, 0x2000 is the first address after the data. -/
theorem witness_TransferAddressChecksInOrder :
    (dtAddress (setA arm [(0, 0x1FFD)]) 0 (.immOffset 0) = .next (0x1FFD, none) ∧ (0x1FFD#32).toNat % 4 ≠ 0) ∧
      (dtAddress (setA arm [(0, 0)]) 0 (.immOffset 0) = .next (0, none) ∧ wordTouchesText arm.params 0 = true) ∧
      (dtAddress (setA arm [(0, 0x2000)]) 0 (.immOffset 0) = .next (0x2000, none) ∧ wordTouchesText arm.params 0x2000 = false ∧
        wordInside arm.params.dataRegions 0x2000 = false ∧ wordInside arm.params.ioRegions 0x2000 = false) ∧
      (setA arm [(2, 5)]).armX[(2 : ArmReg)] = some 5 :=
  ⟨⟨rfl, by decide⟩, ⟨rfl, by decide⟩, ⟨rfl, by decide⟩, by decide⟩

theorem witness_BranchGoesToItsTarget_and_BranchWithLinkSavesReturnAddress :
    condPassed .ne (setF arm false false false false) = .next true ∧ arm.pc.toNat % 4 = 0 ∧
      arm.params.armPcReadOffset.toNat % 4 = 0 := ⟨rfl, by decide⟩

theorem witness_MipsRegisterZeroIsHardwired : (1 : MipsReg) ≠ 0 := by decide

/-- Sums at both ends of the range and one past each. -/
theorem witness_MipsAddResultAndFaults :
    (setM mips [(9, 0x7FFFFFFE), (10, 1)]).mipsValue 9 = some 0x7FFFFFFE ∧
      (setM mips [(9, 0x7FFFFFFE), (10, 1)]).mipsValue 10 = some 1 ∧
      (0x7FFFFFFE#32).toInt + (1#32).toInt = 2 ^ 31 - 1 ∧ 2 ^ 31 - 1 < (0x7FFFFFFF#32).toInt + (1#32).toInt ∧
      (0x80000000#32).toInt + (0xFFFFFFFF#32).toInt < -2 ^ 31 ∧ mips.mipsValue 9 = none ∧
      (setM mips [(9, 1)]).mipsValue 10 = none := by decide

theorem witness_MipsAddiResultAndFaults :
    (setM mips [(8, 0x80000001)]).mipsValue 8 = some 0x80000001 ∧ (0x80000001#32).toInt + (0xFFFF#16).toInt = -2 ^ 31 ∧
      (0x80000000#32).toInt + (0xFFFF#16).toInt < -2 ^ 31 ∧ mips.mipsValue 8 = none := by decide

theorem witness_MipsLwResultAndFaults :
    (setM mips [(4, 0x2000)]).mipsValue 4 = some 0x2000 ∧ mips.readable (0x2000 + BitVec.ofInt 32 (0xFFFC#16).toInt) ∧
      (0x2000 + BitVec.ofInt 32 (2#16).toInt : Word).toNat % 4 ≠ 0 ∧
      ((0x2000 + BitVec.ofInt 32 (0#16).toInt : Word).toNat % 4 = 0 ∧
        wordInside mips.params.dataRegions (0x2000 + BitVec.ofInt 32 (0#16).toInt) = false ∧
        wordInside mips.params.ioRegions (0x2000 + BitVec.ofInt 32 (0#16).toInt) = false) ∧
      mips.mipsValue 4 = none := by decide

theorem witness_MipsSwStoresAndFaults :
    (setM mips [(5, 0x2000), (9, 25)]).mipsValue 5 = some 0x2000 ∧ (setM mips [(5, 0x2000), (9, 25)]).mipsValue 9 = some 25 ∧
      mips.writable (0x2000 + BitVec.ofInt 32 (0xFFFC#16).toInt) ∧ (mips.mipsValue 0 = some 0 ∧
        (0 + BitVec.ofInt 32 (2#16).toInt : Word).toNat % 4 ≠ 0 ∧
        wordTouchesText mips.params (0 + BitVec.ofInt 32 (0#16).toInt) = true) ∧
      (wordTouchesText mips.params (0x2000 + BitVec.ofInt 32 (0#16).toInt) = false ∧
        wordInside mips.params.dataRegions (0x2000 + BitVec.ofInt 32 (0#16).toInt) = false) ∧
      mips.mipsValue 9 = none := by decide

theorem witness_MipsBeqBranchesOnEqual_and_MipsJGoesToItsRegion :
    mips.params.mipsBranchDelaySlot = false ∧ (setM mips [(8, 1)]).mipsValue 8 = some 1 ∧ mips.mipsValue 0 = some 0 ∧
      mips.mipsValue 8 = none := by decide

theorem witness_DelaySlotHasNoRules :
    ({ mips with params := { mips.params with mipsBranchDelaySlot := true } } : State).params.mipsBranchDelaySlot = true := rfl

/-- A store in mode 8 (`[r3, #4]!`) and a load of its address in mode 6 (`[r3, r1]`, the base written back by then). -/
theorem witness_LoadReturnsTheStoredWord_arm :
    let s := setA arm [(1, 0), (3, 0x1000), (5, 7)]
    let t := ((s.writeArm 3 0x1004).advance).mem.storeWord .little 0x1004 7
    dtAddress s 3 (.indexed (.immPre 4)) = .next (0x1004, some 0x1004) ∧ s.armX[(5 : ArmReg)] = some 7 ∧ s.writable 0x1004 ∧
      condPassed .al s = .next true ∧
      exec (.armStr .al 5 3 (.indexed (.immPre 4))) s = .next { (s.writeArm 3 0x1004).advance with mem := t } ∧
      writebackClash 2 3 (.indexed (.regOffset 1)) = false ∧
      dtAddress ((s.writeArm 3 0x1004).advance) 3 (.indexed (.regOffset 1)) = .next (0x1004, none) :=
  ⟨rfl, by decide, by decide, rfl, rfl, by decide, rfl⟩

/-- `-4($5)` and `0($6)` name one address. -/
theorem witness_LoadReturnsTheStoredWord_mips :
    let s := setM mips [(5, 0x1004), (6, 0x1000), (9, 7)]
    s.mipsValue 5 = some 0x1004 ∧ s.mipsValue 9 = some 7 ∧ s.writable (0x1004 + BitVec.ofInt 32 (0xFFFC#16).toInt) ∧
      (next? (exec (.mipsSw 9 5 0xFFFC) s)).map (·.mipsValue 6) = some (some 0x1000) ∧
      (0x1000 + BitVec.ofInt 32 (0#16).toInt : Word) = 0x1004 + BitVec.ofInt 32 (0xFFFC#16).toInt ∧ (10 : MipsReg) ≠ 0 := by
  decide

/-- Modes 5, 11 (which writes the base back) and 12 (whose address is the base); the MIPS address by -4. -/
theorem witness_DeviceLoadIsAFreshDraw_and_DeviceStoreIsRecorded :
    let s := setA arm [(1, 1), (3, 0x8000), (4, 0x7FFC), (5, 7)]
    condPassed .al s = .next true ∧ dtAddress s 3 (.immOffset 0) = .next (0x8000, none) ∧
      dtAddress s 4 (.indexed (.scaledPre 1 2)) = .next (0x8000, some 0x8000) ∧
      dtAddress s 3 (.indexed (.regPost 1)) = .next (0x8000, some 0x8001) ∧
      (s.armX[(5 : ArmReg)] = some 7 ∧ writebackClash 5 3 (.immOffset 0) = false ∧
        writebackClash 5 4 (.indexed (.scaledPre 1 2)) = false ∧ writebackClash 5 3 (.indexed (.regPost 1)) = false ∧
        (0x8000#32).toNat % 4 = 0 ∧ wordInside arm.params.ioRegions 0x8000 = true ∧
        wordTouchesText arm.params 0x8000 = false) ∧
      (setM mips [(5, 0x8004), (9, 7)]).mipsValue 5 = some 0x8004 ∧ (setM mips [(5, 0x8004), (9, 7)]).mipsValue 9 = some 7 ∧
      (0x8004 + BitVec.ofInt 32 (0xFFFC#16).toInt : Word).toNat % 4 = 0 ∧
      wordInside mips.params.ioRegions (0x8004 + BitVec.ofInt 32 (0xFFFC#16).toInt) = true ∧
      wordTouchesText mips.params (0x8004 + BitVec.ofInt 32 (0xFFFC#16).toInt) = false :=
  ⟨rfl, rfl, rfl, rfl, by decide, by decide⟩

/-- A step that loads from the device by a word, and one that does not load. -/
theorem witness_DeviceHistoryOnlyGrows :
    let s := setA (armWord 0xE5802000) [(0, 0x8000)]
    let q := setA (armWord 0xE5802000) [(0, 0x1000)]
    fetch s = .next (.word 0xE5802000) ∧ readSlot s (.word 0xE5802000) = .next (.armLdrImm .al 2 0 0) ∧
      condPassed .al s = .next true ∧ dtAddress s 0 (.immOffset 0) = .next (0x8000, none) ∧
      (wordInside s.params.ioRegions 0x8000 = true ∧ (next? (step s)).map (·.draws) = some 1) ∧
      dtAddress q 0 (.immOffset 0) = .next (0x1000, none) ∧
      wordInside q.params.ioRegions 0x1000 = false ∧ (next? (step q)).map (·.draws) = some 0 :=
  ⟨rfl, rfl, rfl, rfl, by decide, rfl, by decide⟩

theorem witness_AddressingModesFollowTheTable :
    (setA arm [(0, 0xFFFFFFFC), (1, 3)]).armX[(0 : ArmReg)] = some 0xFFFFFFFC ∧
      (setA arm [(0, 0xFFFFFFFC), (1, 3)]).armX[(1 : ArmReg)] = some 3 := by decide

/-- The point notes/assumptions/18.md settles: at an `END_PC` that is no multiple of 4 the state is final and the fetch
faults. -/
theorem test_final_misaligned_end :
    let s : State := { arm with pc := 6, params := { arm.params with endPc := some 6 } }
    s.final = true ∧ fault? (step s) = some (.fetchMisaligned 6) := by decide

/-- Instructions that answer: an `ADD` with `S = 1`, a store, a load (the premises of the three statements about what
every instruction leaves alone). -/
theorem witness_PcAdvancesExceptByBranches_OnlyAddSWritesFlags_OnlyTransfersReachMemory :
    (next? (exec (.armAddReg .al true 1 1 1 0) (setA arm [(1, 1)]))).isSome = true ∧
      (next? (exec (.armStr .al 0 0 (.immOffset 0)) array)).isSome = true ∧
      (next? (exec (.armLdrImm .al 2 0 0) array)).isSome = true := by decide

/-- Steps that answer, of either machine, from a state with a canonical memory and an aligned pc (the premises of the
statements about what every step keeps; the texts lie outside the data). -/
theorem witness_StepKeeps :
    (next? (step { array with params := (armWord 0xE5802008).params })).isSome = true ∧ array.params.isa = .arm ∧
      (next? (step (setM (mipsWord 0x012A4820) [(9, 30), (10, 1)]))).isSome = true ∧ mips.params.isa = .mips ∧
      Memory.wf array.mem ∧ array.pc.toNat % 4 = 0 ∧ array.params.armPcReadOffset.toNat % 4 = 0 ∧ array.params.mapOk = true ∧
      inText array.params 3 = true ∧ inRegions array.params.dataRegions 0xFFF = false := by decide

theorem witness_WrittenRegistersStayWritten : State.reset.allWritten := by
  refine And.intro (by decide) (And.intro (fun f => ?_) (by decide))
  cases f <;> rfl

/-- One word stored at an aligned address in each byte order: every aligned word reads the same. -/
theorem words_agree (v : Word) (b a : Nat) (hb : b % 4 = 0) (ha : a % 4 = 0) :
    (Memory.storeWord [] .little b v).loadWord .little a = (Memory.storeWord [] .big b v).loadWord .big a := by
  by_cases h : a = b
  · rw [h, Memory.loadWord_storeWord, Memory.loadWord_storeWord]
  · rw [Memory.loadWord_storeWord_outside _ _ _ _ _ (by omega), Memory.loadWord_storeWord_outside _ _ _ _ _ (by omega)]
    rfl

/-- Two runs with a word at 0x1000, one in each byte order: their bytes differ, their words do not. -/
theorem witness_ByteOrderIsUnobservable :
    ∃ s t : State, s.mem ≠ t.mem ∧
      t = { s with params := { s.params with byteOrder := t.params.byteOrder }, mem := t.mem } ∧
      ∀ a : Nat, a % 4 = 0 → s.mem.loadWord s.params.byteOrder a = t.mem.loadWord t.params.byteOrder a :=
  ⟨{ arm with mem := Memory.storeWord [] .little 0x1000 0x11223344 },
    { arm with
      params := { arm.params with byteOrder := .big }, mem := Memory.storeWord [] .big 0x1000 0x11223344 },
    by decide, rfl, fun a ha => words_agree 0x11223344 0x1000 a (by decide) ha⟩

theorem witness_WordsAndTermsRunAlike :
    openParams.dtMapOk = true ∧ openParams.blFieldOk = true ∧
      List.Forall₂ (fun i w => WellFormed openParams i = true ∧ encode openParams i = some w)
        [.armLdrIndexed .al 2 0 (.immPost 4), .armAddReg .al false 4 2 3 0] [0xE4802004, 0xE0824003] :=
  ⟨by decide, by decide, .cons (by decide) (.cons (by decide) .nil)⟩

end Sys2Proof.Tests
end

/-! ### What a decoder that answers has checked (R107, R108) -/

namespace Sys2Proof

/-- A DP word that decodes is an `ADD` whose fields name registers, in one of its two operand forms (R86, R93, R95). -/
theorem decodeDp_eq_ok {p : Params} {cond : Cond} {w : Word} {i : Instr} (h : decodeDp p cond w = .ok i) :
    w.extractLsb' 21 4 = 4#4 ∧ ∃ rn rd, armReg? (w.extractLsb' 16 4) = some rn ∧ armReg? (w.extractLsb' 12 4) = some rd ∧
      ((w.extractLsb' 25 1 = 1#1 ∧ imm12Admitted p.armImm12Mode (w.extractLsb' 0 12) = true ∧
          i = .armAddImm cond (decide (w.extractLsb' 20 1 = 1#1)) rd rn (w.extractLsb' 0 12)) ∨
        (w.extractLsb' 25 1 ≠ 1#1 ∧ ∃ rm, armReg? (w.extractLsb' 0 4) = some rm ∧ w.extractLsb' 4 3 = 0#3 ∧
          i = .armAddReg cond (decide (w.extractLsb' 20 1 = 1#1)) rd rn rm (w.extractLsb' 7 5))) := by
  unfold decodeDp at h
  split at h
  · cases h
  next hopc =>
  split at h
  next rn rd hn hd =>
    refine ⟨not_not.mp hopc, rn, rd, hn, hd, ?_⟩
    split at h
    next himm =>
      split at h
      next hadm => cases h; exact .inl ⟨himm, hadm, rfl⟩
      next => cases h
    next hreg =>
      split at h
      next => cases h
      next rm hm =>
        split at h
        next => cases h
        next hzero => cases h; exact .inr ⟨hreg, rm, hm, not_not.mp hzero, rfl⟩
  next => cases h

/-- A register offset that decodes names its register, has zeros in bits 6 to 4, and zeros for a shift in an unscaled
mode (R94, R95, R98). -/
theorem decodeRegOffset_eq_ok {scaled : Bool} {off : BitVec 12} {k : ArmReg → BitVec 5 → Instr} {i : Instr}
    (h : decodeRegOffset scaled off k = .ok i) :
    ∃ rm, armReg? (off.extractLsb' 0 4) = some rm ∧ off.extractLsb' 4 3 = 0#3 ∧
      (scaled = false → off.extractLsb' 7 5 = 0#5) ∧ i = k rm (off.extractLsb' 7 5) := by
  unfold decodeRegOffset at h
  split at h
  next => cases h
  next rm hm =>
    split at h
    next => cases h
    next hzero =>
      split at h
      next => cases h
      next hshift => cases h; exact ⟨rm, hm, not_not.mp hzero, by simpa using hshift, rfl⟩

/-- The register, the zeros and the shift of a register offset are all of its 12 bits (R95). -/
theorem shiftedRegBits_eq {off : BitVec 12} {rm : ArmReg} (hm : armReg? (off.extractLsb' 0 4) = some rm)
    (hz : off.extractLsb' 4 3 = 0#3) : shiftedRegBits rm (off.extractLsb' 7 5) = off := by
  rw [shiftedRegBits, ArmReg.bits_of_armReg? hm, ← hz]
  exact place_fields_shifted off

/-- A register offset that decodes in an unscaled mode is its register alone. -/
theorem decodeRegOffset_unscaled {off : BitVec 12} {k : ArmReg → Instr} {i : Instr}
    (h : decodeRegOffset false off (fun rm _ => k rm) = .ok i) : ∃ rm, i = k rm ∧ shiftedRegBits rm 0#5 = off := by
  obtain ⟨rm, hm, hz, hshift, rfl⟩ := decodeRegOffset_eq_ok h
  exact ⟨rm, rfl, hshift rfl ▸ shiftedRegBits_eq hm hz⟩

/-- A register offset that decodes in a scaled mode is its register and its shift. -/
theorem decodeRegOffset_scaled {off : BitVec 12} {k : ArmReg → BitVec 5 → Instr} {i : Instr}
    (h : decodeRegOffset true off k = .ok i) : ∃ rm sh, i = k rm sh ∧ shiftedRegBits rm sh = off := by
  obtain ⟨rm, hm, hz, -, rfl⟩ := decodeRegOffset_eq_ok h
  exact ⟨rm, _, rfl, shiftedRegBits_eq hm hz⟩

/-- Transfer operands that decode make the instruction of the key's operation with a mode of the key's number, whose
bits are the 12 given (R98, R190). -/
theorem decodeDtOperands_eq_ok {k : DtKey} {cond : Cond} {rd rn : ArmReg} {off : BitVec 12} {i : Instr}
    (h : decodeDtOperands k cond rd rn off = .ok i) :
    ∃ m : DtMode, i = k.op.instr cond rd rn m ∧ m.number = k.mode ∧ m.offset12 = off := by
  obtain ⟨op, mode⟩ := k
  unfold decodeDtOperands at h
  cases mode with
  | m5 => cases h; exact ⟨.immOffset off, rfl, rfl, rfl⟩
  | m6 => obtain ⟨rm, rfl, e⟩ := decodeRegOffset_unscaled h; exact ⟨.indexed (.regOffset rm), rfl, rfl, e⟩
  | m7 => obtain ⟨rm, sh, rfl, e⟩ := decodeRegOffset_scaled h; exact ⟨.indexed (.scaledOffset rm sh), rfl, rfl, e⟩
  | m8 => cases h; exact ⟨.indexed (.immPre off), rfl, rfl, rfl⟩
  | m9 => cases h; exact ⟨.indexed (.immPost off), rfl, rfl, rfl⟩
  | m10 => obtain ⟨rm, rfl, e⟩ := decodeRegOffset_unscaled h; exact ⟨.indexed (.regPre rm), rfl, rfl, e⟩
  | m11 => obtain ⟨rm, sh, rfl, e⟩ := decodeRegOffset_scaled h; exact ⟨.indexed (.scaledPre rm sh), rfl, rfl, e⟩
  | m12 => obtain ⟨rm, rfl, e⟩ := decodeRegOffset_unscaled h; exact ⟨.indexed (.regPost rm), rfl, rfl, e⟩

/-- A DT word that decodes has an Opcode of `ARM_DT_OPCODE`, fields that name registers and the operands of its mode
(R87, R97). -/
theorem decodeDt_eq_ok {p : Params} {cond : Cond} {w : Word} {i : Instr} (h : decodeDt p cond w = .ok i) :
    ∃ k rn rd m, p.dtKeyOf (w.extractLsb' 20 6) = some k ∧ armReg? (w.extractLsb' 16 4) = some rn ∧
      armReg? (w.extractLsb' 12 4) = some rd ∧ i = k.op.instr cond rd rn m ∧ m.number = k.mode ∧
      m.offset12 = w.extractLsb' 0 12 := by
  unfold decodeDt at h
  split at h
  next => cases h
  next k hk =>
    split at h
    next rn rd hn hd =>
      obtain ⟨m, hi, hnum, hoff⟩ := decodeDtOperands_eq_ok h
      exact ⟨k, rn, rd, m, hk, hn, hd, hi, hnum, hoff⟩
    next => cases h

/-- An ARM word that decodes has a condition other than NV and is one of `B`, `BL`, a DP word and a DT word (R107). -/
theorem decodeArm_eq_ok {p : Params} {w : Word} {i : Instr} (h : decodeArm p w = .ok i) :
    let cond := Cond.ofBits (w.extractLsb' 28 4)
    cond ≠ .nv ∧
      ((w.extractLsb' 24 4 = 12#4 ∧ i = .armB cond (w.extractLsb' 0 24)) ∨
        (p.armBlField4 = some (w.extractLsb' 24 4) ∧ i = .armBl cond (w.extractLsb' 0 24)) ∨
        (w.extractLsb' 26 2 = 0#2 ∧ decodeDp p cond w = .ok i) ∨
        (w.extractLsb' 26 2 = 1#2 ∧ decodeDt p cond w = .ok i)) := by
  simp only [decodeArm] at h
  split at h
  · cases h
  next hcond =>
  refine ⟨hcond, ?_⟩
  split at h
  next hb => cases h; exact .inl ⟨hb, rfl⟩
  split at h
  next hbl => cases h; exact .inr (.inl ⟨hbl, rfl⟩)
  split at h
  next hdp => exact .inr (.inr (.inl ⟨hdp, h⟩))
  split at h
  next hdt => exact .inr (.inr (.inr ⟨hdt, h⟩))
  · cases h

/-- The MIPS decoder answers only with the gate open (R150). -/
theorem decodeMips_gate {p : Params} {w : Word} {i : Instr} (h : decodeMips p w = .ok i) :
    p.mipsRepresentativeSet = true := by
  unfold decodeMips at h
  split at h
  next hgate => exact hgate
  next => cases h

/-! ### The checks of `WellFormed`, one by one -/

@[simp] theorem DtOp.instr_cond? (op : DtOp) (c : Cond) (rd rn : ArmReg) (m : DtMode) :
    (op.instr c rd rn m).cond? = some c := by
  cases op <;> cases m <;> rfl

@[simp] theorem immOk_dtInstr (p : Params) (op : DtOp) (c : Cond) (rd rn : ArmReg) (m : DtMode) :
    immOk p (op.instr c rd rn m) = true := by
  cases op <;> cases m <;> rfl

/-- A term's immediate is checked as a word's is (R93). -/
theorem immOk_armAddImm (p : Params) (c : Cond) (s : Bool) (rd rn : ArmReg) (imm : BitVec 12) :
    immOk p (.armAddImm c s rd rn imm) = imm12Admitted p.armImm12Mode imm := by
  unfold immOk imm12Admitted
  cases p.armImm12Mode <;> simp

theorem condOk_of_cond? {i : Instr} {c : Cond} (h : i.cond? = some c) (hc : c ≠ .nv) : condOk i = true := by
  simp [condOk, h, hc]

/-- A MIPS instruction has no condition and no ARM immediate to check. -/
theorem condOk_immOk_of_mips {i : Instr} (p : Params) (h : i.isa = .mips) : condOk i = true ∧ immOk p i = true := by
  cases i with
  | armAddReg | armAddImm | armLdrImm | armB | armBl | armLdrIndexed | armStr => cases h
  | mipsAdd | mipsAddi | mipsLw | mipsSw | mipsBeq | mipsJ => exact ⟨rfl, rfl⟩

/-- Only ARM instructions have a condition (R90). -/
theorem isa_of_cond? {i : Instr} {c : Cond} (h : i.cond? = some c) : i.isa = .arm := by
  cases i with
  | armAddReg | armAddImm | armLdrImm | armB | armBl | armLdrIndexed | armStr => rfl
  | mipsAdd | mipsAddi | mipsLw | mipsSw | mipsBeq | mipsJ => cases h

/-- `MIPS_REPRESENTATIVE_SET` gates no ARM instruction (R150). -/
theorem gateOk_of_arm {i : Instr} (p : Params) (h : i.isa = .arm) : gateOk p i = true := by
  simp [gateOk, h]

/-- The instruction of an ARM word has the word's condition (R90). -/
theorem decodeArm_cond? {p : Params} {w : Word} {i : Instr} (h : decodeArm p w = .ok i) :
    i.cond? = some (Cond.ofBits (w.extractLsb' 28 4)) := by
  obtain ⟨-, ⟨-, rfl⟩ | ⟨-, rfl⟩ | ⟨-, hdp⟩ | ⟨-, hdt⟩⟩ := decodeArm_eq_ok h
  · rfl
  · rfl
  · obtain ⟨-, rn, rd, -, -, ⟨-, -, rfl⟩ | ⟨-, rm, -, -, rfl⟩⟩ := decodeDp_eq_ok hdp <;> rfl
  · obtain ⟨k, rn, rd, m, -, -, -, rfl, -, -⟩ := decodeDt_eq_ok hdt
    exact DtOp.instr_cond? ..

/-- The instruction of an ARM word has no immediate that the parameters give no value (R93). -/
theorem decodeArm_immOk {p : Params} {w : Word} {i : Instr} (h : decodeArm p w = .ok i) : immOk p i = true := by
  obtain ⟨-, ⟨-, rfl⟩ | ⟨-, rfl⟩ | ⟨-, hdp⟩ | ⟨-, hdt⟩⟩ := decodeArm_eq_ok h
  · rfl
  · rfl
  · obtain ⟨-, rn, rd, -, -, ⟨-, hadm, rfl⟩ | ⟨-, rm, -, -, rfl⟩⟩ := decodeDp_eq_ok hdp
    · exact (immOk_armAddImm ..).trans hadm
    · rfl
  · obtain ⟨k, rn, rd, m, -, -, -, rfl, -, -⟩ := decodeDt_eq_ok hdt
    exact immOk_dtInstr ..

theorem wellFormed_iff {p : Params} {i : Instr} :
    WellFormed p i = true ↔ i.isa = p.isa ∧ gateOk p i = true ∧ condOk i = true ∧ immOk p i = true := by
  simp [WellFormed, isaOk, and_assoc]

theorem decodeArm_wellFormed {p : Params} {w : Word} {i : Instr} (hp : p.isa = .arm) (h : decodeArm p w = .ok i) :
    WellFormed p i = true := by
  have hisa : i.isa = .arm := decodeArm_isa h
  have hcond : Cond.ofBits (w.extractLsb' 28 4) ≠ .nv := (decodeArm_eq_ok h).1
  exact wellFormed_iff.mpr
    ⟨hisa.trans hp.symm, gateOk_of_arm p hisa, condOk_of_cond? (decodeArm_cond? h) hcond, decodeArm_immOk h⟩

theorem decodeMips_wellFormed {p : Params} {w : Word} {i : Instr} (hp : p.isa = .mips) (h : decodeMips p w = .ok i) :
    WellFormed p i = true := by
  have hisa : i.isa = .mips := decodeMips_isa h
  have hgate : gateOk p i = true := by simpa [gateOk, hisa] using decodeMips_gate h
  exact wellFormed_iff.mpr ⟨hisa.trans hp.symm, hgate, condOk_immOk_of_mips p hisa⟩

/-- Settles O3: each of the two decoders has made every check of `WellFormed`. -/
theorem decodedInstructionIsWellFormed : Obligations.DecodedInstructionIsWellFormed := by
  intro p w i h
  unfold decode at h
  split at h
  next hp => exact decodeArm_wellFormed hp h
  next hp => exact decodeMips_wellFormed hp h

end Sys2Proof

namespace Sys2Proof.Machine

/-! ### The step of a fetched slot -/

/-- After a fetch that answers, the step reads the slot and executes what it holds (R10). -/
theorem step_of_fetch {s : State} {x : Slot} (h : fetch s = .next x) :
    step s = andThen (readSlot s x) fun i => exec i s := by
  simp [step, h]

/-- The step of a fetched word follows the decoder of the run's machine (R151, R170). -/
theorem step_of_fetch_word {s : State} {w : Word} (h : fetch s = .next (.word w)) :
    step s = andThen (ofDecoded s.pc w (decode s.params w)) fun i => exec i s :=
  step_of_fetch h

/-- An admitted term is executed (R3, R150, R190). -/
theorem step_of_fetch_term {s : State} {i : Instr} (h : fetch s = .next (.term i)) (hisa : isaOk s.params i = true)
    (hgate : gateOk s.params i = true) : step s = exec i s := by
  rw [step_of_fetch h]
  simp [readSlot, hisa, hgate]

/-- A term of the other machine, or behind a closed gate, is refused (R3, R150). -/
theorem step_of_fetch_term_refused {s : State} {i : Instr} (h : fetch s = .next (.term i))
    (hadm : isaOk s.params i = false ∨ gateOk s.params i = false) :
    step s = .refused (.illegalInstruction s.pc none) := by
  have hboth : (isaOk s.params i && gateOk s.params i) = false := Bool.and_eq_false_iff.mpr hadm
  rw [step_of_fetch h]
  simp [readSlot, hboth]

/-- Under condition NV no body is reached (R225). -/
theorem whenPassed_nv (s : State) (body : Res State) : whenPassed .nv s body = .fault (.reservedCondition s.pc none) :=
  rfl

/-- An `ADD` term with condition NV faults whether or not its immediate has a value (R242). -/
theorem execArmAddImm_nv (setFlags : Bool) (rd rn : ArmReg) (imm : BitVec 12) (s : State) :
    execArmAddImm .nv setFlags rd rn imm s = .fault (.reservedCondition s.pc none) := by
  unfold execArmAddImm
  split
  next => exact whenPassed_nv ..
  next => exact if_pos rfl

/-- An instruction with condition NV is never executed (R225). -/
theorem exec_of_nv {i : Instr} (s : State) (h : i.cond? = some .nv) :
    exec i s = .fault (.reservedCondition s.pc none) := by
  cases i with
  | armAddImm => cases h; exact execArmAddImm_nv ..
  | armAddReg | armLdrImm | armB | armBl | armLdrIndexed | armStr => cases h; rfl
  | mipsAdd | mipsAddi | mipsLw | mipsSw | mipsBeq | mipsJ => cases h

/-- Settles O16: a decoded word is executed at the state it was fetched in. -/
theorem stepRunsDecodedWord : Obligations.StepRunsDecodedWord := by
  intro s w i hf hd
  rw [step_of_fetch_word hf, hd]
  rfl

/-- Settles O17, clause by clause; a term with a condition is ARM, so its gate is open. -/
theorem stepRunsInstructionTerm : Obligations.StepRunsInstructionTerm := by
  intro s i hf
  refine ⟨fun hwf => ?_, step_of_fetch_term_refused hf, fun hisa hnv => ?_⟩
  · obtain ⟨hisa, hgate, -, -⟩ := wellFormed_iff.mp hwf
    exact step_of_fetch_term hf (decide_eq_true hisa) hgate
  · rw [step_of_fetch_term hf hisa (gateOk_of_arm _ (isa_of_cond? hnv)), exec_of_nv s hnv]

/-! ### The pc that a stop records (R241) -/

/-- The pc a fault records. -/
def Fault.pc : Fault → Word
  | .fetchMisaligned pc => pc
  | .fetchOutsideText pc => pc
  | .reservedCondition pc _ => pc
  | .unwrittenRegister pc _ => pc
  | .misalignedAccess pc _ => pc
  | .unmappedAccess pc _ => pc
  | .storeToText pc _ => pc
  | .integerOverflow pc => pc

/-- The pc a refusal records; `notModelled` records none. -/
def Refusal.pc? : Refusal → Option Word
  | .notModelled _ => none
  | .illegalInstruction pc _ => some pc
  | .refusedR15 pc _ => some pc
  | .refusedOperandForm pc _ => some pc
  | .refusedWritebackSameRegister pc => some pc
  | .runEnded pc => some pc
  | .delaySlotWithoutRules pc => some pc

/-- If the computation stops, the fault or refusal it stops with records `pc`. -/
def StopsAt {α : Type} (pc : Word) : Res α → Prop
  | .next _ => True
  | .fault r => r.pc = pc
  | .refused r => r.pc? = some pc

/-- A computation that answers does not stop. -/
theorem StopsAt.next {α : Type} {pc : Word} (a : α) : StopsAt pc (.next a : Res α) := trivial

/-- A sequence stops where its parts do. -/
theorem StopsAt.andThen {α β : Type} {pc : Word} {o : Res α} {f : α → Res β} (ho : StopsAt pc o)
    (hf : ∀ a, StopsAt pc (f a)) : StopsAt pc (andThen o f) := by
  cases o with
  | next a => exact hf a
  | fault r => exact ho
  | refused r => exact ho

/-- A choice stops where its branches do. -/
theorem StopsAt.ite {α : Type} {pc : Word} {c : Prop} [Decidable c] {o o' : Res α} (ho : StopsAt pc o)
    (ho' : StopsAt pc o') : StopsAt pc (if c then o else o') := by
  split <;> assumption

theorem readArm_stopsAt (s : State) (r : ArmReg) : StopsAt s.pc (readArm s r) := by
  unfold readArm
  split
  · exact .next _
  · rfl

theorem readMips_stopsAt (s : State) (r : MipsReg) : StopsAt s.pc (readMips s r) := by
  unfold readMips
  split
  · exact .next _
  · rfl

theorem readFlag_stopsAt (s : State) (f : Flag) : StopsAt s.pc (readFlag s f) := by
  unfold readFlag
  split
  · exact .next _
  · rfl

theorem condPassed_stopsAt (c : Cond) (s : State) : StopsAt s.pc (condPassed c s) := by
  have read := readFlag_stopsAt s
  cases c with
  | eq | hs | mi | vs => exact read _
  | ne | lo | pl | vc => exact (read _).andThen fun _ => .next _
  | hi | ls | ge | lt => exact (read _).andThen fun _ => (read _).andThen fun _ => .next _
  | gt | le => exact (read _).andThen fun _ => (read _).andThen fun _ => (read _).andThen fun _ => .next _
  | al => exact .next _
  | nv => rfl

theorem whenPassed_stopsAt (c : Cond) {s : State} {body : Res State} (h : StopsAt s.pc body) :
    StopsAt s.pc (whenPassed c s body) :=
  (condPassed_stopsAt c s).andThen fun _ => .ite h (.next _)

theorem memRead_stopsAt (s : State) (addr : Word) : StopsAt s.pc (memRead s addr) :=
  .ite rfl (.ite rfl (.ite (.next _) (.next _)))

theorem memWrite_stopsAt (s : State) (addr v : Word) : StopsAt s.pc (memWrite s addr v) :=
  .ite rfl (.ite rfl (.ite rfl (.ite (.next _) (.next _))))

theorem readShifted_stopsAt (s : State) (rm : ArmReg) (h : BitVec 5) : StopsAt s.pc (readShifted s rm h) :=
  (readArm_stopsAt s rm).andThen fun _ => .next _

theorem readOffset_stopsAt (s : State) (m : DtMode) : StopsAt s.pc (readOffset s m) := by
  cases m with
  | immOffset off => exact .next _
  | indexed m =>
    cases m with
    | immPre | immPost => exact .next _
    | regOffset | regPre | regPost => exact readArm_stopsAt ..
    | scaledOffset | scaledPre => exact readShifted_stopsAt ..

theorem dtAddress_stopsAt (s : State) (rn : ArmReg) (m : DtMode) : StopsAt s.pc (dtAddress s rn m) :=
  (readArm_stopsAt s rn).andThen fun _ => (readOffset_stopsAt s m).andThen fun _ => .next _

theorem loadBody_stopsAt (s : State) (rd rn : ArmReg) (m : DtMode) : StopsAt s.pc (loadBody s rd rn m) :=
  .ite rfl <| (dtAddress_stopsAt s rn m).andThen fun _ => (memRead_stopsAt s _).andThen fun _ => .next _

theorem storeBody_stopsAt (s : State) (rd rn : ArmReg) (m : DtMode) : StopsAt s.pc (storeBody s rd rn m) :=
  .ite rfl <| (dtAddress_stopsAt s rn m).andThen fun _ => (readArm_stopsAt s rd).andThen fun _ =>
    (memWrite_stopsAt s _ _).andThen fun _ => .next _

theorem execArmAddImm_stopsAt (c : Cond) (setFlags : Bool) (rd rn : ArmReg) (imm : BitVec 12) (s : State) :
    StopsAt s.pc (execArmAddImm c setFlags rd rn imm s) := by
  unfold execArmAddImm
  split
  · exact whenPassed_stopsAt c <| (readArm_stopsAt s rn).andThen fun _ => .next _
  · exact .ite rfl rfl

theorem addSigned_stopsAt (s : State) (a b : Word) : StopsAt s.pc (addSigned s a b) :=
  .ite rfl (.next _)

theorem mipsAddress_stopsAt (s : State) (rs : MipsReg) (imm : BitVec 16) : StopsAt s.pc (mipsAddress s rs imm) :=
  (readMips_stopsAt s rs).andThen fun _ => .next _

theorem withoutDelaySlot_stopsAt {s : State} {body : Res State} (h : StopsAt s.pc body) :
    StopsAt s.pc (withoutDelaySlot s body) :=
  .ite rfl h

/-- Every instruction that stops records the pc it ran at. -/
theorem exec_stopsAt (i : Instr) (s : State) : StopsAt s.pc (exec i s) := by
  cases i with
  | armAddReg c setFlags rd rn rm h =>
    exact whenPassed_stopsAt c <| (readArm_stopsAt s rn).andThen fun _ =>
      (readShifted_stopsAt s rm h).andThen fun _ => .next _
  | armAddImm => exact execArmAddImm_stopsAt ..
  | armB c | armBl c => exact whenPassed_stopsAt c (.next _)
  | armLdrImm c | armLdrIndexed c => exact whenPassed_stopsAt c (loadBody_stopsAt ..)
  | armStr c => exact whenPassed_stopsAt c (storeBody_stopsAt ..)
  | mipsAdd rd rs rt =>
    exact (readMips_stopsAt s rs).andThen fun _ => (readMips_stopsAt s rt).andThen fun _ =>
      (addSigned_stopsAt s _ _).andThen fun _ => .next _
  | mipsAddi rt rs =>
    exact (readMips_stopsAt s rs).andThen fun _ => (addSigned_stopsAt s _ _).andThen fun _ => .next _
  | mipsLw rt rs imm =>
    exact (mipsAddress_stopsAt s rs imm).andThen fun _ => (memRead_stopsAt s _).andThen fun _ => .next _
  | mipsSw rt rs imm =>
    exact (mipsAddress_stopsAt s rs imm).andThen fun _ => (readMips_stopsAt s rt).andThen fun _ =>
      (memWrite_stopsAt s _ _).andThen fun _ => .next _
  | mipsBeq rs rt =>
    exact withoutDelaySlot_stopsAt <| (readMips_stopsAt s rs).andThen fun _ =>
      (readMips_stopsAt s rt).andThen fun _ => .next _
  | mipsJ => exact withoutDelaySlot_stopsAt (.next _)

theorem fetch_stopsAt (s : State) : StopsAt s.pc (fetch s) := by
  refine .ite rfl (.ite rfl (.ite rfl ?_))
  split
  · exact .next _
  · rfl

theorem readSlot_stopsAt (s : State) (x : Slot) : StopsAt s.pc (readSlot s x) := by
  cases x with
  | word w =>
    simp only [readSlot]
    cases decode s.params w with
    | ok i => exact .next _
    | reservedCondition | illegalInstruction | refusedR15 | refusedOperandForm => rfl
  | term i => exact .ite (.next _) rfl

theorem step_stopsAt (s : State) : StopsAt s.pc (step s) :=
  (fetch_stopsAt s).andThen fun x => (readSlot_stopsAt s x).andThen fun i => exec_stopsAt i s

/-- Settles O21: fetch, decode and every instruction stop at the state's own pc. -/
theorem stopsRecordThePc : Obligations.StopsRecordThePc := by
  intro s
  have hstop := step_stopsAt s
  refine ⟨fun r h => ?_, fun r h => ?_⟩
  · rw [h] at hstop
    cases r <;> exact hstop
  · rw [h] at hstop
    cases r with
    | notModelled => cases hstop
    | illegalInstruction | refusedR15 | refusedOperandForm | refusedWritebackSameRegister | runEnded
    | delaySlotWithoutRules => exact Option.some.inj hstop

/-! ### What a step that answers can do -/

/-- The next states an ARM instruction can answer from `s`: one constructor per kind of change. -/
inductive ArmEffect (s : State) : State → Prop
  /-- The condition failed (R170). -/
  | skip : ArmEffect s s.advance
  /-- `B` (R222). -/
  | branch (imm : BitVec 24) : ArmEffect s (s.jumpTo (armBranchTarget s.params s.pc imm))
  /-- `BL` (R223). -/
  | link (imm : BitVec 24) :
    ArmEffect s ((s.writeArm linkRegister (s.pc + 4)).jumpTo (armBranchTarget s.params s.pc imm))
  /-- `ADD` (R172). -/
  | add (setFlags : Bool) (rd : ArmReg) (a b : Word) : ArmEffect s (addBody s setFlags rd a b)
  /-- `LDR` in every mode (R191). -/
  | load {addr v : Word} {u : State} (rd rn : ArmReg) (wb : Option Word) (hread : memRead s addr = .next (v, u)) :
    ArmEffect s ((u.writeBase rn wb).writeArm rd v).advance
  /-- `STR` in every mode (R201). -/
  | store {addr v : Word} {u : State} (rn : ArmReg) (wb : Option Word) (hwrite : memWrite s addr v = .next u) :
    ArmEffect s (u.writeBase rn wb).advance

/-- The next states a MIPS instruction can answer from `s`: one constructor per kind of change. -/
inductive MipsEffect (s : State) : State → Prop
  /-- `beq` that is not taken (R156). -/
  | skip : MipsEffect s s.advance
  /-- `beq` that is taken (R156). -/
  | branch (imm : BitVec 16) : MipsEffect s (s.jumpTo (mipsBranchTarget s.pc imm))
  /-- `j` (R157). -/
  | jump (target : BitVec 26) : MipsEffect s (s.jumpTo (mipsJumpTarget s.pc target))
  /-- `add` and `addi` (R152, R153). -/
  | add (r : MipsReg) (v : Word) : MipsEffect s (s.writeMips r v).advance
  /-- `lw` (R154). -/
  | load {addr v : Word} {u : State} (rt : MipsReg) (hread : memRead s addr = .next (v, u)) :
    MipsEffect s (u.writeMips rt v).advance
  /-- `sw` (R155). -/
  | store {addr v : Word} {u : State} (hwrite : memWrite s addr v = .next u) : MipsEffect s u.advance

/-- A conditional instruction skips or has the effect of its body. -/
theorem ArmEffect.of_whenPassed {c : Cond} {s t : State} {body : Res State} (h : whenPassed c s body = .next t)
    (hbody : body = .next t → ArmEffect s t) : ArmEffect s t := by
  obtain ⟨-, h⟩ | ⟨-, rfl⟩ := whenPassed_eq_next.mp h
  · exact hbody h
  · exact .skip

theorem ArmEffect.of_loadBody {s t : State} {rd rn : ArmReg} {m : DtMode} (h : loadBody s rd rn m = .next t) :
    ArmEffect s t := by
  obtain ⟨-, x, v, u, -, hread, rfl⟩ := loadBody_eq_next h
  exact .load rd rn x.2 hread

theorem ArmEffect.of_storeBody {s t : State} {rd rn : ArmReg} {m : DtMode} (h : storeBody s rd rn m = .next t) :
    ArmEffect s t := by
  obtain ⟨-, x, v, u, -, -, hwrite, rfl⟩ := storeBody_eq_next h
  exact .store rn x.2 hwrite

theorem ArmEffect.of_execArmAddReg {s t : State} {c : Cond} {setFlags : Bool} {rd rn rm : ArmReg} {sh : BitVec 5}
    (h : execArmAddReg c setFlags rd rn rm sh s = .next t) : ArmEffect s t := by
  refine .of_whenPassed h fun h => ?_
  obtain ⟨a, -, h⟩ := andThen_eq_next.mp h
  obtain ⟨b, -, h⟩ := andThen_eq_next.mp h
  cases h
  exact .add ..

theorem ArmEffect.of_execArmAddImm {s t : State} {c : Cond} {setFlags : Bool} {rd rn : ArmReg} {imm : BitVec 12}
    (h : execArmAddImm c setFlags rd rn imm s = .next t) : ArmEffect s t := by
  unfold execArmAddImm at h
  split at h
  next =>
    refine .of_whenPassed h fun h => ?_
    obtain ⟨a, -, h⟩ := andThen_eq_next.mp h
    cases h
    exact .add ..
  next => split at h <;> cases h

/-- An ARM instruction that answers has one of the ARM effects. -/
theorem exec_armEffect {i : Instr} {s t : State} (hisa : i.isa = .arm) (h : exec i s = .next t) : ArmEffect s t := by
  cases i with
  | armAddReg => exact .of_execArmAddReg h
  | armAddImm => exact .of_execArmAddImm h
  | armB c imm => exact .of_whenPassed h fun h => by cases h; exact .branch imm
  | armBl c imm => exact .of_whenPassed h fun h => by cases h; exact .link imm
  | armLdrImm | armLdrIndexed => exact .of_whenPassed h .of_loadBody
  | armStr => exact .of_whenPassed h .of_storeBody
  | mipsAdd | mipsAddi | mipsLw | mipsSw | mipsBeq | mipsJ => cases hisa

/-- What `beq` and `j` do when they answer (R274). -/
theorem withoutDelaySlot_eq_next {s t : State} {body : Res State} (h : withoutDelaySlot s body = .next t) :
    body = .next t := by
  unfold withoutDelaySlot at h
  split at h
  · cases h
  · exact h

theorem MipsEffect.of_execMipsBeq {s t : State} {rs rt : MipsReg} {imm : BitVec 16}
    (h : execMipsBeq rs rt imm s = .next t) : MipsEffect s t := by
  obtain ⟨a, -, h⟩ := andThen_eq_next.mp (withoutDelaySlot_eq_next h)
  obtain ⟨b, -, h⟩ := andThen_eq_next.mp h
  cases h
  split
  · exact .branch imm
  · exact .skip

/-- A MIPS instruction that answers has one of the MIPS effects. -/
theorem exec_mipsEffect {i : Instr} {s t : State} (hisa : i.isa = .mips) (h : exec i s = .next t) :
    MipsEffect s t := by
  cases i with
  | mipsAdd =>
    obtain ⟨a, -, h⟩ := andThen_eq_next.mp h
    obtain ⟨b, -, h⟩ := andThen_eq_next.mp h
    obtain ⟨r, -, h⟩ := andThen_eq_next.mp h
    cases h
    exact .add ..
  | mipsAddi =>
    obtain ⟨a, -, h⟩ := andThen_eq_next.mp h
    obtain ⟨r, -, h⟩ := andThen_eq_next.mp h
    cases h
    exact .add ..
  | mipsLw rt =>
    obtain ⟨addr, -, h⟩ := andThen_eq_next.mp h
    obtain ⟨⟨v, u⟩, hread, h⟩ := andThen_eq_next.mp h
    cases h
    exact .load rt hread
  | mipsSw =>
    obtain ⟨addr, -, h⟩ := andThen_eq_next.mp h
    obtain ⟨v, -, h⟩ := andThen_eq_next.mp h
    obtain ⟨u, hwrite, h⟩ := andThen_eq_next.mp h
    cases h
    exact .store hwrite
  | mipsBeq => exact .of_execMipsBeq h
  | mipsJ target => cases withoutDelaySlot_eq_next h; exact .jump target
  | armAddReg | armAddImm | armLdrImm | armB | armBl | armLdrIndexed | armStr => cases hisa

/-- A step that answers has an effect of the run's own machine (R3). -/
theorem step_effect {s t : State} (h : step s = .next t) :
    (s.params.isa = .arm ∧ ArmEffect s t) ∨ (s.params.isa = .mips ∧ MipsEffect s t) := by
  obtain ⟨x, i, -, hread, hexec⟩ := step_eq_next.mp h
  have hisa : i.isa = s.params.isa := readSlot_isa hread
  cases hs : s.params.isa with
  | arm => exact .inl ⟨rfl, exec_armEffect (hisa.trans hs) hexec⟩
  | mips => exact .inr ⟨rfl, exec_mipsEffect (hisa.trans hs) hexec⟩

/-! ### What the effects leave unchanged -/

/-- A word read changes at most the count of draws (R58). -/
theorem memRead_frame {s u : State} {addr v : Word} (h : memRead s addr = .next (v, u)) :
    u = { s with draws := u.draws } := by
  obtain ⟨-, ⟨-, -, rfl⟩ | ⟨-, -, -, rfl⟩⟩ := memRead_cases h <;> rfl

/-- A word write changes at most memory and the events (R57, R58). -/
theorem memWrite_frame {s u : State} {addr v : Word} (h : memWrite s addr v = .next u) :
    u = { s with mem := u.mem, events := u.events } := by
  obtain ⟨-, -, ⟨-, rfl⟩ | ⟨-, -, rfl⟩⟩ := memWrite_cases h <;> rfl

/-- `ADD` leaves the parameters and the MIPS registers (R172). -/
theorem addBody_frame (s : State) (setFlags : Bool) (rd : ArmReg) (a b : Word) :
    (addBody s setFlags rd a b).params = s.params ∧ (addBody s setFlags rd a b).mipsX = s.mipsX := by
  cases setFlags <;> exact ⟨rfl, rfl⟩

/-- An ARM instruction leaves the parameters and the MIPS registers (R3, R32). -/
theorem ArmEffect.frame {s t : State} (h : ArmEffect s t) : t.params = s.params ∧ t.mipsX = s.mipsX := by
  cases h with
  | skip | branch | link => exact ⟨rfl, rfl⟩
  | add => exact addBody_frame ..
  | load _ _ _ hread => rw [memRead_frame hread]; simp
  | store _ _ hwrite => rw [memWrite_frame hwrite]; simp

/-- A MIPS instruction leaves the parameters, the ARM registers and the flags (R3, R32). -/
theorem MipsEffect.frame {s t : State} (h : MipsEffect s t) :
    t.params = s.params ∧ t.armX = s.armX ∧ ∀ f : Flag, t.flag f = s.flag f := by
  suffices t.params = s.params ∧ t.armX = s.armX ∧
      t.flagN = s.flagN ∧ t.flagZ = s.flagZ ∧ t.flagC = s.flagC ∧ t.flagV = s.flagV by
    obtain ⟨hp, hx, hn, hz, hc, hv⟩ := this
    exact ⟨hp, hx, State.flag_congr hn hz hc hv⟩
  cases h with
  | skip | branch | jump | add => simp
  | load _ hread => rw [memRead_frame hread]; simp
  | store hwrite => rw [memWrite_frame hwrite]; simp

/-- Settles O49, from the frames of the two machines' effects. -/
theorem stepKeepsParameters : Obligations.StepKeepsParameters := by
  intro s t h
  obtain ⟨-, heff⟩ | ⟨-, heff⟩ := step_effect h
  · exact heff.frame.1
  · exact heff.frame.1

/-- Settles O50, from the frames of the two machines' effects: a step of a run of one machine has no effect of the
other. -/
theorem machinesAreIndependent : Obligations.MachinesAreIndependent := by
  intro s t h
  obtain ⟨hisa, heff⟩ | ⟨hisa, heff⟩ := step_effect h
  · exact ⟨fun _ => heff.frame.2, fun hmips => (nomatch hisa.symm.trans hmips)⟩
  · exact ⟨fun harm => (nomatch hisa.symm.trans harm), fun _ => heff.frame.2⟩

end Sys2Proof.Machine

/-! ### Words of the DP and DT formats, and register fields that hold 15 (R21, R89, R107) -/

namespace Sys2Proof

/-- Only the field 15 names condition NV (R90). -/
theorem Cond.ofBits_ne_nv {b : BitVec 4} (h : b ≠ 15#4) : Cond.ofBits b ≠ .nv := fun hnv =>
  h ((Cond.bits_ofBits b).symm.trans (congrArg Cond.bits hnv))

/-- With `F` 0 or 1 the selector `w[27:24]` is below 8 (R88, R89). -/
theorem selector_lt_eight {w : Word} (hF : w.extractLsb' 26 2 = 0#2 ∨ w.extractLsb' 26 2 = 1#2) :
    w.extractLsb' 24 4 < 8#4 := by
  have hsel : (w.extractLsb' 24 4).extractLsb' 2 2 = w.extractLsb' 26 2 := by
    ext i hi
    have hin : 2 + i < 4 := by omega
    simp [hin, show 24 + (2 + i) = 26 + i by omega]
  rw [← hsel] at hF
  revert hF
  generalize w.extractLsb' 24 4 = sel
  revert sel
  decide

/-- A legal `ARM_BL_FIELD4` is 8 or above (R99). -/
theorem Params.armBlField4_ne_of_lt {p : Params} (hp : p.blFieldOk = true) {f : BitVec 4} (hf : f < 8#4) :
    p.armBlField4 ≠ some f := by
  intro h
  have hle : 8#4 ≤ f := by simp_all [Params.blFieldOk]
  exact absurd hf (BitVec.not_lt.mpr hle)

/-- A word with `F` 0 or 1 and a condition other than NV is read by `F` alone: it is no branch (R89, R107). -/
theorem decodeArm_of_not_branch {p : Params} {w : Word} (hp : p.blFieldOk = true) (hc : w.extractLsb' 28 4 ≠ 15#4)
    (hF : w.extractLsb' 26 2 = 0#2 ∨ w.extractLsb' 26 2 = 1#2) :
    decodeArm p w =
      if w.extractLsb' 26 2 = 0#2 then decodeDp p (Cond.ofBits (w.extractLsb' 28 4)) w
      else decodeDt p (Cond.ofBits (w.extractLsb' 28 4)) w := by
  have hsel := selector_lt_eight hF
  have hb : w.extractLsb' 24 4 ≠ 12#4 := fun h => absurd (h ▸ hsel) (by decide)
  simp only [decodeArm, if_neg (Cond.ofBits_ne_nv hc), if_neg hb, if_neg (Params.armBlField4_ne_of_lt hp hsel)]
  split
  · rfl
  next hdp => exact if_pos (hF.resolve_left hdp)

/-- Case 0 of `DecodeARM` (R107). -/
theorem decodeArm_dp {p : Params} {w : Word} (hp : p.blFieldOk = true) (hc : w.extractLsb' 28 4 ≠ 15#4)
    (hF : w.extractLsb' 26 2 = 0#2) : decodeArm p w = decodeDp p (Cond.ofBits (w.extractLsb' 28 4)) w :=
  (decodeArm_of_not_branch hp hc (.inl hF)).trans (if_pos hF)

/-- Case 1 of `DecodeARM` (R107). -/
theorem decodeArm_dt {p : Params} {w : Word} (hp : p.blFieldOk = true) (hc : w.extractLsb' 28 4 ≠ 15#4)
    (hF : w.extractLsb' 26 2 = 1#2) : decodeArm p w = decodeDt p (Cond.ofBits (w.extractLsb' 28 4)) w :=
  (decodeArm_of_not_branch hp hc (.inr hF)).trans (if_neg (by simp [hF]))

/-- A field that names a register does not hold 15 (R21). -/
theorem armReg?_ne_fifteen {b : BitVec 4} {r : ArmReg} (h : armReg? b = some r) : b ≠ 15#4 := fun hb =>
  nomatch h.symm.trans (armReg?_eq_none.mpr hb)

/-- An `ADD` word with 15 in a register field is refused, before its operand form is looked at (R21, R242). -/
theorem decodeDp_fifteen {p : Params} {cond : Cond} {w : Word} (hopc : w.extractLsb' 21 4 = 4#4)
    (h15 : w.extractLsb' 16 4 = 15#4 ∨ w.extractLsb' 12 4 = 15#4 ∨
      (w.extractLsb' 25 1 = 0#1 ∧ w.extractLsb' 0 4 = 15#4)) : decodeDp p cond w = .refusedR15 := by
  unfold decodeDp
  rw [if_neg (not_not.mpr hopc)]
  split
  next rn rd hn hd =>
    obtain ⟨hreg, hm⟩ := (h15.resolve_left (armReg?_ne_fifteen hn)).resolve_left (armReg?_ne_fifteen hd)
    rw [if_neg (by simp [hreg]), armReg?_eq_none.mpr hm]
  next => rfl

/-- A register offset by register 15 is refused, before its shift field is looked at (R21, R98). -/
theorem decodeRegOffset_fifteen {off : BitVec 12} (h : off.extractLsb' 0 4 = 15#4) (scaled : Bool)
    (k : ArmReg → BitVec 5 → Instr) : decodeRegOffset scaled off k = .refusedR15 := by
  rw [decodeRegOffset, armReg?_eq_none.mpr h]

/-- The modes with an offset register refuse register 15 (R21, R190). -/
theorem decodeDtOperands_fifteen {k : DtKey} {off : BitVec 12}
    (hk : k.mode ∈ [ModeNumber.m6, .m7, .m10, .m11, .m12]) (h : off.extractLsb' 0 4 = 15#4) (cond : Cond)
    (rd rn : ArmReg) : decodeDtOperands k cond rd rn off = .refusedR15 := by
  obtain ⟨op, mode⟩ := k
  cases mode with
  | m6 | m7 | m10 | m11 | m12 =>
    unfold decodeDtOperands
    exact decodeRegOffset_fifteen h ..
  | m5 | m8 | m9 => simp at hk

/-- A transfer word with 15 in a register field is refused (R21). -/
theorem decodeDt_fifteen {p : Params} {cond : Cond} {w : Word} {k : DtKey}
    (hkey : p.dtKeyOf (w.extractLsb' 20 6) = some k)
    (h15 : w.extractLsb' 16 4 = 15#4 ∨ w.extractLsb' 12 4 = 15#4 ∨
      (k.mode ∈ [ModeNumber.m6, .m7, .m10, .m11, .m12] ∧ w.extractLsb' 0 4 = 15#4)) :
    decodeDt p cond w = .refusedR15 := by
  unfold decodeDt
  rw [hkey]
  split
  next h => cases h
  next k' h =>
  cases h
  split
  next rn rd hn hd =>
    obtain ⟨hmode, hm⟩ := (h15.resolve_left (armReg?_ne_fifteen hn)).resolve_left (armReg?_ne_fifteen hd)
    have hoff : (w.extractLsb' 0 12).extractLsb' 0 4 = 15#4 := by
      rw [← hm]
      ext i hi
      simp
    exact decodeDtOperands_fifteen hmode hoff ..
  next => rfl

end Sys2Proof

namespace Sys2Proof.Machine

/-- The step of a fetched word of an ARM run follows the ARM decoder (R170). -/
theorem step_of_fetch_arm_word {s : State} {w : Word} (harm : s.params.isa = .arm) (h : fetch s = .next (.word w)) :
    step s = andThen (ofDecoded s.pc w (decodeArm s.params w)) fun i => exec i s := by
  rw [step_of_fetch_word h, decode, harm]

/-- Settles O10: with `F` 0 or 1 the word reaches the decoder of its format, and that refuses the register field. -/
theorem registerFifteenIsRefused : Obligations.RegisterFifteenIsRefused := by
  intro s w harm hbl hf hc
  have refused (hd : decodeArm s.params w = .refusedR15) : step s = .refused (.refusedR15 s.pc (some w)) := by
    rw [step_of_fetch_arm_word harm hf, hd]
    rfl
  refine ⟨fun hF hopc h15 => refused ?_, fun k hF hkey h15 => refused ?_⟩
  · exact (decodeArm_dp hbl hc hF).trans (decodeDp_fifteen hopc h15)
  · exact (decodeArm_dt hbl hc hF).trans (decodeDt_fifteen hkey h15)

/-! ### What `ADD` makes of the other fields -/

@[simp] theorem addBody_pc (s : State) (setFlags : Bool) (rd : ArmReg) (a b : Word) :
    (addBody s setFlags rd a b).pc = s.pc + 4 := by
  cases setFlags <;> rfl

@[simp] theorem addBody_mem (s : State) (setFlags : Bool) (rd : ArmReg) (a b : Word) :
    (addBody s setFlags rd a b).mem = s.mem := by
  cases setFlags <;> rfl

/-- `ADD` with `S = 0` leaves the flags (R172). -/
theorem addBody_flag (s : State) (rd : ArmReg) (a b : Word) (f : Flag) :
    (addBody s false rd a b).flag f = s.flag f := by
  cases f <;> rfl

/-- `ADD` with `S = 1` gives every flag a value (R173). -/
theorem addBody_flag_isSome (s : State) (rd : ArmReg) (a b : Word) (f : Flag) :
    ((addBody s true rd a b).flag f).isSome := by
  cases f <;> rfl

/-! ### MIPS register 0 -/

/-- Settles O34: the three clauses are the read of register 0, the discarded write and the read after a write. -/
theorem mipsRegisterZeroIsHardwired : Obligations.MipsRegisterZeroIsHardwired := by
  intro s v
  refine ⟨readMips_of_some s.mipsValue_zero, rfl, fun r q hr => ?_⟩
  have hval : r.val ≠ 0 := fun h => hr (Fin.ext h)
  simp [State.mipsValue_writeMips, hval, eq_comm]

/-! ### What a step does to memory -/

/-- A word read leaves memory (R57, R58). -/
theorem memRead_mem {s u : State} {addr v : Word} (h : memRead s addr = .next (v, u)) : u.mem = s.mem := by
  rw [memRead_frame h]

/-- A word write keeps memory canonical: an aligned word lies below 2^32 (R57). -/
theorem memWrite_keeps_wf {s u : State} {addr v : Word} (hm : Memory.wf s.mem) (h : memWrite s addr v = .next u) :
    Memory.wf u.mem := by
  obtain ⟨ha, -, ⟨-, rfl⟩ | ⟨-, -, rfl⟩⟩ := memWrite_cases h
  · exact hm
  · exact Memory.wf_storeWord hm (aligned_add_three_lt ha)

/-- An ARM instruction leaves memory, or has the memory of one word write (R55). -/
theorem ArmEffect.mem {s t : State} (h : ArmEffect s t) :
    t.mem = s.mem ∨ ∃ addr v u, memWrite s addr v = .next u ∧ t.mem = u.mem := by
  cases h with
  | skip | branch | link | add => left; simp
  | load _ _ _ hread => left; simp [memRead_mem hread]
  | store _ _ hwrite => exact .inr ⟨_, _, _, hwrite, by simp⟩

/-- A MIPS instruction leaves memory, or has the memory of one word write (R55). -/
theorem MipsEffect.mem {s t : State} (h : MipsEffect s t) :
    t.mem = s.mem ∨ ∃ addr v u, memWrite s addr v = .next u ∧ t.mem = u.mem := by
  cases h with
  | skip | branch | jump | add => left; simp
  | load _ hread => left; simp [memRead_mem hread]
  | store hwrite => exact .inr ⟨_, _, _, hwrite, by simp⟩

/-- A step leaves memory, or has the memory of one word write (R55). -/
theorem step_mem {s t : State} (h : step s = .next t) :
    t.mem = s.mem ∨ ∃ addr v u, memWrite s addr v = .next u ∧ t.mem = u.mem := by
  obtain ⟨-, heff⟩ | ⟨-, heff⟩ := step_effect h <;> exact heff.mem

/-- Settles O51: a step's one word write keeps the canonical form. -/
theorem stepKeepsMemoryCanonical : Obligations.StepKeepsMemoryCanonical := by
  intro s t hwf h
  obtain hmem | ⟨addr, v, u, hwrite, hmem⟩ := step_mem h
  · exact hmem ▸ hwf
  · exact hmem ▸ memWrite_keeps_wf hwf hwrite

/-! ### The pc after a step -/

theorem memWrite_pc {s u : State} {addr v : Word} (h : memWrite s addr v = .next u) : u.pc = s.pc := by
  rw [memWrite_frame h]

theorem memRead_pc {s u : State} {addr v : Word} (h : memRead s addr = .next (v, u)) : u.pc = s.pc := by
  rw [memRead_frame h]

/-- An ARM instruction ends at the next instruction or at a branch target (R23). -/
theorem ArmEffect.pc {s t : State} (h : ArmEffect s t) :
    t.pc = s.pc + 4 ∨ ∃ imm, t.pc = armBranchTarget s.params s.pc imm := by
  cases h with
  | skip | add => left; simp
  | branch imm | link imm => exact .inr ⟨imm, rfl⟩
  | load _ _ _ hread => left; simp [memRead_pc hread]
  | store _ _ hwrite => left; simp [memWrite_pc hwrite]

/-- A MIPS instruction ends at the next instruction, at a branch target or at a jump target (R27). -/
theorem MipsEffect.pc {s t : State} (h : MipsEffect s t) :
    t.pc = s.pc + 4 ∨ (∃ imm, t.pc = mipsBranchTarget s.pc imm) ∨ ∃ target, t.pc = mipsJumpTarget s.pc target := by
  cases h with
  | skip | add => left; simp
  | branch imm => exact .inr (.inl ⟨imm, rfl⟩)
  | jump target => exact .inr (.inr ⟨target, rfl⟩)
  | load _ hread => left; simp [memRead_pc hread]
  | store hwrite => left; simp [memWrite_pc hwrite]

/-- A sum of multiples of 4, modulo 2^32, is one. -/
theorem add_aligned {a b : Word} (ha : a.toNat % 4 = 0) (hb : b.toNat % 4 = 0) : (a + b).toNat % 4 = 0 := by
  rw [BitVec.toNat_add]
  omega

/-- A displacement shifted left by 2 is a multiple of 4 (R133, R221). -/
theorem shiftLeft_two_aligned (a : Word) : (a <<< 2).toNat % 4 = 0 := by
  rw [BitVec.toNat_shiftLeft, Nat.shiftLeft_eq]
  omega

/-- Two words put together bit by bit are a multiple of 4 when both are. -/
theorem or_aligned {a b : Word} (ha : a.toNat % 4 = 0) (hb : b.toNat % 4 = 0) : (a ||| b).toNat % 4 = 0 := by
  rw [BitVec.toNat_or, show 4 = 2 ^ 2 from rfl, Nat.or_mod_two_pow]
  simp [ha, hb]

/-- A field at bit 2 or above is a multiple of 4. -/
theorem place_aligned {n lo : Nat} (hlo : 2 ≤ lo) (f : BitVec n) : (place 32 lo f).toNat % 4 = 0 := by
  obtain ⟨k, rfl⟩ := Nat.exists_eq_add_of_le' hlo
  rw [place, BitVec.shiftLeft_add]
  exact shiftLeft_two_aligned _

/-- An ARM branch target is aligned when the pc and `ARM_PC_READ_OFFSET` are (R221, R224). -/
theorem armBranchTarget_aligned {p : Params} {pc : Word} (hpc : pc.toNat % 4 = 0)
    (hoff : p.armPcReadOffset.toNat % 4 = 0) (imm : BitVec 24) : (armBranchTarget p pc imm).toNat % 4 = 0 :=
  add_aligned (add_aligned hpc hoff) (shiftLeft_two_aligned _)

/-- A `beq` target is aligned when the pc is (R133). -/
theorem mipsBranchTarget_aligned {pc : Word} (hpc : pc.toNat % 4 = 0) (imm : BitVec 16) :
    (mipsBranchTarget pc imm).toNat % 4 = 0 :=
  add_aligned (add_aligned hpc rfl) (shiftLeft_two_aligned _)

/-- A `j` target is aligned (R134). -/
theorem mipsJumpTarget_aligned (pc : Word) (target : BitVec 26) : (mipsJumpTarget pc target).toNat % 4 = 0 :=
  or_aligned (or_aligned (place_aligned (by decide) _) (place_aligned (by decide) _)) rfl

/-- Settles O52: `pc + 4` and the targets of all branches and jumps are aligned, and no step changes the parameter. -/
theorem stepKeepsPcAligned : Obligations.StepKeepsPcAligned := by
  intro s t hpc hoff h
  refine ⟨?_, (stepKeepsParameters s t h).symm ▸ hoff⟩
  unfold State.pcAligned
  obtain ⟨-, heff⟩ | ⟨-, heff⟩ := step_effect h
  · obtain hnext | ⟨imm, hbranch⟩ := heff.pc
    · exact hnext ▸ add_aligned hpc rfl
    · exact hbranch ▸ armBranchTarget_aligned hpc hoff imm
  · obtain hnext | ⟨imm, hbranch⟩ | ⟨target, hjump⟩ := heff.pc
    · exact hnext ▸ add_aligned hpc rfl
    · exact hbranch ▸ mipsBranchTarget_aligned hpc imm
    · exact hjump ▸ mipsJumpTarget_aligned s.pc target

/-! ### Registers and flags that hold no value (R33) -/

/-- The register or flag holds no value (R33). -/
def State.unwritten (s : State) : Location → Prop
  | .armReg r => s.armX[r] = none
  | .mipsReg r => s.mipsValue r = none
  | .flag f => s.flag f = none

/-- `allWritten` says that no register and no flag is unwritten. -/
theorem State.allWritten_iff {s : State} : s.allWritten ↔ ∀ what, ¬ s.unwritten what := by
  simp only [State.allWritten, Option.isSome_iff_ne_none]
  constructor
  · rintro ⟨harm, hflag, hmips⟩ what
    cases what with
    | armReg r => exact harm r
    | mipsReg r => exact hmips r
    | flag f => exact hflag f
  · intro h
    exact ⟨fun r => h (.armReg r), fun f => h (.flag f), fun r => h (.mipsReg r)⟩

/-- Which locations are unwritten depends on the registers and the flags alone. -/
theorem State.unwritten_congr {s t : State} (harm : t.armX = s.armX) (hmips : t.mipsX = s.mipsX)
    (hflag : ∀ f, t.flag f = s.flag f) (what : Location) : t.unwritten what ↔ s.unwritten what := by
  cases what with
  | armReg r => simp [State.unwritten, harm]
  | mipsReg r => simp [State.unwritten, State.mipsValue_congr hmips]
  | flag f => simp [State.unwritten, hflag]

@[simp] theorem State.unwritten_jumpTo (s : State) (target : Word) (what : Location) :
    (s.jumpTo target).unwritten what ↔ s.unwritten what :=
  unwritten_congr rfl rfl (State.flag_congr rfl rfl rfl rfl) what

@[simp] theorem State.unwritten_advance (s : State) (what : Location) : s.advance.unwritten what ↔ s.unwritten what :=
  s.unwritten_jumpTo _ what

/-- A write to an ARM register leaves no location unwritten that was written. -/
theorem State.unwritten_of_writeArm {s : State} {r : ArmReg} {v : Word} {what : Location}
    (h : (s.writeArm r v).unwritten what) : s.unwritten what := by
  cases what with
  | armReg q =>
    simp only [State.unwritten, State.armX_writeArm] at h ⊢
    split at h
    · cases h
    · exact h
  | mipsReg q => exact (State.mipsValue_congr (State.writeArm_mipsX ..) q).symm.trans h
  | flag f => exact (State.flag_congr rfl rfl rfl rfl f).symm.trans h

theorem State.unwritten_of_writeBase {s : State} {rn : ArmReg} {wb : Option Word} {what : Location}
    (h : (s.writeBase rn wb).unwritten what) : s.unwritten what := by
  cases wb with
  | some v => exact unwritten_of_writeArm h
  | none => exact h

/-- A write to a MIPS register leaves no location unwritten that was written. -/
theorem State.unwritten_of_writeMips {s : State} {r : MipsReg} {v : Word} {what : Location}
    (h : (s.writeMips r v).unwritten what) : s.unwritten what := by
  cases what with
  | armReg q => simpa [State.unwritten] using h
  | mipsReg q =>
    simp only [State.unwritten, State.mipsValue_writeMips] at h ⊢
    split at h
    · cases h
    · exact h
  | flag f => exact (State.flag_congr (by simp) (by simp) (by simp) (by simp) f).symm.trans h

/-- Setting the flags leaves no location unwritten that was written (R173). -/
theorem State.unwritten_of_setFlagsAdd {s : State} {a b r : Word} {what : Location}
    (h : (s.setFlagsAdd a b r).unwritten what) : s.unwritten what := by
  cases what with
  | armReg q => exact h
  | mipsReg q => exact (State.mipsValue_congr rfl q).symm.trans h
  | flag f => cases f <;> cases h

theorem unwritten_of_addBody {s : State} {setFlags : Bool} {rd : ArmReg} {a b : Word} {what : Location}
    (h : (addBody s setFlags rd a b).unwritten what) : s.unwritten what := by
  replace h := (State.unwritten_advance ..).mp h
  cases setFlags with
  | false => exact State.unwritten_of_writeArm h
  | true => exact State.unwritten_of_writeArm (State.unwritten_of_setFlagsAdd h)

theorem memRead_unwritten {s u : State} {addr v : Word} (h : memRead s addr = .next (v, u)) (what : Location) :
    u.unwritten what ↔ s.unwritten what := by
  rw [memRead_frame h]
  exact State.unwritten_congr rfl rfl (State.flag_congr rfl rfl rfl rfl) what

theorem memWrite_unwritten {s u : State} {addr v : Word} (h : memWrite s addr v = .next u) (what : Location) :
    u.unwritten what ↔ s.unwritten what := by
  rw [memWrite_frame h]
  exact State.unwritten_congr rfl rfl (State.flag_congr rfl rfl rfl rfl) what

/-- No ARM instruction takes a value away from a register or a flag. -/
theorem ArmEffect.unwritten {s t : State} (h : ArmEffect s t) {what : Location} (ht : t.unwritten what) :
    s.unwritten what := by
  cases h with
  | skip | branch => simpa using ht
  | link => exact State.unwritten_of_writeArm ((State.unwritten_jumpTo ..).mp ht)
  | add => exact unwritten_of_addBody ht
  | load _ _ _ hread =>
    have hu := State.unwritten_of_writeBase (State.unwritten_of_writeArm ((State.unwritten_advance ..).mp ht))
    exact (memRead_unwritten hread what).mp hu
  | store _ _ hwrite =>
    have hu := State.unwritten_of_writeBase ((State.unwritten_advance ..).mp ht)
    exact (memWrite_unwritten hwrite what).mp hu

/-- No MIPS instruction takes a value away from a register or a flag. -/
theorem MipsEffect.unwritten {s t : State} (h : MipsEffect s t) {what : Location} (ht : t.unwritten what) :
    s.unwritten what := by
  cases h with
  | skip | branch | jump => simpa using ht
  | add => exact State.unwritten_of_writeMips ((State.unwritten_advance ..).mp ht)
  | load _ hread =>
    exact (memRead_unwritten hread what).mp (State.unwritten_of_writeMips ((State.unwritten_advance ..).mp ht))
  | store hwrite => exact (memWrite_unwritten hwrite what).mp ((State.unwritten_advance ..).mp ht)

/-! ### What the fault `UnwrittenRegister` names (R33, R241) -/

/-- If the fault is `UnwrittenRegister`, the location it names holds no value in `s`. -/
def Fault.NamesUnwritten (s : State) : Fault → Prop
  | .unwrittenRegister _ what => s.unwritten what
  | _ => True

/-- If the computation faults `UnwrittenRegister`, the location the fault names holds no value in `s`. -/
def BlamesUnwritten {α : Type} (s : State) : Res α → Prop
  | .next _ => True
  | .fault r => r.NamesUnwritten s
  | .refused _ => True

theorem BlamesUnwritten.andThen {α β : Type} {s : State} {o : Res α} {f : α → Res β} (ho : BlamesUnwritten s o)
    (hf : ∀ a, BlamesUnwritten s (f a)) : BlamesUnwritten s (andThen o f) := by
  cases o with
  | next a => exact hf a
  | fault r => exact ho
  | refused r => trivial

theorem BlamesUnwritten.ite {α : Type} {s : State} {c : Prop} [Decidable c] {o o' : Res α}
    (ho : BlamesUnwritten s o) (ho' : BlamesUnwritten s o') : BlamesUnwritten s (if c then o else o') := by
  split <;> assumption

theorem readArm_blames (s : State) (r : ArmReg) : BlamesUnwritten s (readArm s r) := by
  unfold readArm
  split
  · trivial
  next h => exact h

theorem readMips_blames (s : State) (r : MipsReg) : BlamesUnwritten s (readMips s r) := by
  unfold readMips
  split
  · trivial
  next h => exact h

theorem readFlag_blames (s : State) (f : Flag) : BlamesUnwritten s (readFlag s f) := by
  unfold readFlag
  split
  · trivial
  next h => exact h

theorem condPassed_blames (c : Cond) (s : State) : BlamesUnwritten s (condPassed c s) := by
  have read := readFlag_blames s
  cases c with
  | eq | hs | mi | vs => exact read _
  | ne | lo | pl | vc => exact (read _).andThen fun _ => trivial
  | hi | ls | ge | lt => exact (read _).andThen fun _ => (read _).andThen fun _ => trivial
  | gt | le => exact (read _).andThen fun _ => (read _).andThen fun _ => (read _).andThen fun _ => trivial
  | al | nv => trivial

theorem whenPassed_blames (c : Cond) {s : State} {body : Res State} (h : BlamesUnwritten s body) :
    BlamesUnwritten s (whenPassed c s body) :=
  (condPassed_blames c s).andThen fun _ => .ite h trivial

theorem memRead_blames (s : State) (addr : Word) : BlamesUnwritten s (memRead s addr) :=
  .ite trivial (.ite trivial (.ite trivial trivial))

theorem memWrite_blames (s : State) (addr v : Word) : BlamesUnwritten s (memWrite s addr v) :=
  .ite trivial (.ite trivial (.ite trivial (.ite trivial trivial)))

theorem readShifted_blames (s : State) (rm : ArmReg) (h : BitVec 5) : BlamesUnwritten s (readShifted s rm h) :=
  (readArm_blames s rm).andThen fun _ => trivial

theorem readOffset_blames (s : State) (m : DtMode) : BlamesUnwritten s (readOffset s m) := by
  cases m with
  | immOffset off => trivial
  | indexed m =>
    cases m with
    | immPre | immPost => trivial
    | regOffset | regPre | regPost => exact readArm_blames ..
    | scaledOffset | scaledPre => exact readShifted_blames ..

theorem dtAddress_blames (s : State) (rn : ArmReg) (m : DtMode) : BlamesUnwritten s (dtAddress s rn m) :=
  (readArm_blames s rn).andThen fun _ => (readOffset_blames s m).andThen fun _ => trivial

theorem loadBody_blames (s : State) (rd rn : ArmReg) (m : DtMode) : BlamesUnwritten s (loadBody s rd rn m) :=
  .ite trivial <| (dtAddress_blames s rn m).andThen fun _ => (memRead_blames s _).andThen fun _ => trivial

theorem storeBody_blames (s : State) (rd rn : ArmReg) (m : DtMode) : BlamesUnwritten s (storeBody s rd rn m) :=
  .ite trivial <| (dtAddress_blames s rn m).andThen fun _ => (readArm_blames s rd).andThen fun _ =>
    (memWrite_blames s _ _).andThen fun _ => trivial

theorem execArmAddImm_blames (c : Cond) (setFlags : Bool) (rd rn : ArmReg) (imm : BitVec 12) (s : State) :
    BlamesUnwritten s (execArmAddImm c setFlags rd rn imm s) := by
  unfold execArmAddImm
  split
  · exact whenPassed_blames c <| (readArm_blames s rn).andThen fun _ => trivial
  · exact .ite trivial trivial

theorem addSigned_blames (s : State) (a b : Word) : BlamesUnwritten s (addSigned s a b) :=
  .ite trivial trivial

theorem mipsAddress_blames (s : State) (rs : MipsReg) (imm : BitVec 16) : BlamesUnwritten s (mipsAddress s rs imm) :=
  (readMips_blames s rs).andThen fun _ => trivial

theorem withoutDelaySlot_blames {s : State} {body : Res State} (h : BlamesUnwritten s body) :
    BlamesUnwritten s (withoutDelaySlot s body) :=
  .ite trivial h

/-- An instruction that faults `UnwrittenRegister` names a location that holds no value (R33). -/
theorem exec_blames (i : Instr) (s : State) : BlamesUnwritten s (exec i s) := by
  cases i with
  | armAddReg c setFlags rd rn rm h =>
    exact whenPassed_blames c <| (readArm_blames s rn).andThen fun _ =>
      (readShifted_blames s rm h).andThen fun _ => trivial
  | armAddImm => exact execArmAddImm_blames ..
  | armB c | armBl c => exact whenPassed_blames c trivial
  | armLdrImm c | armLdrIndexed c => exact whenPassed_blames c (loadBody_blames ..)
  | armStr c => exact whenPassed_blames c (storeBody_blames ..)
  | mipsAdd rd rs rt =>
    exact (readMips_blames s rs).andThen fun _ => (readMips_blames s rt).andThen fun _ =>
      (addSigned_blames s _ _).andThen fun _ => trivial
  | mipsAddi rt rs => exact (readMips_blames s rs).andThen fun _ => (addSigned_blames s _ _).andThen fun _ => trivial
  | mipsLw rt rs imm => exact (mipsAddress_blames s rs imm).andThen fun _ => (memRead_blames s _).andThen fun _ => trivial
  | mipsSw rt rs imm =>
    exact (mipsAddress_blames s rs imm).andThen fun _ => (readMips_blames s rt).andThen fun _ =>
      (memWrite_blames s _ _).andThen fun _ => trivial
  | mipsBeq rs rt =>
    exact withoutDelaySlot_blames <| (readMips_blames s rs).andThen fun _ =>
      (readMips_blames s rt).andThen fun _ => trivial
  | mipsJ => exact withoutDelaySlot_blames trivial

theorem fetch_blames (s : State) : BlamesUnwritten s (fetch s) := by
  refine .ite trivial (.ite trivial (.ite trivial ?_))
  split <;> trivial

theorem readSlot_blames (s : State) (x : Slot) : BlamesUnwritten s (readSlot s x) := by
  cases x with
  | word w =>
    simp only [readSlot]
    cases decode s.params w with
    | ok | reservedCondition | illegalInstruction | refusedR15 | refusedOperandForm => trivial
  | term i => exact .ite trivial trivial

/-- A step that faults `UnwrittenRegister` names a location that holds no value (R33). -/
theorem step_blames (s : State) : BlamesUnwritten s (step s) :=
  (fetch_blames s).andThen fun x => (readSlot_blames s x).andThen fun i => exec_blames i s

/-- Settles O53: no step takes a value away, and `UnwrittenRegister` names a location that holds none. -/
theorem writtenRegistersStayWritten : Obligations.WrittenRegistersStayWritten := by
  intro s hs
  have hwritten := State.allWritten_iff.mp hs
  refine ⟨fun t h => State.allWritten_iff.mpr fun what ht => hwritten what ?_, fun pc what h => hwritten what ?_⟩
  · obtain ⟨-, heff⟩ | ⟨-, heff⟩ := step_effect h <;> exact heff.unwritten ht
  · have hblame := step_blames s
    rw [h] at hblame
    exact hblame

/-! ### Transfers that read an unwritten register -/

/-- A mode whose base holds no value faults on it (R33, R191). -/
theorem dtAddress_base_none {s : State} {rn : ArmReg} (h : s.armX[rn] = none) (m : DtMode) :
    dtAddress s rn m = .fault (.unwrittenRegister s.pc (.armReg rn)) := by
  simp [dtAddress, readArm_of_none h]

/-- A mode whose base is written and whose offset register holds no value faults on that (R33, R191). -/
theorem dtAddress_offset_none {s : State} {rn rm : ArmReg} {m : DtMode} {base : Word} (hn : s.armX[rn] = some base)
    (hm : offsetReg m = some rm) (h : s.armX[rm] = none) :
    dtAddress s rn m = .fault (.unwrittenRegister s.pc (.armReg rm)) := by
  simp [dtAddress, readArm_of_some hn, readOffset_of_none hm h]

/-- A load whose mode faults ends there (R191). -/
theorem loadBody_address_fault {s : State} {rd rn : ArmReg} {m : DtMode} {r : Fault}
    (hw : writebackClash rd rn m = false) (h : dtAddress s rn m = .fault r) : loadBody s rd rn m = .fault r := by
  simp [loadBody, hw, h]

/-- A store whose mode faults ends there (R201). -/
theorem storeBody_address_fault {s : State} {rd rn : ArmReg} {m : DtMode} {r : Fault}
    (hw : writebackClash rd rn m = false) (h : dtAddress s rn m = .fault r) : storeBody s rd rn m = .fault r := by
  simp [storeBody, hw, h]

/-- A store reads its data register before it checks the address (R201, R242). -/
theorem storeBody_data_none {s : State} {rd rn : ArmReg} {m : DtMode} {x : Word × Option Word}
    (hw : writebackClash rd rn m = false) (hx : dtAddress s rn m = .next x) (h : s.armX[rd] = none) :
    storeBody s rd rn m = .fault (.unwrittenRegister s.pc (.armReg rd)) := by
  simp [storeBody, hw, hx, readArm_of_none h]

/-- Settles O30: a transfer whose condition passes is its body, and that reads base, offset register and data in
order. -/
theorem transfersFaultOnUnwrittenRegistersInOrder : Obligations.TransfersFaultOnUnwrittenRegistersInOrder := by
  intro s cond rd rn m hc hw load store
  have hload : exec load s = loadBody s rd rn m := by
    cases m <;> exact whenPassed_of_true hc _
  have hstore : exec store s = storeBody s rd rn m := whenPassed_of_true hc _
  rw [hload, hstore]
  refine ⟨fun hn => ?_, fun base rm hn hm hnone => ?_, fun x hx hd => storeBody_data_none hw hx hd⟩
  · have hfault := dtAddress_base_none hn m
    exact ⟨loadBody_address_fault hw hfault, storeBody_address_fault hw hfault⟩
  · have hfault := dtAddress_offset_none hn hm hnone
    exact ⟨loadBody_address_fault hw hfault, storeBody_address_fault hw hfault⟩

/-! ### The pc and the flags after one instruction -/

/-- The pc moves on by 4 and no flag changes (R23, R24). -/
def AdvancesKeepingFlags (s t : State) : Prop := t.pc = s.pc + 4 ∧ ∀ f : Flag, t.flag f = s.flag f

/-- A load that answers ends with `pc + 4` and leaves the flags (R191). -/
theorem loadBody_frame {s t : State} {rd rn : ArmReg} {m : DtMode} (h : loadBody s rd rn m = .next t) :
    AdvancesKeepingFlags s t := by
  obtain ⟨-, x, v, u, -, hread, rfl⟩ := loadBody_eq_next h
  rw [memRead_frame hread]
  exact ⟨by simp, State.flag_congr (by simp) (by simp) (by simp) (by simp)⟩

/-- A store that answers ends with `pc + 4` and leaves the flags (R201). -/
theorem storeBody_frame {s t : State} {rd rn : ArmReg} {m : DtMode} (h : storeBody s rd rn m = .next t) :
    AdvancesKeepingFlags s t := by
  obtain ⟨-, x, v, u, -, -, hwrite, rfl⟩ := storeBody_eq_next h
  rw [memWrite_frame hwrite]
  exact ⟨by simp, State.flag_congr (by simp) (by simp) (by simp) (by simp)⟩

/-- Moving on to the next instruction does no more than that. -/
theorem advance_frame (s : State) : AdvancesKeepingFlags s s.advance :=
  ⟨rfl, State.flag_congr rfl rfl rfl rfl⟩

/-- A conditional instruction advances and keeps the flags when its body does (R170). -/
theorem whenPassed_frame {c : Cond} {s t : State} {body : Res State} (h : whenPassed c s body = .next t)
    (hbody : body = .next t → AdvancesKeepingFlags s t) : AdvancesKeepingFlags s t := by
  obtain ⟨-, h⟩ | ⟨-, rfl⟩ := whenPassed_eq_next.mp h
  · exact hbody h
  · exact advance_frame s

/-- `t` is what an `ADD` makes of `s`: a sum in `rd` when the condition passed, else only the next pc (R170, R172). -/
def AddAnswer (c : Cond) (setFlags : Bool) (rd : ArmReg) (s t : State) : Prop :=
  (condPassed c s = .next true ∧ ∃ a b, t = addBody s setFlags rd a b) ∨
    (condPassed c s = .next false ∧ t = s.advance)

/-- What an `ADD` of two registers that answers does (R170, R172). -/
theorem execArmAddReg_answer {c : Cond} {setFlags : Bool} {rd rn rm : ArmReg} {sh : BitVec 5} {s t : State}
    (h : execArmAddReg c setFlags rd rn rm sh s = .next t) : AddAnswer c setFlags rd s t := by
  obtain ⟨hc, h⟩ | hskip := whenPassed_eq_next.mp h
  · obtain ⟨a, -, h⟩ := andThen_eq_next.mp h
    obtain ⟨b, -, h⟩ := andThen_eq_next.mp h
    cases h
    exact .inl ⟨hc, a, b, rfl⟩
  · exact .inr hskip

/-- What an `ADD` with an immediate that answers does (R170, R172). -/
theorem execArmAddImm_answer {c : Cond} {setFlags : Bool} {rd rn : ArmReg} {imm : BitVec 12} {s t : State}
    (h : execArmAddImm c setFlags rd rn imm s = .next t) : AddAnswer c setFlags rd s t := by
  unfold execArmAddImm at h
  split at h
  next b _ =>
    obtain ⟨hc, h⟩ | hskip := whenPassed_eq_next.mp h
    · obtain ⟨a, -, h⟩ := andThen_eq_next.mp h
      cases h
      exact .inl ⟨hc, a, b, rfl⟩
    · exact .inr hskip
  next => split at h <;> cases h

/-- An `ADD` that answers ends with `pc + 4` (R23). -/
theorem AddAnswer.pc {c : Cond} {setFlags : Bool} {rd : ArmReg} {s t : State} (h : AddAnswer c setFlags rd s t) :
    t.pc = s.pc + 4 := by
  obtain ⟨-, a, b, rfl⟩ | ⟨-, rfl⟩ := h
  · exact addBody_pc ..
  · rfl

/-- An `ADD` writes the flags only when `S = 1` and its condition passed (R173). -/
theorem AddAnswer.flag {c : Cond} {setFlags : Bool} {rd : ArmReg} {s t : State} (h : AddAnswer c setFlags rd s t) :
    (∀ f : Flag, t.flag f = s.flag f) ∨
      ((∀ f : Flag, (t.flag f).isSome) ∧ setFlags = true ∧ condPassed c s = .next true) := by
  obtain ⟨hc, a, b, rfl⟩ | ⟨-, rfl⟩ := h
  · cases setFlags with
    | false => exact .inl (addBody_flag s rd a b)
    | true => exact .inr ⟨addBody_flag_isSome s rd a b, rfl, hc⟩
  · exact .inl (advance_frame s).2

/-- Settles O46, instruction by instruction. -/
theorem pcAdvancesExceptByBranches : Obligations.PcAdvancesExceptByBranches := by
  intro i s t h hbranch
  cases i with
  | armB | armBl | mipsBeq | mipsJ => exact hbranch.elim
  | armAddReg => exact (execArmAddReg_answer h).pc
  | armAddImm => exact (execArmAddImm_answer h).pc
  | armLdrImm | armLdrIndexed => exact (whenPassed_frame h loadBody_frame).1
  | armStr => exact (whenPassed_frame h storeBody_frame).1
  | mipsAdd =>
    obtain ⟨a, -, h⟩ := andThen_eq_next.mp h
    obtain ⟨b, -, h⟩ := andThen_eq_next.mp h
    obtain ⟨r, -, h⟩ := andThen_eq_next.mp h
    cases h
    simp
  | mipsAddi =>
    obtain ⟨a, -, h⟩ := andThen_eq_next.mp h
    obtain ⟨r, -, h⟩ := andThen_eq_next.mp h
    cases h
    simp
  | mipsLw =>
    obtain ⟨addr, -, h⟩ := andThen_eq_next.mp h
    obtain ⟨⟨v, u⟩, hread, h⟩ := andThen_eq_next.mp h
    cases h
    simp [memRead_pc hread]
  | mipsSw =>
    obtain ⟨addr, -, h⟩ := andThen_eq_next.mp h
    obtain ⟨v, -, h⟩ := andThen_eq_next.mp h
    obtain ⟨u, hwrite, h⟩ := andThen_eq_next.mp h
    cases h
    simp [memWrite_pc hwrite]

/-- Settles O47: of all instructions only the two `ADD`s reach the flags. -/
theorem onlyAddSWritesFlags : Obligations.OnlyAddSWritesFlags := by
  intro i s t h
  cases i with
  | armAddReg c setFlags rd rn rm sh =>
    obtain hkeep | ⟨hsome, rfl, hc⟩ := (execArmAddReg_answer h).flag
    · exact .inl hkeep
    · exact .inr ⟨hsome, .inl ⟨c, rd, rn, rm, sh, rfl, hc⟩⟩
  | armAddImm c setFlags rd rn imm =>
    obtain hkeep | ⟨hsome, rfl, hc⟩ := (execArmAddImm_answer h).flag
    · exact .inl hkeep
    · exact .inr ⟨hsome, .inr ⟨c, rd, rn, imm, rfl, hc⟩⟩
  | armLdrImm | armLdrIndexed => exact .inl (whenPassed_frame h loadBody_frame).2
  | armStr => exact .inl (whenPassed_frame h storeBody_frame).2
  | armB | armBl =>
    left
    obtain ⟨-, h⟩ | ⟨-, rfl⟩ := whenPassed_eq_next.mp h
    · cases h
      exact State.flag_congr rfl rfl rfl rfl
    · exact (advance_frame s).2
  | mipsAdd | mipsAddi | mipsLw | mipsSw | mipsBeq | mipsJ =>
    obtain ⟨-, -, hflag⟩ := (exec_mipsEffect rfl h).frame
    exact .inl hflag

/-! ### The state after reset -/

theorem reset_armX (r : ArmReg) : State.reset.armX[r] = some 0 :=
  Vector.getElem_replicate r.isLt

theorem reset_mipsValue (r : MipsReg) : State.reset.mipsValue r = some 0 := by
  obtain ⟨_ | k, hk⟩ := r
  · rfl
  · exact Vector.getElem_replicate _

theorem reset_flag (f : Flag) : State.reset.flag f = some false := by
  cases f <;> rfl

theorem reset_allWritten : State.reset.allWritten :=
  ⟨fun r => Option.isSome_of_eq_some (reset_armX r), fun f => Option.isSome_of_eq_some (reset_flag f),
    fun r => Option.isSome_of_eq_some (reset_mipsValue r)⟩

/-- Settles O58: the registers and flags by the lemmas above, the fixed parameters by evaluation. -/
theorem resetMeetsTheInvariants : Obligations.ResetMeetsTheInvariants :=
  ⟨rfl, reset_armX, reset_mipsValue, reset_flag, fun _ => rfl, by decide, by decide, rfl, rfl, reset_allWritten⟩

end Sys2Proof.Machine

/-! ### The fetch, check by check (R54) -/

namespace Sys2Proof.Machine

theorem inText_iff {p : Params} {a : Nat} :
    inText p a = true ↔ p.textBase.toNat ≤ a ∧ a < p.textBase.toNat + 4 * p.text.length :=
  decide_eq_true_iff

theorem fetch_misaligned {s : State} (h : s.pc.toNat % 4 ≠ 0) : fetch s = .fault (.fetchMisaligned s.pc) :=
  if_pos h

theorem fetch_at_end {s : State} (ha : s.pc.toNat % 4 = 0) (h : s.pc = endAddress s.params) :
    fetch s = .refused (.runEnded s.pc) := by
  rw [fetch, if_neg (not_not.mpr ha), if_pos h]

theorem fetch_outside_text {s : State} (ha : s.pc.toNat % 4 = 0) (hend : s.pc ≠ endAddress s.params)
    (h : inText s.params s.pc.toNat = false) : fetch s = .fault (.fetchOutsideText s.pc) := by
  simp [fetch, ha, hend, h]

theorem fetch_in_text {s : State} {x : Slot} (ha : s.pc.toNat % 4 = 0) (hend : s.pc ≠ endAddress s.params)
    (h : inText s.params s.pc.toNat = true)
    (hx : programSlot s.params.text ((s.pc.toNat - s.params.textBase.toNat) / 4) = some x) :
    fetch s = .next x := by
  simp [fetch, ha, hend, h, hx]

/-- Settles O18: the step stops where its fetch does, and the three clauses are the fetch's three checks. -/
theorem fetchChecksInOrder : Obligations.FetchChecksInOrder := by
  intro s
  refine ⟨fun ha => ?_, fun ha hend => ?_, fun ha hend hout => ?_⟩
  · rw [step, fetch_misaligned ha, andThen_fault]
  · rw [step, fetch_at_end ha hend, andThen_refused]
  · have hnot : inText s.params s.pc.toNat = false := by
      rw [← Bool.not_eq_true, inText_iff]
      omega
    rw [step, fetch_outside_text ha hend hnot, andThen_fault]

/-! ### The launch premises on the text and the regions (R271) -/

theorem mapOk_iff {p : Params} :
    p.mapOk = true ↔ p.textBase.toNat % 4 = 0 ∧ p.textBase.toNat + 4 * p.text.length ≤ 2 ^ 32 ∧
      (∀ d ∈ p.dataRegions, ∀ o ∈ p.ioRegions, d.disjoint o = true) ∧
      (∀ d ∈ p.dataRegions, d.offText p = true) ∧ ∀ o ∈ p.ioRegions, o.offText p = true := by
  simp [Params.mapOk, and_assoc]

/-- With an aligned text, the pc at `TEXT_BASE + 4k` fetches slot `k` (R54). -/
theorem fetch_slot {s : State} {k : Nat} {x : Slot} (hbase : s.params.textBase.toNat % 4 = 0)
    (hk : k < s.params.text.length) (hpc : s.pc.toNat = s.params.textBase.toNat + 4 * k)
    (hend : s.pc ≠ endAddress s.params) (hx : programSlot s.params.text k = some x) : fetch s = .next x := by
  have hindex : (s.pc.toNat - s.params.textBase.toNat) / 4 = k := by omega
  exact fetch_in_text (by omega) hend (inText_iff.mpr (by omega)) (hindex ▸ hx)

/-- Settles O19: the premises align the text, so slot `k` is the one fetched, at either level of program. -/
theorem fetchReadsTheSlotAtItsIndex : Obligations.FetchReadsTheSlotAtItsIndex := by
  intro s k hmap hk hpc hend
  obtain ⟨hbase, -⟩ := mapOk_iff.mp hmap
  have hfetch {x : Slot} : programSlot s.params.text k = some x → fetch s = .next x :=
    fetch_slot hbase hk hpc hend
  cases htext : s.params.text with
  | words ws =>
    rw [htext] at hk hfetch
    have hget : ws[k]? = some ws[k] := List.getElem?_eq_getElem hk
    exact ⟨.word ws[k], hfetch (by simp [programSlot, hget]), hget⟩
  | terms is =>
    rw [htext] at hk hfetch
    have hget : is[k]? = some is[k] := List.getElem?_eq_getElem hk
    exact ⟨.term is[k], hfetch (by simp [programSlot, hget]), hget⟩

/-! ### The bytes of a loaded word (R56, R57) -/

/-- Each byte a word is put together from is taken out of it again at its place. -/
theorem byteOf_wordOf (b3 b2 b1 b0 : Byte) :
    byteOf (wordOf b3 b2 b1 b0) 0 = b0 ∧ byteOf (wordOf b3 b2 b1 b0) 1 = b1 ∧
      byteOf (wordOf b3 b2 b1 b0) 2 = b2 ∧ byteOf (wordOf b3 b2 b1 b0) 3 = b3 := by
  unfold byteOf wordOf place
  refine ⟨?_, ?_, ?_, ?_⟩ <;> · ext k hk; interval_cases k <;> simp

/-- Settles O42, byte by byte: in big-endian order the bytes are put together the other way round. -/
theorem loadedWordIsItsBytes : Obligations.LoadedWordIsItsBytes := by
  intro m addr i hi
  obtain ⟨hl0, hl1, hl2, hl3⟩ := byteOf_wordOf (m.read (addr + 3)) (m.read (addr + 2)) (m.read (addr + 1)) (m.read addr)
  obtain ⟨hb0, hb1, hb2, hb3⟩ := byteOf_wordOf (m.read addr) (m.read (addr + 1)) (m.read (addr + 2)) (m.read (addr + 3))
  interval_cases i
  · exact ⟨hl0, hb0⟩
  · exact ⟨hl1, hb1⟩
  · exact ⟨hl2, hb2⟩
  · exact ⟨hl3, hb3⟩

/-! ### The address checks of the memory primitives, in their order (R57) -/

theorem memRead_misaligned {s : State} {addr : Word} (h : addr.toNat % 4 ≠ 0) :
    memRead s addr = .fault (.misalignedAccess s.pc addr) :=
  if_pos h

theorem memRead_unmapped {s : State} {addr : Word} (ha : addr.toNat % 4 = 0)
    (hd : wordInside s.params.dataRegions addr = false) (hi : wordInside s.params.ioRegions addr = false) :
    memRead s addr = .fault (.unmappedAccess s.pc addr) := by
  simp [memRead, ha, hd, hi]

theorem memWrite_misaligned {s : State} {addr : Word} (v : Word) (h : addr.toNat % 4 ≠ 0) :
    memWrite s addr v = .fault (.misalignedAccess s.pc addr) :=
  if_pos h

theorem memWrite_to_text {s : State} {addr : Word} (v : Word) (ha : addr.toNat % 4 = 0)
    (ht : wordTouchesText s.params addr = true) : memWrite s addr v = .fault (.storeToText s.pc addr) := by
  simp [memWrite, ha, ht]

theorem memWrite_unmapped {s : State} {addr : Word} (v : Word) (ha : addr.toNat % 4 = 0)
    (ht : wordTouchesText s.params addr = false) (hd : wordInside s.params.dataRegions addr = false)
    (hi : wordInside s.params.ioRegions addr = false) :
    memWrite s addr v = .fault (.unmappedAccess s.pc addr) := by
  simp [memWrite, ha, ht, hd, hi]

/-! ### A transfer is its memory access, once its registers are read -/

/-- A load whose condition passes is the common body of R191. -/
theorem exec_armLoad {i : Instr} {s : State} {c : Cond} {rd rn : ArmReg} {m : DtMode}
    (hi : i = DtOp.ldr.instr c rd rn m) (hc : condPassed c s = .next true) : exec i s = loadBody s rd rn m := by
  subst hi
  cases m <;> exact whenPassed_of_true hc _

/-- A store whose condition passes is the common body of R201. -/
theorem exec_armStr {s : State} {c : Cond} (hc : condPassed c s = .next true) (rd rn : ArmReg) (m : DtMode) :
    exec (.armStr c rd rn m) s = storeBody s rd rn m :=
  whenPassed_of_true hc _

theorem loadBody_of_address {s : State} {rd rn : ArmReg} {m : DtMode} {addr : Word} {wb : Option Word}
    (hw : writebackClash rd rn m = false) (hx : dtAddress s rn m = .next (addr, wb)) :
    loadBody s rd rn m =
      andThen (memRead s addr) fun y => .next ((y.2.writeBase rn wb).writeArm rd y.1).advance := by
  simp [loadBody, hw, hx]

theorem storeBody_of_address {s : State} {rd rn : ArmReg} {m : DtMode} {addr v : Word} {wb : Option Word}
    (hw : writebackClash rd rn m = false) (hx : dtAddress s rn m = .next (addr, wb)) (hv : s.armX[rd] = some v) :
    storeBody s rd rn m = andThen (memWrite s addr v) fun t => .next (t.writeBase rn wb).advance := by
  simp [storeBody, hw, hx, readArm_of_some hv]

/-- Base addressing adds the signed displacement (R132). -/
theorem mipsAddress_of_some {s : State} {rs : MipsReg} {base : Word} (h : s.mipsValue rs = some base)
    (imm : BitVec 16) : mipsAddress s rs imm = .next (base + BitVec.ofInt 32 imm.toInt) := by
  rw [mipsAddress, readMips_of_some h]
  rfl

theorem mipsAddress_of_none {s : State} {rs : MipsReg} (h : s.mipsValue rs = none) (imm : BitVec 16) :
    mipsAddress s rs imm = .fault (.unwrittenRegister s.pc (.mipsReg rs)) := by
  rw [mipsAddress, readMips_of_none h, andThen_fault]

theorem exec_mipsLw {s : State} {rs : MipsReg} {base : Word} (h : s.mipsValue rs = some base) (rt : MipsReg)
    (imm : BitVec 16) :
    exec (.mipsLw rt rs imm) s =
      andThen (memRead s (base + BitVec.ofInt 32 imm.toInt)) fun y => .next (y.2.writeMips rt y.1).advance := by
  simp only [exec, execMipsLw, mipsAddress_of_some h, andThen_next]

theorem exec_mipsSw {s : State} {rt rs : MipsReg} {base v : Word} (hb : s.mipsValue rs = some base)
    (hv : s.mipsValue rt = some v) (imm : BitVec 16) :
    exec (.mipsSw rt rs imm) s =
      andThen (memWrite s (base + BitVec.ofInt 32 imm.toInt) v) fun t => .next t.advance := by
  simp only [exec, execMipsSw, mipsAddress_of_some hb, readMips_of_some hv, andThen_next]

/-- Settles O31: a transfer with its registers read stops where its memory access does. -/
theorem transferAddressChecksInOrder : Obligations.TransferAddressChecksInOrder := by
  intro s cond rd rn m addr wb hc hw hx load unmapped
  have hload : exec load s = _ :=
    (exec_armLoad (by cases m <;> rfl) hc).trans (loadBody_of_address hw hx)
  refine ⟨fun ha => ?_, fun ha ⟨hd, hi⟩ => ?_, fun v hv => ?_⟩
  · rw [hload, memRead_misaligned ha, andThen_fault]
  · rw [hload, memRead_unmapped ha hd hi, andThen_fault]
  · rw [exec_armStr hc, storeBody_of_address hw hx hv]
    refine ⟨fun ha => ?_, fun ha ht => ?_, fun ha ht ⟨hd, hi⟩ => ?_⟩
    · rw [memWrite_misaligned v ha, andThen_fault]
    · rw [memWrite_to_text v ha ht, andThen_fault]
    · rw [memWrite_unmapped v ha ht hd hi, andThen_fault]

/-! ### `lw` and `sw` (R154, R155) -/

/-- A value written to a MIPS register and the pc moved on is the result that statements speak of (R26). -/
theorem mipsResult_writeMips (s : State) (r : MipsReg) (v : Word) :
    MipsResult s (s.writeMips r v).advance r v (s.pc + 4) := by
  refine ⟨fun q => ?_, ?_⟩
  · have hne : r.val ≠ 0 ↔ r ≠ 0 := not_congr (Fin.ext_iff (b := 0)).symm
    simp only [State.mipsValue_advance, State.mipsValue_writeMips, hne, eq_comm]
  · obtain ⟨_ | n, hn⟩ := r <;> rfl

/-- Settles O37: `lw` with its base read is a word read, then a register write. -/
theorem mipsLwResultAndFaults : Obligations.MipsLwResultAndFaults := by
  intro s rt rs imm
  refine ⟨fun base hb => ?_, fun hb => ?_⟩
  · rw [exec_mipsLw hb]
    refine ⟨fun ⟨ha, hd, hi⟩ => ?_, fun ha => ?_, fun ha hd hi => ?_⟩
    · exact ⟨_, by rw [memRead_data ha hd hi, andThen_next], mipsResult_writeMips ..⟩
    · rw [memRead_misaligned ha, andThen_fault]
    · rw [memRead_unmapped ha hd hi, andThen_fault]
  · simp only [exec, execMipsLw, mipsAddress_of_none hb, andThen_fault]

/-- Settles O38: `sw` with its registers read is a word write. -/
theorem mipsSwStoresAndFaults : Obligations.MipsSwStoresAndFaults := by
  intro s rt rs imm
  refine ⟨fun base hb => ⟨fun v hv => ?_, fun hv => ?_⟩, fun hb => ?_⟩
  · rw [exec_mipsSw hb hv]
    refine ⟨fun ⟨⟨ha, hd, hi⟩, ht⟩ => ?_, fun ha => ?_, fun ha ht => ?_, fun ha ht hd hi => ?_⟩
    · rw [memWrite_data ha ht hd hi]
      exact ⟨_, rfl, Memory.loadWord_storeWord .., fun x hx => Memory.read_storeWord_outside _ _ _ _ _ hx, rfl⟩
    · rw [memWrite_misaligned v ha, andThen_fault]
    · rw [memWrite_to_text v ha ht, andThen_fault]
    · rw [memWrite_unmapped v ha ht hd hi, andThen_fault]
  · simp only [exec, execMipsSw, mipsAddress_of_some hb, readMips_of_none hv, andThen_next, andThen_fault]
  · simp only [exec, execMipsSw, mipsAddress_of_none hb, andThen_fault]

/-! ### A load after a store to the same address (R62) -/

/-- `t` has the parameters of `s`, and its memory with the word `v` stored at `addr`. -/
def Stored (s t : State) (addr v : Word) : Prop :=
  t.params = s.params ∧ t.mem = s.mem.storeWord s.params.byteOrder addr.toNat v

/-- A store to plain memory that answers has stored its word (R57). -/
theorem stored_of_memWrite {s u : State} {addr v : Word} (hs : s.writable addr) (h : memWrite s addr v = .next u) :
    Stored s u addr v := by
  obtain ⟨⟨ha, hd, hi⟩, ht⟩ := hs
  rw [memWrite_data ha ht hd hi] at h
  cases h
  exact ⟨rfl, rfl⟩

/-- Where a word was stored, plain memory reads that word (R62). -/
theorem Stored.memRead {s t : State} {addr v : Word} (h : Stored s t addr v) (hs : s.writable addr) :
    memRead t addr = .next (v, t) := by
  obtain ⟨hparams, hmem⟩ := h
  obtain ⟨⟨ha, hd, hi⟩, -⟩ := hs
  rw [memRead_data ha (hparams ▸ hd) (hparams ▸ hi), hmem, hparams, Memory.loadWord_storeWord]

theorem stored_of_storeBody {s t : State} {rd rn : ArmReg} {m : DtMode} {addr v : Word} {wb : Option Word}
    (hx : dtAddress s rn m = .next (addr, wb)) (hv : s.armX[rd] = some v) (hs : s.writable addr)
    (h : storeBody s rd rn m = .next t) : Stored s t addr v := by
  obtain ⟨hw, -⟩ := storeBody_eq_next h
  rw [storeBody_of_address hw hx hv] at h
  obtain ⟨u, hwrite, h⟩ := andThen_eq_next.mp h
  cases h
  simpa [Stored] using stored_of_memWrite hs hwrite

theorem stored_of_mipsSw {s t : State} {rt rs : MipsReg} {imm : BitVec 16} {base v : Word}
    (hb : s.mipsValue rs = some base) (hv : s.mipsValue rt = some v)
    (hs : s.writable (base + BitVec.ofInt 32 imm.toInt)) (h : exec (.mipsSw rt rs imm) s = .next t) :
    Stored s t (base + BitVec.ofInt 32 imm.toInt) v := by
  rw [exec_mipsSw hb hv] at h
  obtain ⟨u, hwrite, h⟩ := andThen_eq_next.mp h
  cases h
  simpa [Stored] using stored_of_memWrite hs hwrite

/-- Settles O43: the store leaves its word at the address, and the load's word read answers it. -/
theorem loadReturnsTheStoredWord : Obligations.LoadReturnsTheStoredWord := by
  refine ⟨?_, ?_⟩
  · intro s t cond cond' rd rn rd' rn' m m' addr v wb wb' hx hv hs hc hstr hc' hw' hx' load
    rw [exec_armStr hc] at hstr
    have hread : memRead t addr = .next (v, t) := (stored_of_storeBody hx hv hs hstr).memRead hs
    have hload : exec load t = loadBody t rd' rn' m' := exec_armLoad (by cases m' <;> rfl) hc'
    rw [hload, loadBody_of_address hw' hx', hread]
    exact ⟨_, rfl, (State.armX_writeArm ..).trans (if_pos rfl)⟩
  · intro s t rt rs rt' rs' imm imm' base base' v hb hv hs hsw hb' haddr hrt
    have hread := (stored_of_mipsSw hb hv hs hsw).memRead hs
    rw [exec_mipsLw hb', haddr, hread]
    refine ⟨_, rfl, ?_⟩
    rw [(mipsResult_writeMips t rt' v).1, if_pos ⟨rfl, hrt⟩]

/-! ### Devices (R58) -/

/-- Settles O44: a device read draws and changes nothing else, so only the register writes remain. -/
theorem deviceLoadIsAFreshDraw : Obligations.DeviceLoadIsAFreshDraw := by
  refine ⟨?_, ?_⟩
  · intro s cond rd rn m addr wb hc hw hx ha hio load based
    have hload : exec load s = loadBody s rd rn m := exec_armLoad (by cases m <;> rfl) hc
    rw [hload, loadBody_of_address hw hx, memRead_io ha hio]
    cases wb <;> rfl
  · intro s rt rs imm base hb ha hio
    rw [exec_mipsLw hb, memRead_io ha hio]
    exact ⟨_, rfl, mipsResult_writeMips { s with draws := s.draws + 1 } rt _⟩

/-- Settles O45: a device write records its event and changes nothing else, so only the base remains. -/
theorem deviceStoreIsRecorded : Obligations.DeviceStoreIsRecorded := by
  refine ⟨?_, ?_⟩
  · intro s cond rd rn m addr v wb hc hw hx hv ha ht hio
    rw [exec_armStr hc, storeBody_of_address hw hx hv, memWrite_io ha ht hio]
    cases wb <;> rfl
  · intro s rt rs imm base v hb hv addr ha ht hio
    rw [exec_mipsSw hb hv, memWrite_io ha ht hio]
    rfl

/-! ### Which instructions reach memory and devices (R55, R58) -/

/-- If the computation answers, its answer has the property. -/
def Answers {α : Type} (P : α → Prop) : Res α → Prop
  | .next a => P a
  | .fault _ => True
  | .refused _ => True

theorem Answers.of_eq_next {α : Type} {P : α → Prop} {o : Res α} {a : α} (h : Answers P o) (ho : o = .next a) :
    P a := by
  subst ho
  exact h

theorem Answers.andThen {α β : Type} {P : β → Prop} {o : Res α} {f : α → Res β} (h : ∀ a, Answers P (f a)) :
    Answers P (andThen o f) := by
  cases o with
  | next a => exact h a
  | fault r | refused r => trivial

theorem Answers.ite {α : Type} {P : α → Prop} {c : Prop} [Decidable c] {o o' : Res α} (ho : Answers P o)
    (ho' : Answers P o') : Answers P (if c then o else o') := by
  split <;> assumption

/-- Memory, the events and the count of draws are as before. -/
def SameOutside (s t : State) : Prop := t.mem = s.mem ∧ t.events = s.events ∧ t.draws = s.draws

theorem SameOutside.jumpTo (s : State) (target : Word) : SameOutside s (s.jumpTo target) := ⟨rfl, rfl, rfl⟩

theorem SameOutside.advance (s : State) : SameOutside s s.advance := ⟨rfl, rfl, rfl⟩

theorem SameOutside.addBody (s : State) (setFlags : Bool) (rd : ArmReg) (a b : Word) :
    SameOutside s (addBody s setFlags rd a b) := by
  cases setFlags <;> exact ⟨rfl, rfl, rfl⟩

theorem SameOutside.writeMips (s : State) (r : MipsReg) (v : Word) : SameOutside s (s.writeMips r v).advance := by
  simp [SameOutside]

theorem whenPassed_sameOutside (c : Cond) {s : State} {body : Res State} (h : Answers (SameOutside s) body) :
    Answers (SameOutside s) (whenPassed c s body) :=
  .andThen fun _ => .ite h (.advance s)

/-- The four transfers: the instructions that access memory (R55). -/
def isTransfer : Instr → Bool
  | .armLdrImm .. | .armLdrIndexed .. | .armStr .. | .mipsLw .. | .mipsSw .. => true
  | _ => false

/-- An instruction that is no transfer reaches neither memory nor a device. -/
theorem exec_sameOutside {i : Instr} (hi : isTransfer i = false) (s : State) :
    Answers (SameOutside s) (exec i s) := by
  cases i with
  | armAddReg c => exact whenPassed_sameOutside c <| .andThen fun _ => .andThen fun _ => .addBody ..
  | armAddImm c =>
    simp only [exec, execArmAddImm]
    split
    · exact whenPassed_sameOutside c <| .andThen fun _ => .addBody ..
    · exact .ite trivial trivial
  | armB c => exact whenPassed_sameOutside c (.jumpTo ..)
  | armBl c => exact whenPassed_sameOutside c ⟨rfl, rfl, rfl⟩
  | mipsAdd => exact .andThen fun _ => .andThen fun _ => .andThen fun _ => .writeMips ..
  | mipsAddi => exact .andThen fun _ => .andThen fun _ => .writeMips ..
  | mipsBeq =>
    refine .ite trivial (.andThen fun _ => .andThen fun _ => ?_)
    show SameOutside s (if _ then _ else _)
    split
    · exact .jumpTo ..
    · exact .advance s
  | mipsJ => exact .ite trivial (.jumpTo ..)
  | armLdrImm | armLdrIndexed | armStr | mipsLw | mipsSw => cases hi

theorem memRead_events {s u : State} {addr v : Word} (h : memRead s addr = .next (v, u)) : u.events = s.events := by
  rw [memRead_frame h]

/-- The count of draws after a word read: one more after a device read (R58). -/
theorem memRead_draws {s u : State} {addr v : Word} (h : memRead s addr = .next (v, u)) :
    u.draws = if wordInside s.params.ioRegions addr then s.draws + 1 else s.draws := by
  obtain ⟨-, ⟨hio, -, rfl⟩ | ⟨hio, -, -, rfl⟩⟩ := memRead_cases h <;> simp [hio]

theorem memWrite_draws {s u : State} {addr v : Word} (h : memWrite s addr v = .next u) : u.draws = s.draws := by
  rw [memWrite_frame h]

/-- A load that answers leaves memory and the events, and draws when its address is a device's (R191). -/
theorem loadBody_outside {s t : State} {rd rn : ArmReg} {m : DtMode} (h : loadBody s rd rn m = .next t) :
    t.mem = s.mem ∧ t.events = s.events ∧ ∃ x, dtAddress s rn m = .next x ∧
      t.draws = if wordInside s.params.ioRegions x.1 then s.draws + 1 else s.draws := by
  obtain ⟨-, x, v, u, hx, hread, rfl⟩ := loadBody_eq_next h
  exact ⟨by simp [memRead_mem hread], by simp [memRead_events hread], x, hx, by simp [memRead_draws hread]⟩

/-- An ARM load leaves memory and the events, whether or not its condition passes (R55). -/
theorem armLoad_leaves {s t : State} {c : Cond} {rd rn : ArmReg} {m : DtMode}
    (h : whenPassed c s (loadBody s rd rn m) = .next t) : t.mem = s.mem ∧ t.events = s.events := by
  obtain ⟨-, h⟩ | ⟨-, rfl⟩ := whenPassed_eq_next.mp h
  · obtain ⟨hmem, hevents, -⟩ := loadBody_outside h
    exact ⟨hmem, hevents⟩
  · exact ⟨rfl, rfl⟩

/-- A store that answers makes no draw (R201). -/
theorem storeBody_draws {s t : State} {rd rn : ArmReg} {m : DtMode} (h : storeBody s rd rn m = .next t) :
    t.draws = s.draws := by
  obtain ⟨-, x, v, u, -, -, hwrite, rfl⟩ := storeBody_eq_next h
  simp [memWrite_draws hwrite]

/-- What `lw` that answers leaves, and that it draws when its address is a device's (R154). -/
theorem execMipsLw_outside {s t : State} {rt rs : MipsReg} {imm : BitVec 16}
    (h : exec (.mipsLw rt rs imm) s = .next t) :
    t.mem = s.mem ∧ t.events = s.events ∧ ∃ base, s.mipsValue rs = some base ∧
      t.draws =
        if wordInside s.params.ioRegions (base + BitVec.ofInt 32 imm.toInt) then s.draws + 1 else s.draws := by
  obtain ⟨addr, haddr, -⟩ := andThen_eq_next.mp h
  obtain ⟨base, hb, -⟩ := andThen_eq_next.mp haddr
  replace hb := readMips_eq_next.mp hb
  rw [exec_mipsLw hb] at h
  obtain ⟨⟨v, u⟩, hread, h⟩ := andThen_eq_next.mp h
  cases h
  exact ⟨by simp [memRead_mem hread], by simp [memRead_events hread], base, hb, by simp [memRead_draws hread]⟩

theorem execMipsSw_draws {s t : State} {rt rs : MipsReg} {imm : BitVec 16}
    (h : exec (.mipsSw rt rs imm) s = .next t) : t.draws = s.draws := by
  obtain ⟨addr, -, h⟩ := andThen_eq_next.mp h
  obtain ⟨v, -, h⟩ := andThen_eq_next.mp h
  obtain ⟨u, hwrite, h⟩ := andThen_eq_next.mp h
  cases h
  simp [memWrite_draws hwrite]

/-- Settles O48: loads leave memory and the events, stores make no draw, the other instructions do neither. -/
theorem onlyTransfersReachMemory : Obligations.OnlyTransfersReachMemory := by
  intro i s t h
  cases i with
  | armLdrImm c rd rn off =>
    exact ⟨fun _ _ => armLoad_leaves h, fun hne => absurd rfl (hne c rd rn off)⟩
  | armLdrIndexed c rd rn m =>
    exact ⟨fun _ _ => armLoad_leaves h, fun _ hne => absurd rfl (hne c rd rn m)⟩
  | armStr c rd rn m =>
    refine ⟨fun hne => absurd rfl (hne c rd rn m), fun _ _ _ => ?_⟩
    obtain ⟨-, h⟩ | ⟨-, rfl⟩ := whenPassed_eq_next.mp h
    · exact storeBody_draws h
    · rfl
  | mipsLw rt rs imm =>
    obtain ⟨hmem, hevents, -⟩ := execMipsLw_outside h
    exact ⟨fun _ _ => ⟨hmem, hevents⟩, fun _ _ hne => absurd rfl (hne rt rs imm)⟩
  | mipsSw rt rs imm => exact ⟨fun _ hne => absurd rfl (hne rt rs imm), fun _ _ _ => execMipsSw_draws h⟩
  | armAddReg | armAddImm | armB | armBl | mipsAdd | mipsAddi | mipsBeq | mipsJ =>
    obtain ⟨hmem, hevents, hdraws⟩ := (exec_sameOutside rfl s).of_eq_next h
    exact ⟨fun _ _ => ⟨hmem, hevents⟩, fun _ _ _ => hdraws⟩

/-! ### The bytes a step can write (R57, R59, R65) -/

/-- A word inside the regions has each of its bytes in one of them (R57). -/
theorem inRegions_of_wordInside {rs : List Region} {addr : Word} {a : Nat} (h : wordInside rs addr = true)
    (hlo : addr.toNat ≤ a) (hhi : a < addr.toNat + 4) : inRegions rs a = true := by
  simp only [wordInside, Bool.and_eq_true] at h
  obtain ⟨⟨⟨h0, h1⟩, h2⟩, h3⟩ := h
  have hcases : a = addr.toNat ∨ a = addr.toNat + 1 ∨ a = addr.toNat + 2 ∨ a = addr.toNat + 3 := by omega
  rcases hcases with rfl | rfl | rfl | rfl <;> assumption

/-- A word write changes no byte outside `DATA_REGIONS` (R57, R59). -/
theorem memWrite_read_outside {s u : State} {addr v : Word} {a : Nat} (h : memWrite s addr v = .next u)
    (ha : inRegions s.params.dataRegions a = false) : u.mem.read a = s.mem.read a := by
  obtain ⟨-, -, ⟨-, rfl⟩ | ⟨-, hdata, rfl⟩⟩ := memWrite_cases h
  · rfl
  · refine Memory.read_storeWord_outside _ _ _ _ _ ?_
    by_contra hin
    have htrue := inRegions_of_wordInside hdata (a := a) (by omega) (by omega)
    exact Bool.false_ne_true (ha.symm.trans htrue)

/-- A region off the text holds no address of the text (R271). -/
theorem regionHas_of_offText {p : Params} {r : Region} {a : Nat} (h : r.offText p = true)
    (ha : inText p a = true) : regionHas r a = false := by
  rw [inText_iff] at ha
  simp only [Region.offText, decide_eq_true_eq, BitVec.lt_def] at h
  exact decide_eq_false (by omega)

/-- Under the launch premises no byte of the text is data (R271). -/
theorem text_not_data {p : Params} {a : Nat} (hmap : p.mapOk = true) (ha : inText p a = true) :
    inRegions p.dataRegions a = false := by
  obtain ⟨-, -, -, hoff, -⟩ := mapOk_iff.mp hmap
  exact List.any_eq_false.mpr fun d hd => by simp [regionHas_of_offText (hoff d hd) ha]

/-- Settles O54: a step's one word write stays inside `DATA_REGIONS`, which hold no byte of the text. -/
theorem stepWritesOnlyDataRegions : Obligations.StepWritesOnlyDataRegions := by
  intro s t h
  have houtside : ∀ a, inRegions s.params.dataRegions a = false → t.mem.read a = s.mem.read a := by
    intro a ha
    obtain hmem | ⟨addr, v, u, hwrite, hmem⟩ := step_mem h
    · rw [hmem]
    · rw [hmem, memWrite_read_outside hwrite ha]
  exact ⟨houtside, fun hmap a ha => houtside a (text_not_data hmap ha)⟩

/-! ### The record of devices (R58) -/

theorem memWrite_extends_events {s u : State} {addr v : Word} (h : memWrite s addr v = .next u) :
    s.events <+: u.events := by
  obtain ⟨-, -, ⟨-, rfl⟩ | ⟨-, -, rfl⟩⟩ := memWrite_cases h
  · exact List.prefix_append ..
  · exact List.prefix_rfl

/-- A step keeps the events and adds at most new ones at the end (R58). -/
theorem step_extends_events {s t : State} (h : step s = .next t) : s.events <+: t.events := by
  obtain ⟨-, heff⟩ | ⟨-, heff⟩ := step_effect h
  · cases heff with
    | skip | branch | link => exact List.prefix_rfl
    | add setFlags rd a b => rw [(SameOutside.addBody s setFlags rd a b).2.1]
    | load _ _ _ hread => simp [memRead_events hread]
    | store _ _ hwrite => simpa using memWrite_extends_events hwrite
  · cases heff with
    | skip | branch | jump | add => simp
    | load _ hread => simp [memRead_events hread]
    | store hwrite => simpa using memWrite_extends_events hwrite

/-- The count of draws rises by one if `device` holds, and is as before if not. -/
def DrawsIf (device : Prop) (s t : State) : Prop :=
  (device → t.draws = s.draws + 1) ∧ (¬device → t.draws = s.draws)

theorem DrawsIf.bounds {device : Prop} {s t : State} (h : DrawsIf device s t) :
    s.draws ≤ t.draws ∧ t.draws ≤ s.draws + 1 := by
  obtain ⟨hyes, hno⟩ := h
  by_cases hd : device
  · have := hyes hd; omega
  · have := hno hd; omega

/-- The ARM load's condition passed and its mode's address is a device's (R58, R170). -/
def ArmDevice (s : State) (c : Cond) (rn : ArmReg) (m : DtMode) : Prop :=
  condPassed c s = .next true ∧
    ∃ addr wb, dtAddress s rn m = .next (addr, wb) ∧ wordInside s.params.ioRegions addr = true

/-- The base of `lw` is written and its address is a device's (R58, R132). -/
def MipsDevice (s : State) (rs : MipsReg) (imm : BitVec 16) : Prop :=
  ∃ base, s.mipsValue rs = some base ∧
    wordInside s.params.ioRegions (base + BitVec.ofInt 32 imm.toInt) = true

/-- An ARM load that answers draws exactly when it ran and its address is a device's (R58, R191). -/
theorem armLoad_drawsIf {s t : State} {c : Cond} {rd rn : ArmReg} {m : DtMode}
    (h : whenPassed c s (loadBody s rd rn m) = .next t) : DrawsIf (ArmDevice s c rn m) s t := by
  obtain ⟨hc, h⟩ | ⟨hc, rfl⟩ := whenPassed_eq_next.mp h
  · obtain ⟨-, -, ⟨addr, wb⟩, hx, hdraws⟩ := loadBody_outside h
    have hdevice : ArmDevice s c rn m ↔ wordInside s.params.ioRegions addr = true := by
      simp [ArmDevice, hc, hx]
    simp only [DrawsIf, hdevice, hdraws]
    exact ⟨fun hio => if_pos hio, fun hio => if_neg hio⟩
  · refine ⟨fun ⟨hpass, _⟩ => ?_, fun _ => rfl⟩
    cases hc.symm.trans hpass

/-- `lw` that answers draws exactly when its address is a device's (R58, R154). -/
theorem mipsLw_drawsIf {s t : State} {rt rs : MipsReg} {imm : BitVec 16}
    (h : exec (.mipsLw rt rs imm) s = .next t) : DrawsIf (MipsDevice s rs imm) s t := by
  obtain ⟨-, -, base, hb, hdraws⟩ := execMipsLw_outside h
  have hdevice : MipsDevice s rs imm ↔ wordInside s.params.ioRegions (base + BitVec.ofInt 32 imm.toInt) = true := by
    simp [MipsDevice, hb]
  simp only [DrawsIf, hdevice, hdraws]
  exact ⟨fun hio => if_pos hio, fun hio => if_neg hio⟩

/-- The instruction loads from a device in this state (R58). -/
def DeviceLoad (s : State) : Instr → Prop
  | .armLdrImm c _ rn off => ArmDevice s c rn (.immOffset off)
  | .armLdrIndexed c _ rn m => ArmDevice s c rn (.indexed m)
  | .mipsLw _ rs imm => MipsDevice s rs imm
  | _ => False

/-- An instruction that answers draws exactly when it loads from a device (R58). -/
theorem exec_drawsIf {i : Instr} {s t : State} (h : exec i s = .next t) : DrawsIf (DeviceLoad s i) s t := by
  obtain ⟨-, hdraws⟩ := onlyTransfersReachMemory i s t h
  cases i with
  | armLdrImm | armLdrIndexed => exact armLoad_drawsIf h
  | mipsLw => exact mipsLw_drawsIf h
  | armAddReg | armAddImm | armB | armBl | armStr | mipsAdd | mipsAddi | mipsSw | mipsBeq | mipsJ =>
    exact ⟨False.elim, fun _ => hdraws nofun nofun nofun⟩

/-- Settles O55: the step executes the one instruction that its slot holds. -/
theorem deviceHistoryOnlyGrows : Obligations.DeviceHistoryOnlyGrows := by
  intro s t h
  obtain ⟨y, j, hy, hj, hexec⟩ := step_eq_next.mp h
  have hdraws := exec_drawsIf hexec
  obtain ⟨hle, hle'⟩ := hdraws.bounds
  refine ⟨step_extends_events h, hle, hle', fun x i hx hi => ?_⟩
  obtain rfl : y = x := Host.Outcome.next.inj (hy.symm.trans hx)
  obtain rfl : j = i := Host.Outcome.next.inj (hj.symm.trans hi)
  cases j <;> exact hdraws

/-! ### Two computations that go on alike -/

/-- Both answer, with related answers, or both stop, with the same fault or the same refusal. -/
def Alike {α β : Type} (R : α → β → Prop) : Res α → Res β → Prop
  | .next a, .next b => R a b
  | .fault r, .fault r' => r = r'
  | .refused r, .refused r' => r = r'
  | _, _ => False

theorem Alike.andThen {α β γ δ : Type} {R : α → β → Prop} {Q : γ → δ → Prop} {o : Res α} {o' : Res β}
    {f : α → Res γ} {g : β → Res δ} (ho : Alike R o o') (hf : ∀ a b, R a b → Alike Q (f a) (g b)) :
    Alike Q (andThen o f) (andThen o' g) := by
  cases o with
  | next a =>
    cases o' with
    | next b => exact hf a b ho
    | fault | refused => exact ho.elim
  | fault | refused =>
    cases o' with
    | next b => exact ho.elim
    | fault | refused => exact ho

/-- Sequences that begin with the same computation go on alike when what follows does. -/
theorem Alike.andThen_same {α γ δ : Type} {Q : γ → δ → Prop} {o o' : Res α} {f : α → Res γ} {g : α → Res δ}
    (ho : o' = o) (hf : ∀ a, Alike Q (f a) (g a)) : Alike Q (Machine.andThen o f) (Machine.andThen o' g) := by
  subst ho
  cases o' with
  | next a => exact hf a
  | fault | refused => rfl

theorem Alike.ite {α β : Type} {R : α → β → Prop} {c : Prop} [Decidable c] {o p : Res α} {o' p' : Res β}
    (ho : Alike R o o') (hp : Alike R p p') : Alike R (if c then o else p) (if c then o' else p') := by
  split <;> assumption

/-- One more step of a run is a step and the rest of the run. -/
theorem run_succ (k : Nat) (s : State) :
    (Sys2Proof.core.run (k + 1) s : Res State) = andThen (step s) (Sys2Proof.core.run k) := by
  have hstep : Sys2Proof.core.step s = step s := rfl
  change Host.Core.run Sys2Proof.core (k + 1) s = _
  simp only [Host.Core.run, hstep]
  cases step s <;> rfl

/-- A relation that every step keeps is kept by every run. -/
theorem Alike.run {R : State → State → Prop} (hstep : ∀ s t, R s t → Alike R (step s) (step t)) (k : Nat)
    {s t : State} (h : R s t) :
    Alike R (Sys2Proof.core.run k s : Res State) (Sys2Proof.core.run k t : Res State) := by
  induction k generalizing s t with
  | zero => exact h
  | succ k ih =>
    rw [run_succ, run_succ]
    exact (hstep s t h).andThen fun _ _ h' => ih h'

/-! ### The byte order (R56) -/

/-- The state with another byte order and another memory. -/
def State.inOrder (s : State) (o : ByteOrder) (m : Memory) : State :=
  { s with params := { s.params with byteOrder := o }, mem := m }

/-- The states differ in the byte order and the memory bytes alone, and have the same words at aligned addresses. -/
def Reordered (s t : State) : Prop :=
  t = s.inOrder t.params.byteOrder t.mem ∧
    ∀ a : Nat, a % 4 = 0 → s.mem.loadWord s.params.byteOrder a = t.mem.loadWord t.params.byteOrder a

section
variable {s t : State}

/-- What depends on neither memory nor the byte order is the same in both states. -/
theorem Reordered.agree {β : Type} {f : State → β} (h : Reordered s t) (hf : ∀ o m, f (s.inOrder o m) = f s) :
    f t = f s := by
  rw [h.1, hf]

theorem Reordered.pc_eq (h : Reordered s t) : t.pc = s.pc :=
  h.agree (f := State.pc) fun _ _ => rfl

theorem Reordered.readArm_eq (h : Reordered s t) (r : ArmReg) : readArm t r = readArm s r :=
  h.agree (f := (readArm · r)) fun _ _ => rfl

theorem Reordered.readMips_eq (h : Reordered s t) (r : MipsReg) : readMips t r = readMips s r :=
  h.agree (f := (readMips · r)) fun _ _ => rfl

theorem Reordered.condPassed_eq (h : Reordered s t) (c : Cond) : condPassed c t = condPassed c s :=
  h.agree (f := condPassed c) fun _ _ => rfl

theorem Reordered.readShifted_eq (h : Reordered s t) (rm : ArmReg) (sh : BitVec 5) :
    readShifted t rm sh = readShifted s rm sh :=
  h.agree (f := (readShifted · rm sh)) fun _ _ => rfl

theorem Reordered.dtAddress_eq (h : Reordered s t) (rn : ArmReg) (m : DtMode) :
    dtAddress t rn m = dtAddress s rn m :=
  h.agree (f := (dtAddress · rn m)) fun _ _ => rfl

theorem Reordered.mipsAddress_eq (h : Reordered s t) (rs : MipsReg) (imm : BitVec 16) :
    mipsAddress t rs imm = mipsAddress s rs imm :=
  h.agree (f := (mipsAddress · rs imm)) fun _ _ => rfl

theorem Reordered.addSigned_eq (h : Reordered s t) (a b : Word) : addSigned t a b = addSigned s a b :=
  h.agree (f := (addSigned · a b)) fun _ _ => rfl

theorem Reordered.fetch_eq (h : Reordered s t) : fetch t = fetch s :=
  h.agree (f := fetch) fun _ _ => rfl

/-- The decoders do not look at the byte order (R56). -/
theorem Reordered.readSlot_eq (h : Reordered s t) (x : Slot) : readSlot t x = readSlot s x :=
  h.agree (f := (readSlot · x)) fun _ _ => rfl

/-- An update that looks at neither memory nor the byte order, and changes neither, keeps the relation. -/
theorem Reordered.update {f : State → State} (h : Reordered s t)
    (hcomm : ∀ o m, f (s.inOrder o m) = (f s).inOrder o m) (hparams : (f s).params = s.params)
    (hmem : (f s).mem = s.mem) : Reordered (f s) (f t) := by
  obtain ⟨ht, hwords⟩ := h
  rw [ht, hcomm]
  refine ⟨rfl, fun a ha => ?_⟩
  rw [hparams, hmem]
  exact hwords a ha

theorem Reordered.advance (h : Reordered s t) : Reordered s.advance t.advance :=
  h.update (fun _ _ => rfl) rfl rfl

theorem Reordered.writeMips (h : Reordered s t) (r : MipsReg) (v : Word) :
    Reordered (s.writeMips r v).advance (t.writeMips r v).advance := by
  refine h.update (f := fun s => (s.writeMips r v).advance) (fun o m => ?_) (by simp) (by simp)
  obtain ⟨_ | n, hn⟩ := r <;> rfl

theorem Reordered.writeBase (h : Reordered s t) (rn : ArmReg) (wb : Option Word) :
    Reordered (s.writeBase rn wb) (t.writeBase rn wb) := by
  refine h.update (f := fun s => s.writeBase rn wb) (fun o m => ?_) (by simp) (by simp)
  cases wb <;> rfl

theorem Reordered.writeArm (h : Reordered s t) (r : ArmReg) (v : Word) :
    Reordered (s.writeArm r v) (t.writeArm r v) :=
  h.update (f := fun s => s.writeArm r v) (fun _ _ => rfl) rfl rfl

theorem Reordered.addBody (h : Reordered s t) (setFlags : Bool) (rd : ArmReg) (a b : Word) :
    Reordered (addBody s setFlags rd a b) (addBody t setFlags rd a b) := by
  refine h.update (f := fun s => Machine.addBody s setFlags rd a b) (fun o m => ?_) (addBody_frame ..).1 (by simp)
  cases setFlags <;> rfl

/-- A word stored at an aligned address is at that address in each order, and every other aligned word is as before. -/
theorem Reordered.storeWord (h : Reordered s t) {a : Nat} (ha : a % 4 = 0) (v : Word) :
    Reordered { s with mem := s.mem.storeWord s.params.byteOrder a v }
      { t with mem := t.mem.storeWord t.params.byteOrder a v } := by
  obtain ⟨ht, hwords⟩ := h
  refine ⟨congrArg (fun u : State => { u with mem := t.mem.storeWord t.params.byteOrder a v }) ht, fun b hb => ?_⟩
  by_cases hab : b = a
  · subst hab
    simp only [Memory.loadWord_storeWord]
  · simp only [Memory.loadWord_storeWord_outside _ _ a b v (by omega)]
    exact hwords b hb

theorem Reordered.wordInside_data_eq (h : Reordered s t) (addr : Word) :
    wordInside t.params.dataRegions addr = wordInside s.params.dataRegions addr :=
  h.agree (f := fun s => wordInside s.params.dataRegions addr) fun _ _ => rfl

theorem Reordered.wordInside_io_eq (h : Reordered s t) (addr : Word) :
    wordInside t.params.ioRegions addr = wordInside s.params.ioRegions addr :=
  h.agree (f := fun s => wordInside s.params.ioRegions addr) fun _ _ => rfl

theorem Reordered.wordTouchesText_eq (h : Reordered s t) (addr : Word) :
    wordTouchesText t.params addr = wordTouchesText s.params addr :=
  h.agree (f := fun s => wordTouchesText s.params addr) fun _ _ => rfl

theorem Reordered.draws_eq (h : Reordered s t) : t.draws = s.draws :=
  h.agree (f := State.draws) fun _ _ => rfl

/-- Both read the same word at an aligned address, or make the same draw (R57, R58). -/
theorem Reordered.memRead_alike (h : Reordered s t) (addr : Word) :
    Alike (fun x y => x.1 = y.1 ∧ Reordered x.2 y.2) (memRead s addr) (memRead t addr) := by
  by_cases ha : addr.toNat % 4 = 0
  · have hdata := h.wordInside_data_eq addr
    have hio := h.wordInside_io_eq addr
    cases hsio : wordInside s.params.ioRegions addr with
    | true =>
      rw [memRead_io ha hsio, memRead_io ha (hio.trans hsio)]
      exact ⟨congrArg Config.draw h.draws_eq.symm,
        h.update (f := fun s => { s with draws := s.draws + 1 }) (fun _ _ => rfl) rfl rfl⟩
    | false =>
      cases hsdata : wordInside s.params.dataRegions addr with
      | true =>
        rw [memRead_data ha hsdata hsio, memRead_data ha (hdata.trans hsdata) (hio.trans hsio)]
        exact ⟨h.2 _ ha, h⟩
      | false =>
        rw [memRead_unmapped ha hsdata hsio, memRead_unmapped ha (hdata.trans hsdata) (hio.trans hsio), h.pc_eq]
        rfl
  · rw [memRead_misaligned ha, memRead_misaligned ha, h.pc_eq]
    rfl

/-- Both store the same word at an aligned address, or record the same event (R57, R58). -/
theorem Reordered.memWrite_alike (h : Reordered s t) (addr v : Word) :
    Alike Reordered (memWrite s addr v) (memWrite t addr v) := by
  by_cases ha : addr.toNat % 4 = 0
  · have hdata := h.wordInside_data_eq addr
    have hio := h.wordInside_io_eq addr
    have htext := h.wordTouchesText_eq addr
    cases hstext : wordTouchesText s.params addr with
    | true =>
      rw [memWrite_to_text v ha hstext, memWrite_to_text v ha (htext.trans hstext), h.pc_eq]
      rfl
    | false =>
      replace htext := htext.trans hstext
      cases hsio : wordInside s.params.ioRegions addr with
      | true =>
        rw [memWrite_io ha hstext hsio, memWrite_io ha htext (hio.trans hsio)]
        exact h.update (f := fun s => { s with events := s.events ++ [⟨addr, v⟩] }) (fun _ _ => rfl) rfl rfl
      | false =>
        cases hsdata : wordInside s.params.dataRegions addr with
        | true =>
          rw [memWrite_data ha hstext hsdata hsio, memWrite_data ha htext (hdata.trans hsdata) (hio.trans hsio)]
          exact h.storeWord ha v
        | false =>
          rw [memWrite_unmapped v ha hstext hsdata hsio,
            memWrite_unmapped v ha htext (hdata.trans hsdata) (hio.trans hsio), h.pc_eq]
          rfl
  · rw [memWrite_misaligned v ha, memWrite_misaligned v ha, h.pc_eq]
    rfl

theorem Reordered.whenPassed_alike (h : Reordered s t) (c : Cond) {body body' : Res State}
    (hbody : Alike Reordered body body') : Alike Reordered (whenPassed c s body) (whenPassed c t body') :=
  .andThen_same (h.condPassed_eq c) fun _ => .ite hbody h.advance

theorem Reordered.loadBody_alike (h : Reordered s t) (rd rn : ArmReg) (m : DtMode) :
    Alike Reordered (loadBody s rd rn m) (loadBody t rd rn m) := by
  unfold loadBody
  rw [h.pc_eq]
  refine .ite rfl (.andThen_same (h.dtAddress_eq rn m) fun x => (h.memRead_alike x.1).andThen ?_)
  rintro ⟨v, u⟩ ⟨_, u'⟩ ⟨rfl, hu⟩
  exact ((hu.writeBase rn x.2).writeArm rd v).advance

theorem Reordered.storeBody_alike (h : Reordered s t) (rd rn : ArmReg) (m : DtMode) :
    Alike Reordered (storeBody s rd rn m) (storeBody t rd rn m) := by
  unfold storeBody
  rw [h.pc_eq]
  exact .ite rfl <| .andThen_same (h.dtAddress_eq rn m) fun x => .andThen_same (h.readArm_eq rd) fun v =>
    (h.memWrite_alike x.1 v).andThen fun _ _ hu => (hu.writeBase rn x.2).advance

theorem Reordered.execArmAddImm_alike (h : Reordered s t) (c : Cond) (setFlags : Bool) (rd rn : ArmReg)
    (imm : BitVec 12) :
    Alike Reordered (execArmAddImm c setFlags rd rn imm s) (execArmAddImm c setFlags rd rn imm t) := by
  have hmode : t.params.armImm12Mode = s.params.armImm12Mode :=
    h.agree (f := fun s => s.params.armImm12Mode) fun _ _ => rfl
  unfold execArmAddImm
  rw [hmode, h.pc_eq]
  split
  · exact h.whenPassed_alike c <| .andThen_same (h.readArm_eq rn) fun a => h.addBody ..
  · exact .ite rfl rfl

theorem Reordered.withoutDelaySlot_alike (h : Reordered s t) {body body' : Res State}
    (hbody : Alike Reordered body body') :
    Alike Reordered (withoutDelaySlot s body) (withoutDelaySlot t body') := by
  have hslot : t.params.mipsBranchDelaySlot = s.params.mipsBranchDelaySlot :=
    h.agree (f := fun s => s.params.mipsBranchDelaySlot) fun _ _ => rfl
  unfold withoutDelaySlot
  rw [hslot, h.pc_eq]
  exact .ite rfl hbody

/-- Every instruction goes on alike, whatever the byte order (R56). -/
theorem Reordered.exec_alike (h : Reordered s t) (i : Instr) : Alike Reordered (exec i s) (exec i t) := by
  cases i with
  | armAddReg c setFlags rd rn rm sh =>
    exact h.whenPassed_alike c <| .andThen_same (h.readArm_eq rn) fun a =>
      .andThen_same (h.readShifted_eq rm sh) fun b => h.addBody ..
  | armAddImm => exact h.execArmAddImm_alike ..
  | armB c imm =>
    exact h.whenPassed_alike c <|
      h.update (f := fun s => s.jumpTo (armBranchTarget s.params s.pc imm)) (fun _ _ => rfl) rfl rfl
  | armBl c imm =>
    exact h.whenPassed_alike c <|
      h.update (f := fun s => (s.writeArm linkRegister (s.pc + 4)).jumpTo (armBranchTarget s.params s.pc imm))
        (fun _ _ => rfl) rfl rfl
  | armLdrImm c | armLdrIndexed c => exact h.whenPassed_alike c (h.loadBody_alike ..)
  | armStr c => exact h.whenPassed_alike c (h.storeBody_alike ..)
  | mipsAdd rd rs rt =>
    exact .andThen_same (h.readMips_eq rs) fun a => .andThen_same (h.readMips_eq rt) fun b =>
      .andThen_same (h.addSigned_eq a b) fun r => h.writeMips rd r
  | mipsAddi rt rs imm =>
    exact .andThen_same (h.readMips_eq rs) fun a =>
      .andThen_same (h.addSigned_eq a (immOperand imm)) fun r => h.writeMips rt r
  | mipsLw rt rs imm =>
    refine .andThen_same (h.mipsAddress_eq rs imm) fun addr => (h.memRead_alike addr).andThen ?_
    rintro ⟨v, u⟩ ⟨_, u'⟩ ⟨rfl, hu⟩
    exact hu.writeMips rt v
  | mipsSw rt rs imm =>
    exact .andThen_same (h.mipsAddress_eq rs imm) fun addr => .andThen_same (h.readMips_eq rt) fun v =>
      (h.memWrite_alike addr v).andThen fun _ _ hu => hu.advance
  | mipsBeq rs rt imm =>
    refine h.withoutDelaySlot_alike <| .andThen_same (h.readMips_eq rs) fun a =>
      .andThen_same (h.readMips_eq rt) fun b => ?_
    show Reordered (if _ then _ else _) (if _ then _ else _)
    split
    · exact h.update (f := fun s => s.jumpTo (mipsBranchTarget s.pc imm)) (fun _ _ => rfl) rfl rfl
    · exact h.advance
  | mipsJ target =>
    exact h.withoutDelaySlot_alike <|
      h.update (f := fun s => s.jumpTo (mipsJumpTarget s.pc target)) (fun _ _ => rfl) rfl rfl

theorem Reordered.step_alike (h : Reordered s t) : Alike Reordered (step s) (step t) :=
  .andThen_same h.fetch_eq fun x => .andThen_same (h.readSlot_eq x) fun i => h.exec_alike i

end

/-- Settles O56: every step keeps the relation, so every run does. -/
theorem byteOrderIsUnobservable : Obligations.ByteOrderIsUnobservable := by
  intro k s t h
  have hrun := Alike.run (R := Reordered) (fun _ _ h => h.step_alike) k h
  generalize Sys2Proof.core.run k s = o, Sys2Proof.core.run k t = o' at hrun ⊢
  cases o <;> cases o' <;> exact hrun

end Sys2Proof.Machine

/-! ### Words of an encoding, decoded (R107, R108, R109) -/

namespace Sys2Proof

/-- Only condition NV has the field 15 (R90). -/
theorem Cond.bits_ne_fifteen {c : Cond} (hc : c ≠ .nv) : c.bits ≠ 15#4 := fun h =>
  hc ((Cond.ofBits_bits c).symm.trans (congrArg Cond.ofBits h))

/-- A BR word with the selector of `B` is `B` (R88, R107). -/
theorem decodeArm_encodeBr_b {p : Params} {c : Cond} (hc : c ≠ .nv) (imm : BitVec 24) :
    decodeArm p (encodeBr c 12#4 imm) = .ok (.armB c imm) := by
  obtain ⟨hcond, hsel, himm⟩ := fields_encodeBr c 12#4 imm
  simp [decodeArm, hcond, hsel, himm, hc]

/-- A BR word with the set selector of `BL`, which is not that of `B`, is `BL` (R99, R107). -/
theorem decodeArm_encodeBr_bl {p : Params} {c : Cond} {f : BitVec 4} (hbl : p.armBlField4 = some f) (hf : f ≠ 12#4)
    (hc : c ≠ .nv) (imm : BitVec 24) : decodeArm p (encodeBr c f imm) = .ok (.armBl c imm) := by
  obtain ⟨hcond, hsel, himm⟩ := fields_encodeBr c f imm
  simp [decodeArm, hcond, hsel, himm, hc, hf, hbl]

/-- A legal `ARM_BL_FIELD4` is not the selector of `B` (R99). -/
theorem Params.armBlField4_ne_twelve {p : Params} (hp : p.blFieldOk = true) {f : BitVec 4}
    (hf : p.armBlField4 = some f) : f ≠ 12#4 := by
  simp only [Params.blFieldOk, hf, decide_eq_true_eq] at hp
  exact hp.1

/-- The one-bit field of a flag is set exactly when the flag is. -/
theorem ofBool_eq_one (b : Bool) : (BitVec.ofBool b = 1#1) = (b = true) := by
  cases b <;> decide

/-- A one-bit field is that of the flag it sets. -/
theorem ofBool_decide_eq_one (b : BitVec 1) : BitVec.ofBool (decide (b = 1#1)) = b := by
  revert b; decide

/-- Fields of the low 12 bits of a word, read in the word. -/
theorem extractLsb'_low12 (w : Word) {start len : Nat} (h : start + len ≤ 12) :
    (w.extractLsb' 0 12).extractLsb' start len = w.extractLsb' start len := by
  ext i hi
  have hin : start + i < 12 := by omega
  simp [hin]

/-- The DP word of an admitted immediate decodes to its `ADD` (R86, R93). -/
theorem decodeDp_encodeDp_imm {p : Params} {imm : BitVec 12} (himm : imm12Admitted p.armImm12Mode imm = true) (c : Cond)
    (s : Bool) (rd rn : ArmReg) :
    decodeDp p c (encodeDp c 1#1 (BitVec.ofBool s) rn rd imm) = .ok (.armAddImm c s rd rn imm) := by
  obtain ⟨-, -, hI, hopc, hS, hn, hd, hop2⟩ := fields_encodeDp c 1#1 (BitVec.ofBool s) rn rd imm
  simp [decodeDp, hI, hopc, hS, hn, hd, hop2, himm, ofBool_eq_one]

/-- The DP word of a shifted register decodes to its `ADD` (R86, R95). -/
theorem decodeDp_encodeDp_reg (p : Params) (c : Cond) (s : Bool) (rd rn rm : ArmReg) (h : BitVec 5) :
    decodeDp p c (encodeDp c 0#1 (BitVec.ofBool s) rn rd (shiftedRegBits rm h)) = .ok (.armAddReg c s rd rn rm h) := by
  obtain ⟨-, -, hI, hopc, hS, hn, hd, hop2⟩ := fields_encodeDp c 0#1 (BitVec.ofBool s) rn rd (shiftedRegBits rm h)
  obtain ⟨hsh, hzero, hm⟩ := fields_shiftedRegBits rm h
  rw [← hop2, extractLsb'_low12 _ (by decide)] at hsh hzero hm
  simp [decodeDp, hI, hopc, hS, hn, hd, hsh, hzero, hm, ofBool_eq_one]

/-- A shifted register decodes to itself as a register offset; an unscaled mode admits no shift (R95, R98). -/
theorem decodeRegOffset_shiftedRegBits {scaled : Bool} {h : BitVec 5} (hs : scaled = false → h = 0#5) (rm : ArmReg)
    (k : ArmReg → BitVec 5 → Instr) : decodeRegOffset scaled (shiftedRegBits rm h) k = .ok (k rm h) := by
  obtain ⟨hsh, hzero, hm⟩ := fields_shiftedRegBits rm h
  simpa [decodeRegOffset, hsh, hzero, hm] using hs

/-- The bits of a mode decode to that mode, under the key of its number (R98, R190). -/
theorem decodeDtOperands_offset12 (op : DtOp) (c : Cond) (rd rn : ArmReg) (m : DtMode) :
    decodeDtOperands ⟨op, m.number⟩ c rd rn m.offset12 = .ok (op.instr c rd rn m) := by
  cases m with
  | immOffset => rfl
  | indexed m =>
    simp only [decodeDtOperands]
    cases m with
    | immPre | immPost => rfl
    | regOffset | regPre | regPost => exact decodeRegOffset_shiftedRegBits (fun _ => rfl) ..
    | scaledOffset | scaledPre => exact decodeRegOffset_shiftedRegBits (scaled := true) nofun ..

/-- In a legal map the word of a transfer decodes to that transfer (R97, R107). -/
theorem decodeArm_encodeTransfer {p : Params} {op : DtOp} {c : Cond} {rd rn : ArmReg} {m : DtMode} {w : Word}
    (hd : p.dtMapOk = true) (hb : p.blFieldOk = true) (hc : c ≠ .nv) (h : encodeTransfer p op c rd rn m = some w) :
    decodeArm p w = .ok (op.instr c rd rn m) := by
  unfold encodeTransfer at h
  split at h
  next opc hopc =>
    cases h
    obtain ⟨hcond, hF, hfield, hn, hrd, hoff⟩ := fields_encodeDt c opc rn rd m.offset12
    rw [decodeArm_dt hb (hcond ▸ Cond.bits_ne_fifteen hc) hF, hcond, Cond.ofBits_bits]
    simp [decodeDt, hfield, hn, hrd, hoff, Params.dtKeyOf_of_dtOpcode hd hopc, decodeDtOperands_offset12]
  next => cases h

/-- With a condition other than NV a DP word is read by case 0 of `DecodeARM` (R107). -/
theorem decodeArm_encodeDp {p : Params} (hb : p.blFieldOk = true) {c : Cond} (hc : c ≠ .nv) (i s : BitVec 1)
    (rn rd : ArmReg) (op2 : BitVec 12) :
    decodeArm p (encodeDp c i s rn rd op2) = decodeDp p c (encodeDp c i s rn rd op2) := by
  obtain ⟨hcond, hF, -⟩ := fields_encodeDp c i s rn rd op2
  rw [decodeArm_dp hb (hcond ▸ Cond.bits_ne_fifteen hc) hF, hcond, Cond.ofBits_bits]

/-- Under legal parameters the word of a well-formed ARM instruction decodes to it (R107). -/
theorem decodeArm_encode {p : Params} {i : Instr} {w : Word} (hd : p.dtMapOk = true) (hb : p.blFieldOk = true)
    (harm : i.isa = .arm) (hcond : condOk i = true) (himm : immOk p i = true) (h : encode p i = some w) :
    decodeArm p w = .ok i := by
  cases i with
  | armAddReg c s rd rn rm sh =>
    cases h
    rw [decodeArm_encodeDp hb (of_decide_eq_true hcond), decodeDp_encodeDp_reg]
  | armAddImm c s rd rn imm =>
    cases h
    rw [decodeArm_encodeDp hb (of_decide_eq_true hcond), decodeDp_encodeDp_imm (immOk_armAddImm .. ▸ himm)]
  | armB => cases h; exact decodeArm_encodeBr_b (of_decide_eq_true hcond) _
  | armBl =>
    obtain ⟨f, hf, rfl⟩ := Option.map_eq_some_iff.mp h
    exact decodeArm_encodeBr_bl hf (Params.armBlField4_ne_twelve hb hf) (of_decide_eq_true hcond) _
  | armLdrImm | armLdrIndexed | armStr =>
    simp only [encode] at h
    exact decodeArm_encodeTransfer hd hb (of_decide_eq_true hcond) h
  | mipsAdd | mipsAddi | mipsLw | mipsSw | mipsBeq | mipsJ => cases harm

/-- With the gate open the word of a MIPS instruction decodes to it (R108). -/
theorem decodeMips_encode {p : Params} {i : Instr} {w : Word} (hgate : p.mipsRepresentativeSet = true)
    (hmips : i.isa = .mips) (h : encode p i = some w) : decodeMips p w = .ok i := by
  cases i with
  | mipsAdd rd rs rt =>
    cases h
    simp [decodeMips, hgate, fields_encodeR]
  | mipsAddi rt rs imm | mipsLw rt rs imm | mipsSw rt rs imm | mipsBeq rs rt imm =>
    cases h
    simp [decodeMips, hgate, fields_encodeI]
  | mipsJ target =>
    cases h
    simp [decodeMips, hgate, fields_encodeJ]
  | armAddReg | armAddImm | armLdrImm | armB | armBl | armLdrIndexed | armStr => cases hmips

/-- Settles O1: the decoder of the instruction's machine takes each format apart again. -/
theorem encodedInstructionDecodesToItself : Obligations.EncodedInstructionDecodesToItself := by
  intro p i w hd hb hwf h
  obtain ⟨hisa, hgate, hcond, himm⟩ := wellFormed_iff.mp hwf
  unfold decode
  split
  next harm => exact decodeArm_encode hd hb (hisa.trans harm) hcond himm h
  next hmips =>
    have hi : i.isa = .mips := hisa.trans hmips
    exact decodeMips_encode (by simpa [gateOk, hi] using hgate) hi h

/-! ### A decoded word, encoded (R107, R108, R109) -/

@[simp] theorem encode_dtInstr (p : Params) (op : DtOp) (c : Cond) (rd rn : ArmReg) (m : DtMode) :
    encode p (op.instr c rd rn m) = encodeTransfer p op c rd rn m := by
  cases op <;> cases m <;> rfl

/-- A BR word is the encoding of its fields (R88). -/
theorem encodeBr_fields (w : Word) :
    encodeBr (Cond.ofBits (w.extractLsb' 28 4)) (w.extractLsb' 24 4) (w.extractLsb' 0 24) = w := by
  rw [encodeBr, Cond.bits_ofBits]
  exact place_fields_br w

/-- A DP word of `ADD` is the encoding of its fields (R86). -/
theorem encodeDp_fields {w : Word} {rn rd : ArmReg} (hF : w.extractLsb' 26 2 = 0#2) (hopc : w.extractLsb' 21 4 = 4#4)
    (hn : armReg? (w.extractLsb' 16 4) = some rn) (hd : armReg? (w.extractLsb' 12 4) = some rd) :
    encodeDp (Cond.ofBits (w.extractLsb' 28 4)) (w.extractLsb' 25 1) (w.extractLsb' 20 1) rn rd (w.extractLsb' 0 12) =
      w := by
  rw [encodeDp, Cond.bits_ofBits, ArmReg.bits_of_armReg? hn, ArmReg.bits_of_armReg? hd, ← hF, ← hopc]
  exact place_fields_dp w

/-- A DT word is the encoding of its fields (R87). -/
theorem encodeDt_fields {w : Word} {rn rd : ArmReg} (hF : w.extractLsb' 26 2 = 1#2)
    (hn : armReg? (w.extractLsb' 16 4) = some rn) (hd : armReg? (w.extractLsb' 12 4) = some rd) :
    encodeDt (Cond.ofBits (w.extractLsb' 28 4)) (w.extractLsb' 20 6) rn rd (w.extractLsb' 0 12) = w := by
  rw [encodeDt, Cond.bits_ofBits, ArmReg.bits_of_armReg? hn, ArmReg.bits_of_armReg? hd, ← hF]
  exact place_fields_dt w

/-- A DP word that decodes is the encoding of its `ADD`. -/
theorem encode_of_decodeDp {p : Params} {w : Word} {i : Instr} (hF : w.extractLsb' 26 2 = 0#2)
    (h : decodeDp p (Cond.ofBits (w.extractLsb' 28 4)) w = .ok i) : encode p i = some w := by
  obtain ⟨hopc, rn, rd, hn, hd, ⟨hI, -, rfl⟩ | ⟨hI, rm, hm, hzero, rfl⟩⟩ := decodeDp_eq_ok h
  · rw [encode, ofBool_decide_eq_one, ← hI, encodeDp_fields hF hopc hn hd]
  · have hI0 : w.extractLsb' 25 1 = 0#1 := BitVec.eq_zero_or_eq_one _ |>.resolve_right hI
    have hop2 : shiftedRegBits rm (w.extractLsb' 7 5) = w.extractLsb' 0 12 := by
      rw [← extractLsb'_low12 w (by decide)] at hm hzero ⊢
      exact shiftedRegBits_eq hm hzero
    rw [encode, ofBool_decide_eq_one, hop2, ← hI0, encodeDp_fields hF hopc hn hd]

/-- A DT word that decodes is the encoding of its transfer. -/
theorem encode_of_decodeDt {p : Params} {w : Word} {i : Instr} (hF : w.extractLsb' 26 2 = 1#2)
    (h : decodeDt p (Cond.ofBits (w.extractLsb' 28 4)) w = .ok i) : encode p i = some w := by
  obtain ⟨k, rn, rd, m, hk, hn, hd, rfl, hnum, hoff⟩ := decodeDt_eq_ok h
  rw [encode_dtInstr, encodeTransfer, hnum, Params.dtOpcode_of_dtKeyOf hk, hoff]
  exact congrArg some (encodeDt_fields hF hn hd)

/-- An ARM word that decodes is the encoding of its instruction (R107). -/
theorem encode_of_decodeArm {p : Params} {w : Word} {i : Instr} (h : decodeArm p w = .ok i) : encode p i = some w := by
  obtain ⟨-, ⟨hb, rfl⟩ | ⟨hbl, rfl⟩ | ⟨hF, hdp⟩ | ⟨hF, hdt⟩⟩ := decodeArm_eq_ok h
  · rw [encode, ← hb, encodeBr_fields]
  · rw [encode, hbl, Option.map_some, encodeBr_fields]
  · exact encode_of_decodeDp hF hdp
  · exact encode_of_decodeDt hF hdt

/-- What each of the six MIPS words that decode holds in its op field and, for `add`, in shamt and funct (R108). -/
theorem decodeMips_eq_ok {p : Params} {w : Word} {i : Instr} (h : decodeMips p w = .ok i) :
    let f := fieldsMips w
    let rs := mipsReg f.rs
    let rt := mipsReg f.rt
    (f.op = 0#6 ∧ f.funct = 32#6 ∧ f.shamt = 0#5 ∧ i = .mipsAdd (mipsReg f.rd) rs rt) ∨
      (f.op = 2#6 ∧ i = .mipsJ f.target26) ∨ (f.op = 4#6 ∧ i = .mipsBeq rs rt f.imm16) ∨
      (f.op = 8#6 ∧ i = .mipsAddi rt rs f.imm16) ∨ (f.op = 35#6 ∧ i = .mipsLw rt rs f.imm16) ∨
      (f.op = 43#6 ∧ i = .mipsSw rt rs f.imm16) := by
  rw [decodeMips, if_pos (decodeMips_gate h)] at h
  simp only at h
  split at h
  next hadd =>
    split at h
    next hfn =>
      split at h
      next hsh => cases h; exact .inl ⟨hadd, hfn, hsh, rfl⟩
      next => cases h
    next => cases h
  split at h
  next hj => cases h; exact .inr (.inl ⟨hj, rfl⟩)
  split at h
  next hbeq => cases h; exact .inr (.inr (.inl ⟨hbeq, rfl⟩))
  split at h
  next haddi => cases h; exact .inr (.inr (.inr (.inl ⟨haddi, rfl⟩)))
  split at h
  next hlw => cases h; exact .inr (.inr (.inr (.inr (.inl ⟨hlw, rfl⟩))))
  split at h
  next hsw => cases h; exact .inr (.inr (.inr (.inr (.inr ⟨hsw, rfl⟩))))
  next => cases h

/-- A MIPS word that decodes is the encoding of its instruction (R108). -/
theorem encode_of_decodeMips {p : Params} {w : Word} {i : Instr} (h : decodeMips p w = .ok i) :
    encode p i = some w := by
  have hI := encodeI_fields w
  obtain ⟨hop, hfn, hsh, rfl⟩ | ⟨hop, rfl⟩ | ⟨hop, rfl⟩ | ⟨hop, rfl⟩ | ⟨hop, rfl⟩ | ⟨hop, rfl⟩ := decodeMips_eq_ok h
  · have hR := encodeR_fields w
    rw [hop, hfn, hsh] at hR
    simp [encode, hR]
  · have hJ := encodeJ_fields w
    rw [hop] at hJ
    simp [encode, hJ]
  all_goals
    rw [hop] at hI
    simp [encode, hI]

/-- Settles O2: each format's fields, put together again, are the word. -/
theorem decodedWordIsItsEncoding : Obligations.DecodedWordIsItsEncoding := by
  intro p w i h
  unfold decode at h
  split at h
  · exact encode_of_decodeArm h
  · exact encode_of_decodeMips h

/-! ### Which instructions have a word (R97, R99, R109) -/

/-- A transfer has a word exactly when `ARM_DT_OPCODE` has an entry for it. -/
theorem encodeTransfer_isSome (p : Params) (op : DtOp) (c : Cond) (rd rn : ArmReg) (m : DtMode) :
    (encodeTransfer p op c rd rn m).isSome = (p.dtOpcode ⟨op, m.number⟩).isSome := by
  unfold encodeTransfer
  split
  next hopc => rw [hopc]; rfl
  next hopc => rw [hopc]; rfl

/-- Settles O4: `BL` by its field, the transfers by their entry (that of `LDR` in mode 5 is fixed), the rest always. -/
theorem instructionHasWordUnlessOpen : Obligations.InstructionHasWordUnlessOpen := by
  intro p i
  cases i with
  | armBl => exact Option.isSome_map
  | armLdrImm | armLdrIndexed | armStr =>
    simp only [encode]
    exact encodeTransfer_isSome ..
  | armAddReg | armAddImm | armB | mipsAdd | mipsAddi | mipsLw | mipsSw | mipsBeq | mipsJ => rfl

end Sys2Proof

/-! ### Words the spec writes out (R96, R97, R99) -/

namespace Sys2Proof

/-- Settles O5: the ARM words and the MIPS words are closed, so each decoder is run on them. -/
theorem specWordsDecode : Obligations.SpecWordsDecode :=
  ⟨by decide, by decide⟩

/-! ### The fields of a word as numbers (R81, R82, R83) -/

/-- A field is its upper part, weighted by the width of its lower part, plus its lower part. -/
theorem toNat_extractLsb'_add {n : Nat} (w : BitVec n) (lo a b : Nat) :
    (w.extractLsb' lo (b + a)).toNat = (w.extractLsb' (lo + a) b).toNat * 2 ^ a + (w.extractLsb' lo a).toNat := by
  simp only [BitVec.extractLsb'_toNat, Nat.shiftRight_add]
  rw [Nat.shiftRight_eq_div_pow (w.toNat >>> lo), Nat.add_comm b a, Nat.pow_add, Nat.mod_mul]
  ring

/-- Settles O6: each format cuts the word, from bit 31 down, at the lower end of each of its fields. -/
theorem mipsFieldsMakeUpTheWord : Obligations.MipsFieldsMakeUpTheWord := by
  intro w
  have hword : w.toNat = (w.extractLsb' 0 32).toNat := by simp
  have cut (lo b : Nat) := toNat_extractLsb'_add w 0 lo b
  have hop : (w.extractLsb' 0 32).toNat = (w.extractLsb' 26 6).toNat * 2 ^ 26 + (w.extractLsb' 0 26).toNat := cut 26 6
  have hrs : (w.extractLsb' 0 26).toNat = (w.extractLsb' 21 5).toNat * 2 ^ 21 + (w.extractLsb' 0 21).toNat := cut 21 5
  have hrt : (w.extractLsb' 0 21).toNat = (w.extractLsb' 16 5).toNat * 2 ^ 16 + (w.extractLsb' 0 16).toNat := cut 16 5
  have hrd : (w.extractLsb' 0 16).toNat = (w.extractLsb' 11 5).toNat * 2 ^ 11 + (w.extractLsb' 0 11).toNat := cut 11 5
  have hsh : (w.extractLsb' 0 11).toNat = (w.extractLsb' 6 5).toNat * 2 ^ 6 + (w.extractLsb' 0 6).toNat := cut 6 5
  simp only [fieldsMips]
  omega

/-! ### 12-bit immediates (R93) -/

/-- `Operand2[11:8]` as a number. -/
theorem toNat_imm12_high (imm : BitVec 12) : (imm.extractLsb' 8 4).toNat = imm.toNat / 256 := by
  rw [BitVec.extractLsb'_toNat, Nat.shiftRight_eq_div_pow]
  have := imm.isLt
  omega

/-- `Operand2[11:8]` is 0 exactly below 256. -/
theorem imm12_high_eq_zero_iff (imm : BitVec 12) : imm.extractLsb' 8 4 = 0#4 ↔ imm.toNat < 256 := by
  rw [← BitVec.toNat_inj, toNat_imm12_high]
  simp [Nat.div_eq_zero_iff]

/-- `Operand2[7:0]` as a word. -/
theorem setWidth_imm12_low (imm : BitVec 12) :
    (imm.extractLsb' 0 8).setWidth 32 = BitVec.ofNat 32 (imm.toNat % 256) := by
  rw [← BitVec.ofNat_toNat, BitVec.extractLsb'_toNat]
  rfl

/-- A byte `x` rotated right by `2 * h` places is not `256 * h + x`. Up to 20 places a bit that wraps round is worth more
than any 12 bits, and without one the byte does not grow; from 22 places every bit wraps round, and the product is
another number for each `h`. -/
theorem rotated_byte_ne {h x : Nat} (hpos : 0 < h) (hlt : h < 16) (hx : x < 256) :
    x / 2 ^ (2 * h) ||| x * 2 ^ (32 - 2 * h) % 2 ^ 32 ≠ 256 * h + x := by
  intro heq
  have hwrapped : x * 2 ^ (32 - 2 * h) % 2 ^ 32 = x % 2 ^ (2 * h) * 2 ^ (32 - 2 * h) := by
    rw [← Nat.mul_mod_mul_right, ← Nat.pow_add, show 2 * h + (32 - 2 * h) = 32 by omega]
  rw [hwrapped] at heq
  obtain hsmall | hlarge := Nat.lt_or_ge h 11
  · have hpow : 2 ^ 12 ≤ 2 ^ (32 - 2 * h) := Nat.pow_le_pow_right (by decide) (by omega)
    have hle : x % 2 ^ (2 * h) * 2 ^ (32 - 2 * h) ≤ 256 * h + x := heq ▸ Nat.right_le_or
    obtain hnone | hsome := Nat.eq_zero_or_pos (x % 2 ^ (2 * h))
    · rw [hnone, Nat.zero_mul, Nat.or_zero] at heq
      have := Nat.div_le_self x (2 ^ (2 * h))
      omega
    · have := Nat.le_mul_of_pos_left (2 ^ (32 - 2 * h)) hsome
      omega
  · have hpow : 2 ^ 8 ≤ 2 ^ (2 * h) := Nat.pow_le_pow_right (by decide) (by omega)
    rw [Nat.div_eq_of_lt (by omega), Nat.zero_or, Nat.mod_eq_of_lt (by omega)] at heq
    interval_cases h <;> omega

/-- No byte rotated right by a number of places other than 0 is the 12 bits that say so (R93). -/
theorem rotateRight_ne_imm12 {h x : Nat} (hpos : 0 < h) (hlt : h < 16) (hx : x < 256) :
    (BitVec.ofNat 32 x).rotateRight (2 * h) ≠ BitVec.ofNat 32 (256 * h + x) := by
  intro heq
  have hnat := congrArg BitVec.toNat heq
  rw [BitVec.toNat_rotateRight, BitVec.toNat_ofNat, BitVec.toNat_ofNat, Nat.mod_eq_of_lt (a := x) (by omega),
    Nat.mod_eq_of_lt (a := 2 * h) (by omega), Nat.mod_eq_of_lt (a := 256 * h + x) (by omega),
    Nat.shiftRight_eq_div_pow, Nat.shiftLeft_eq] at hnat
  exact rotated_byte_ne hpos hlt hx hnat

/-! ### Words outside the admitted forms (R89, R93, R95, R97, R102, R107) -/

/-- An Opcode that no key has selects none (R97). -/
theorem Params.dtKeyOf_eq_none {p : Params} {opc : BitVec 6} (h : ∀ k, p.dtOpcode k ≠ some opc) :
    p.dtKeyOf opc = none :=
  Option.eq_none_iff_forall_ne_some.mpr fun k hk => h k (Params.dtOpcode_of_dtKeyOf hk)

/-- A DT word whose Opcode selects no key is refused (R97, R102). -/
theorem decodeDt_no_key {p : Params} {w : Word} (h : p.dtKeyOf (w.extractLsb' 20 6) = none) (c : Cond) :
    decodeDt p c w = .illegalInstruction := by
  rw [decodeDt, h]

/-- A word with `F` above 1 that is neither `B` nor a set `BL` is refused (R89, R99, R102). -/
theorem decodeArm_no_branch {p : Params} {w : Word} (hc : w.extractLsb' 28 4 ≠ 15#4)
    (hF : w.extractLsb' 26 2 = 2#2 ∨ w.extractLsb' 26 2 = 3#2) (hb : w.extractLsb' 24 4 ≠ 12#4)
    (hbl : p.armBlField4 ≠ some (w.extractLsb' 24 4)) : decodeArm p w = .illegalInstruction := by
  have hdp : w.extractLsb' 26 2 ≠ 0#2 := by obtain h | h := hF <;> simp [h]
  have hdt : w.extractLsb' 26 2 ≠ 1#2 := by obtain h | h := hF <;> simp [h]
  simp [decodeArm, Cond.ofBits_ne_nv hc, hb, hbl, hdp, hdt]

/-- A field other than 15 names a register (R20, R21). -/
theorem armReg?_of_ne_fifteen {b : BitVec 4} (h : b ≠ 15#4) : ∃ r, armReg? b = some r :=
  Option.ne_none_iff_exists'.mp fun hnone => h (armReg?_eq_none.mp hnone)

/-- Under `refuse_high` an immediate with `Operand2[11:8]` not 0 is not admitted (R93). -/
theorem imm12Admitted_refuseHigh {imm : BitVec 12} (h : imm.extractLsb' 8 4 ≠ 0#4) :
    imm12Admitted .refuseHigh imm = false :=
  decide_eq_false h

/-- An `ADD` word whose immediate is not admitted is refused (R93, R107). -/
theorem decodeDp_imm_refused {p : Params} {w : Word} (hopc : w.extractLsb' 21 4 = 4#4)
    (hn : w.extractLsb' 16 4 ≠ 15#4) (hd : w.extractLsb' 12 4 ≠ 15#4) (hI : w.extractLsb' 25 1 = 1#1)
    (hadm : imm12Admitted p.armImm12Mode (w.extractLsb' 0 12) = false) (c : Cond) :
    decodeDp p c w = .refusedOperandForm := by
  obtain ⟨rn, hrn⟩ := armReg?_of_ne_fifteen hn
  obtain ⟨rd, hrd⟩ := armReg?_of_ne_fifteen hd
  simp [decodeDp, hopc, hrn, hrd, hI, hadm]

/-- An `ADD` word whose register operand has `Operand2[6:4]` not 0 is refused (R95, R107). -/
theorem decodeDp_reg_refused {p : Params} {w : Word} (hopc : w.extractLsb' 21 4 = 4#4)
    (hn : w.extractLsb' 16 4 ≠ 15#4) (hd : w.extractLsb' 12 4 ≠ 15#4) (hI : w.extractLsb' 25 1 = 0#1)
    (hm : w.extractLsb' 0 4 ≠ 15#4) (hbits : w.extractLsb' 4 3 ≠ 0#3) (c : Cond) :
    decodeDp p c w = .refusedOperandForm := by
  obtain ⟨rn, hrn⟩ := armReg?_of_ne_fifteen hn
  obtain ⟨rd, hrd⟩ := armReg?_of_ne_fifteen hd
  obtain ⟨rm, hrm⟩ := armReg?_of_ne_fifteen hm
  simp [decodeDp, hopc, hrn, hrd, hrm, hI, hbits]

/-- A register offset with bits 6 to 4 not 0, or with a shift in an unscaled mode, is refused (R95, R98). -/
theorem decodeRegOffset_refused {scaled : Bool} {off : BitVec 12} (hm : off.extractLsb' 0 4 ≠ 15#4)
    (hbits : off.extractLsb' 4 3 ≠ 0#3 ∨ (scaled = false ∧ off.extractLsb' 7 5 ≠ 0#5))
    (k : ArmReg → BitVec 5 → Instr) : decodeRegOffset scaled off k = .refusedOperandForm := by
  obtain ⟨rm, hrm⟩ := armReg?_of_ne_fifteen hm
  obtain hzero | ⟨rfl, hshift⟩ := hbits
  · simp [decodeRegOffset, hrm, hzero]
  · simp [decodeRegOffset, hrm, hshift]

/-- The same for the operands of the modes with an offset register; modes 6, 10 and 12 are unscaled (R98, R190). -/
theorem decodeDtOperands_refused {k : DtKey} {off : BitVec 12} (hm : off.extractLsb' 0 4 ≠ 15#4)
    (hbits : (k.mode ∈ [ModeNumber.m6, .m7, .m10, .m11, .m12] ∧ off.extractLsb' 4 3 ≠ 0#3) ∨
      (k.mode ∈ [ModeNumber.m6, .m10, .m12] ∧ off.extractLsb' 7 5 ≠ 0#5)) (c : Cond) (rd rn : ArmReg) :
    decodeDtOperands k c rd rn off = .refusedOperandForm := by
  obtain ⟨op, mode⟩ := k
  simp only [decodeDtOperands]
  cases mode with
  | m6 | m10 | m12 => exact decodeRegOffset_refused hm (hbits.imp And.right fun h => ⟨rfl, h.2⟩) _
  | m7 | m11 => exact decodeRegOffset_refused hm (.inl (by simpa using hbits)) _
  | m5 | m8 | m9 => simp at hbits

/-- A transfer word of a set key whose register fields name registers is read by the key's mode (R107). -/
theorem decodeDt_of_key {p : Params} {w : Word} {k : DtKey} (hkey : p.dtKeyOf (w.extractLsb' 20 6) = some k)
    (hn : w.extractLsb' 16 4 ≠ 15#4) (hd : w.extractLsb' 12 4 ≠ 15#4) (c : Cond) :
    ∃ rn rd, decodeDt p c w = decodeDtOperands k c rd rn (w.extractLsb' 0 12) := by
  obtain ⟨rn, hrn⟩ := armReg?_of_ne_fifteen hn
  obtain ⟨rd, hrd⟩ := armReg?_of_ne_fifteen hd
  exact ⟨rn, rd, by simp [decodeDt, hkey, hrn, hrd]⟩

end Sys2Proof

namespace Sys2Proof.Machine

/-- Settles O14: from 256 up the rotation is by 2 to 30 places. -/
theorem immediateModesAgreeOnlyBelow256 : Obligations.ImmediateModesAgreeOnlyBelow256 := by
  intro imm
  have hzext : imm12Value .zext12 imm = some (BitVec.ofNat 32 imm.toNat) := by
    rw [imm12Value, BitVec.ofNat_toNat]
  have hrot : imm12Value .rot8 imm =
      some ((BitVec.ofNat 32 (imm.toNat % 256)).rotateRight (2 * (imm.toNat / 256))) := by
    rw [imm12Value, setWidth_imm12_low, toNat_imm12_high]
  refine ⟨?_, hzext, hrot, ?_⟩
  · simp only [imm12Value, imm12_high_eq_zero_iff, setWidth_imm12_low]
    split
    next hlow => rw [Nat.mod_eq_of_lt hlow]
    next => rfl
  · rw [hzext, hrot, Option.some.injEq]
    constructor
    · intro heq
      by_contra hhigh
      have himm := imm.isLt
      refine rotateRight_ne_imm12 (h := imm.toNat / 256) (by omega) (by omega)
        (Nat.mod_lt imm.toNat (by decide)) ?_
      rw [← heq, Nat.div_add_mod]
    · intro hlow
      rw [Nat.mod_eq_of_lt hlow, Nat.div_eq_of_lt hlow]
      simp [BitVec.rotateRight_def]

/-! ### The steps of such words -/

/-- A fetched ARM word the decoder calls illegal is refused, with the pc and the word (R102, R241). -/
theorem step_of_decodeArm_illegal {s : State} {w : Word} (harm : s.params.isa = .arm) (hf : fetch s = .next (.word w))
    (hd : decodeArm s.params w = .illegalInstruction) : step s = .refused (.illegalInstruction s.pc (some w)) := by
  rw [step_of_fetch_arm_word harm hf, hd]
  rfl

/-- A fetched ARM word whose operand form the decoder refuses is refused, with the pc and the word (R241). -/
theorem step_of_decodeArm_operandForm {s : State} {w : Word} (harm : s.params.isa = .arm)
    (hf : fetch s = .next (.word w)) (hd : decodeArm s.params w = .refusedOperandForm) :
    step s = .refused (.refusedOperandForm s.pc (some w)) := by
  rw [step_of_fetch_arm_word harm hf, hd]
  rfl

/-- Settles O9: by `F` the word is read as a transfer without a key, or falls through every case of the decoder. -/
theorem otherTransferAndBranchWordsAreIllegal : Obligations.OtherTransferAndBranchWordsAreIllegal := by
  intro s w harm hbl hf hc
  refine ⟨fun hF hopc => ?_, fun hF hb hsel => ?_⟩ <;> apply step_of_decodeArm_illegal harm hf
  · exact (decodeArm_dt hbl hc hF).trans (decodeDt_no_key (Params.dtKeyOf_eq_none hopc) _)
  · exact decodeArm_no_branch hc hF hb hsel

/-- Settles O11: the two word clauses by the decoder, the clause on terms by the missing value of the immediate. -/
theorem addOperandFormsWithoutMeaningAreRefused : Obligations.AddOperandFormsWithoutMeaningAreRefused := by
  refine ⟨fun s w harm hbl hf hc hF hopc hn hd => ⟨fun hI hmode hhigh => ?_, fun hI hm hbits => ?_⟩, ?_⟩
  · apply step_of_decodeArm_operandForm harm hf
    rw [decodeArm_dp hbl hc hF]
    refine decodeDp_imm_refused hopc hn hd hI ?_ _
    rw [hmode]
    exact imm12Admitted_refuseHigh (by rwa [extractLsb'_low12 w (by decide)])
  · apply step_of_decodeArm_operandForm harm hf
    rw [decodeArm_dp hbl hc hF]
    exact decodeDp_reg_refused hopc hn hd hI hm hbits _
  · intro s cond setFlags rd rn imm hmode himm hc
    have hvalue : imm12Value s.params.armImm12Mode imm = none := by
      rw [hmode, imm12Value, if_neg (mt (imm12_high_eq_zero_iff imm).mp (Nat.not_lt.mpr himm))]
    simp [exec, execArmAddImm, hvalue, hc]

/-- Settles O12: the word reaches the register offset of its mode, which refuses it for either reason. -/
theorem registerOffsetFormsWithoutMeaningAreRefused : Obligations.RegisterOffsetFormsWithoutMeaningAreRefused := by
  intro s w k harm hbl hf hc hF hkey hn hd hm
  obtain ⟨rn, rd, hdt⟩ := decodeDt_of_key hkey hn hd (Cond.ofBits (w.extractLsb' 28 4))
  have hword := (decodeArm_dt hbl hc hF).trans hdt
  simp only [← extractLsb'_low12 w (show 0 + 4 ≤ 12 by decide), ← extractLsb'_low12 w (show 4 + 3 ≤ 12 by decide),
    ← extractLsb'_low12 w (show 7 + 5 ≤ 12 by decide)] at hm ⊢
  refine ⟨fun hmode hbits => ?_, fun hmode hshift => ?_⟩ <;> apply step_of_decodeArm_operandForm harm hf <;> rw [hword]
  · exact decodeDtOperands_refused hm (.inl ⟨hmode, hbits⟩) ..
  · exact decodeDtOperands_refused hm (.inr ⟨hmode, hshift⟩) ..

/-! ### Branch targets as sums (R221) -/

/-- A displacement field shifted left by 2 is four times the field's signed value. -/
theorem signExtend_shiftLeft_two {n : Nat} (imm : BitVec n) :
    (imm.signExtend 32 <<< 2 : Word) = BitVec.ofInt 32 (4 * imm.toInt) := by
  rw [BitVec.shiftLeft_eq_mul_twoPow, BitVec.mul_comm, BitVec.ofInt_mul]
  rfl

theorem armBranchTarget_eq (p : Params) (pc : Word) (imm : BitVec 24) :
    armBranchTarget p pc imm = pc + p.armPcReadOffset + BitVec.ofInt 32 (4 * imm.toInt) := by
  rw [armBranchTarget, signExtend_shiftLeft_two]

/-- Settles O32: the target is the one R221 gives, and no other field of the state is written. -/
theorem branchGoesToItsTarget : Obligations.BranchGoesToItsTarget := by
  intro s cond imm hc
  simp only [← armBranchTarget_eq]
  exact ⟨whenPassed_of_true hc _, fun hpc hoff => armBranchTarget_aligned hpc hoff imm⟩

/-! ### Every instruction has a meaning (R109) -/

/-- Settles O20: every refusal of an instruction records the pc, and `notModelled` records none. -/
theorem everyInstructionHasMeaning : Obligations.EveryInstructionHasMeaning := by
  intro i s name h
  have hpc := h ▸ exec_stopsAt i s
  cases hpc

end Sys2Proof.Machine

/-! ### Signed sums written to a MIPS register (R152, R153) -/

namespace Sys2Proof.Machine

/-- A signed sum that does not fit in 32 bits faults. -/
theorem addSigned_overflow {s : State} {a b : Word}
    (h : a.toInt + b.toInt < -2 ^ 31 ∨ 2 ^ 31 - 1 < a.toInt + b.toInt) :
    addSigned s a b = .fault (.integerOverflow s.pc) := by
  rw [addSigned]
  exact if_pos h

/-- `add` and `addi` end alike once their operands are read: the sum written, or the overflow, whatever `rd` is. -/
theorem writeSum_result_and_overflow (s : State) (rd : MipsReg) (a b : Word) :
    let o := andThen (addSigned s a b) fun r => .next (s.writeMips rd r).advance
    (-2 ^ 31 ≤ a.toInt + b.toInt → a.toInt + b.toInt ≤ 2 ^ 31 - 1 →
      ∃ t, o = .next t ∧ MipsResult s t rd (BitVec.ofInt 32 (a.toInt + b.toInt)) (s.pc + 4)) ∧
    (a.toInt + b.toInt < -2 ^ 31 ∨ 2 ^ 31 - 1 < a.toInt + b.toInt → o = .fault (.integerOverflow s.pc)) := by
  refine ⟨fun hlow hhigh => ?_, fun hover => ?_⟩
  · rw [addSigned_eq_next.mpr ⟨hlow, hhigh, rfl⟩]
    exact ⟨_, rfl, mipsResult_writeMips ..⟩
  · rw [addSigned_overflow hover, andThen_fault]

/-- The unbounded sum of the signed values, as a word, is the sum of the words. -/
theorem ofInt_toInt_add (a b : Word) : BitVec.ofInt 32 (a.toInt + b.toInt) = a + b := by
  rw [BitVec.ofInt_add, BitVec.ofInt_toInt, BitVec.ofInt_toInt]

/-- Immediate addressing keeps the signed value of the field (R130). -/
theorem toInt_immOperand (imm : BitVec 16) : (immOperand imm).toInt = imm.toInt :=
  BitVec.toInt_signExtend_of_le (by decide)

/-- Settles O35: with both sources read `add` is the sum of their words; the reads stop it in their order. -/
theorem mipsAddResultAndFaults : Obligations.MipsAddResultAndFaults := by
  intro s rd rs rt
  refine ⟨fun a b ha hb => ?_, fun ha => ?_, fun a ha hb => ?_⟩
  · simp only [exec, execMipsAdd, readMips_of_some ha, readMips_of_some hb, andThen_next, ← ofInt_toInt_add a b]
    exact writeSum_result_and_overflow s rd a b
  · simp only [exec, execMipsAdd, readMips_of_none ha, andThen_fault]
  · simp only [exec, execMipsAdd, readMips_of_some ha, readMips_of_none hb, andThen_next, andThen_fault]

/-- Settles O36: with its source read `addi` is the sum with an operand of the immediate's signed value. -/
theorem mipsAddiResultAndFaults : Obligations.MipsAddiResultAndFaults := by
  intro s rt rs imm
  refine ⟨fun a ha => ?_, fun ha => ?_⟩
  · simp only [exec, execMipsAddi, readMips_of_some ha, andThen_next, ← toInt_immOperand imm]
    exact writeSum_result_and_overflow s rt a (immOperand imm)
  · simp only [exec, execMipsAddi, readMips_of_none ha, andThen_fault]

/-! ### `beq` and `j` (R156, R157) -/

/-- Without a delay slot a branch or jump is its body (R274). -/
theorem withoutDelaySlot_of_false {s : State} (h : s.params.mipsBranchDelaySlot = false) (body : Res State) :
    withoutDelaySlot s body = body := by
  simp [withoutDelaySlot, h]

theorem mipsBranchTarget_eq (pc : Word) (imm : BitVec 16) :
    mipsBranchTarget pc imm = pc + 4 + BitVec.ofInt 32 (4 * imm.toInt) :=
  congrArg (pc + 4 + ·) (signExtend_shiftLeft_two imm)

/-- Settles O39: with both registers read `beq` is a jump or an advance, and either writes the pc alone. -/
theorem mipsBeqBranchesOnEqual : Obligations.MipsBeqBranchesOnEqual := by
  intro s rs rt imm hslot
  simp only [exec, execMipsBeq, withoutDelaySlot_of_false hslot]
  refine ⟨fun a b ha hb => ?_, fun ha => ?_, fun a ha hb => ?_⟩
  · rw [readMips_of_some ha, readMips_of_some hb, andThen_next, andThen_next, mipsBranchTarget_eq]
    split <;> rfl
  · rw [readMips_of_none ha, andThen_fault]
  · rw [readMips_of_some ha, readMips_of_none hb, andThen_next, andThen_fault]

/-- A field that fits in the word above bit `lo` is weighted by `2 ^ lo`. -/
theorem toNat_place {n lo width : Nat} (h : n + lo ≤ width) (f : BitVec n) :
    (place width lo f).toNat = 2 ^ lo * f.toNat := by
  have hlt : 2 ^ lo * f.toNat < 2 ^ width := calc
    2 ^ lo * f.toNat < 2 ^ lo * 2 ^ n := Nat.mul_lt_mul_of_pos_left f.isLt (Nat.two_pow_pos lo)
    _ = 2 ^ (n + lo) := by rw [← Nat.pow_add, Nat.add_comm]
    _ ≤ 2 ^ width := Nat.pow_le_pow_right (by decide) h
  rw [place, BitVec.toNat_shiftLeft, BitVec.toNat_setWidth_of_le (by omega), Nat.shiftLeft_eq, Nat.mul_comm,
    Nat.mod_eq_of_lt hlt]

/-- Pseudodirect addressing as a number: the region of `pc + 4`, and the place the field names in it (R134). -/
theorem toNat_mipsJumpTarget (pc : Word) (target : BitVec 26) :
    (mipsJumpTarget pc target).toNat = (pc + 4).toNat / 2 ^ 28 * 2 ^ 28 + target.toNat * 4 := by
  have hregion : ((pc + 4).extractLsb' 28 4).toNat = (pc + 4).toNat / 2 ^ 28 := by
    rw [BitVec.extractLsb'_toNat, Nat.shiftRight_eq_div_pow]
    omega
  have hoffset : 2 ^ 2 * target.toNat < 2 ^ 28 := by omega
  rw [mipsJumpTarget, BitVec.toNat_or, BitVec.toNat_or, toNat_place (by decide), toNat_place (by decide),
    toNat_place (by decide), hregion, ← Nat.two_pow_add_eq_or_of_lt hoffset]
  simp only [BitVec.toNat_ofNat, Nat.zero_mod, Nat.mul_zero, Nat.or_zero]
  omega

/-- Settles O40: `j` writes its target to the pc, and nothing else. -/
theorem mipsJGoesToItsRegion : Obligations.MipsJGoesToItsRegion := by
  intro s target hslot
  exact ⟨_, withoutDelaySlot_of_false hslot _, toNat_mipsJumpTarget s.pc target, rfl⟩

end Sys2Proof.Machine

/-! ### MIPS words outside the six instructions (R108, R150, R158) -/

namespace Sys2Proof

/-- Behind a closed gate no word is decoded (R150). -/
theorem decodeMips_gate_closed {p : Params} (hgate : p.mipsRepresentativeSet = false) (w : Word) :
    decodeMips p w = .illegalInstruction := by
  simp [decodeMips, hgate]

/-- A word whose `op` is that of no instruction is illegal, whatever the gate. -/
theorem decodeMips_other_op (p : Params) {w : Word} (hop : (fieldsMips w).op ∉ [0#6, 2#6, 4#6, 8#6, 35#6, 43#6]) :
    decodeMips p w = .illegalInstruction := by
  simp only [List.mem_cons, List.not_mem_nil, or_false, not_or] at hop
  obtain ⟨hadd, hj, hbeq, haddi, hlw, hsw⟩ := hop
  simp [decodeMips, hadd, hj, hbeq, haddi, hlw, hsw]

/-- A word with `op` 0 and the `funct` of another instruction than `add` is illegal, whatever the gate. -/
theorem decodeMips_other_funct (p : Params) {w : Word} (hop : (fieldsMips w).op = 0#6)
    (hfunct : (fieldsMips w).funct ≠ 32#6) : decodeMips p w = .illegalInstruction := by
  simp [decodeMips, hop, hfunct]

/-- `add` has no form with a shift amount (R108). -/
theorem decodeMips_add_shamt {p : Params} {w : Word} (hgate : p.mipsRepresentativeSet = true)
    (hop : (fieldsMips w).op = 0#6) (hfunct : (fieldsMips w).funct = 32#6) (hshamt : (fieldsMips w).shamt ≠ 0#5) :
    decodeMips p w = .refusedOperandForm := by
  simp [decodeMips, hgate, hop, hfunct, hshamt]

end Sys2Proof

namespace Sys2Proof.Machine

/-- The step of a fetched word of a MIPS run follows the MIPS decoder (R151). -/
theorem step_of_fetch_mips_word {s : State} {w : Word} (hmips : s.params.isa = .mips)
    (h : fetch s = .next (.word w)) :
    step s = andThen (ofDecoded s.pc w (decodeMips s.params w)) fun i => exec i s := by
  rw [step_of_fetch_word h, decode, hmips]

/-- Settles O13: the decoder answers the first three kinds of word alike, and the fourth by its operand form. -/
theorem otherMipsWordsAreRefused : Obligations.OtherMipsWordsAreRefused := by
  intro s w hmips hf
  have illegal (hd : decodeMips s.params w = .illegalInstruction) :
      step s = .refused (.illegalInstruction s.pc (some w)) := by
    rw [step_of_fetch_mips_word hmips hf, hd]
    rfl
  refine ⟨fun hgate => illegal (decodeMips_gate_closed hgate w), fun hop => illegal (decodeMips_other_op _ hop),
    fun hop hfunct => illegal (decodeMips_other_funct _ hop hfunct), fun hgate hop hfunct hshamt => ?_⟩
  rw [step_of_fetch_mips_word hmips hf, decodeMips_add_shamt hgate hop hfunct hshamt]
  rfl

/-! ### The assembler's displacement fields (R156, R157, R221) -/

/-- The field of `n` bits whose signed value is the number of words from `base` to `label`, where it has one. -/
def relativeField (n : Nat) (base label : Word) : Option (BitVec n) :=
  let d := (label - base).toInt
  if d % 4 = 0 ∧ -2 ^ (n - 1) ≤ d / 4 ∧ d / 4 ≤ 2 ^ (n - 1) - 1 then some (BitVec.ofInt n (d / 4)) else none

theorem assembleArmBranch_eq (p : Params) (pc label : Word) :
    assembleArmBranch p pc label = relativeField 24 (pc + p.armPcReadOffset) label := rfl

theorem assembleMipsBranch_eq (pc label : Word) : assembleMipsBranch pc label = relativeField 16 (pc + 4) label := rfl

/-- Four times the signed value of a field of at most 30 bits fits in a word. -/
theorem toInt_ofInt_four_mul {n : Nat} (hn : n ≤ 30) (imm : BitVec n) :
    (BitVec.ofInt 32 (4 * imm.toInt)).toInt = 4 * imm.toInt := by
  have hlow := BitVec.le_toInt imm
  have hhigh := BitVec.toInt_lt (x := imm)
  have hpow : (2 : Int) ^ (n - 1) ≤ 2 ^ 29 := pow_le_pow_right₀ (by decide) (by omega)
  exact BitVec.toInt_ofInt_eq_self (by decide) (by omega) (by omega)

/-- The field of a label is the one whose displacement, in words from the base, reaches it. -/
theorem relativeField_eq_some_iff {n : Nat} (hpos : 0 < n) (hn : n ≤ 30) {base label : Word} {imm : BitVec n} :
    relativeField n base label = some imm ↔ base + BitVec.ofInt 32 (4 * imm.toInt) = label := by
  constructor
  · intro h
    obtain ⟨⟨hword, hlow, hhigh⟩, ⟨⟩⟩ := Option.ite_none_right_eq_some.mp h
    rw [BitVec.toInt_ofInt_eq_self hpos hlow (by omega), Int.mul_ediv_cancel' (Int.dvd_of_emod_eq_zero hword),
      BitVec.ofInt_toInt]
    exact add_sub_cancel base label
  · rintro rfl
    have hlow := BitVec.le_toInt imm
    have hhigh := BitVec.toInt_lt (x := imm)
    simp only [relativeField, add_sub_cancel_left, toInt_ofInt_four_mul hn, Int.mul_emod_right,
      Int.mul_ediv_cancel_left _ (show (4 : Int) ≠ 0 by decide), BitVec.ofInt_toInt]
    exact if_pos ⟨trivial, hlow, by omega⟩

theorem assembleArmBranch_eq_some_iff {p : Params} {pc label : Word} {imm : BitVec 24} :
    assembleArmBranch p pc label = some imm ↔ armBranchTarget p pc imm = label := by
  rw [assembleArmBranch_eq, armBranchTarget_eq, relativeField_eq_some_iff (by decide) (by decide)]

theorem assembleMipsBranch_eq_some_iff {pc label : Word} {imm : BitVec 16} :
    assembleMipsBranch pc label = some imm ↔ mipsBranchTarget pc imm = label := by
  rw [assembleMipsBranch_eq, mipsBranchTarget_eq, relativeField_eq_some_iff (by decide) (by decide)]

/-- Pseudodirect addressing puts the region of `pc + 4` and the field where R134 says. -/
theorem fields_mipsJumpTarget (pc : Word) (target : BitVec 26) :
    (mipsJumpTarget pc target).extractLsb' 28 4 = (pc + 4).extractLsb' 28 4 ∧
      (mipsJumpTarget pc target).extractLsb' 2 26 = target ∧ (mipsJumpTarget pc target).extractLsb' 0 2 = 0#2 := by
  simp only [mipsJumpTarget, BitVec.extractLsb'_or]
  simp (disch := omega) [extract_place_inside, extract_place_above, extract_place_below]

/-- An address is its region, its place in the region and its byte in the word, put together (R134). -/
theorem place_fields_jump (a : Word) :
    place 32 28 (a.extractLsb' 28 4) ||| place 32 2 (a.extractLsb' 2 26) ||| place 32 0 (a.extractLsb' 0 2) = a := by
  unfold place
  ext k hk
  simp
  interval_cases k <;> simp

theorem assembleMipsJump_eq_some_iff {pc label : Word} {target : BitVec 26} :
    assembleMipsJump pc label = some target ↔ mipsJumpTarget pc target = label := by
  constructor
  · intro h
    obtain ⟨⟨hregion, hbyte⟩, ⟨⟩⟩ := Option.ite_none_right_eq_some.mp h
    rw [mipsJumpTarget, ← hregion, ← hbyte]
    exact place_fields_jump label
  · rintro rfl
    obtain ⟨hregion, hplace, hbyte⟩ := fields_mipsJumpTarget pc target
    rw [assembleMipsJump, if_pos ⟨hregion, hbyte⟩, hplace]

/-- Settles O15: each computation answers a field exactly when the field's target is the label. -/
theorem assembledDisplacementReachesLabel : Obligations.AssembledDisplacementReachesLabel := by
  intro p pc label
  exact ⟨⟨fun _ => assembleArmBranch_eq_some_iff.mp, fun _ => assembleArmBranch_eq_some_iff.mpr rfl⟩,
    ⟨fun _ => assembleMipsBranch_eq_some_iff.mp, fun _ => assembleMipsBranch_eq_some_iff.mpr rfl⟩,
    fun _ => assembleMipsJump_eq_some_iff.mp, fun _ => assembleMipsJump_eq_some_iff.mpr rfl⟩

end Sys2Proof.Machine

/-! ### Words of the DP format that are no `ADD` (R89, R175) -/

namespace Sys2Proof

/-- In the DP format only Opcode 4 is an instruction (R96, R175). -/
theorem decodeDp_other_opcode {w : Word} (hopc : w.extractLsb' 21 4 ≠ 4#4) (p : Params) (c : Cond) :
    decodeDp p c w = .illegalInstruction :=
  if_pos hopc

end Sys2Proof

namespace Sys2Proof.Machine

/-- Settles O8: with `F = 0` the word reaches the DP decoder, which looks at the Opcode first. -/
theorem otherDpOpcodesAreIllegal : Obligations.OtherDpOpcodesAreIllegal := by
  intro s w harm hbl hf hc hF hopc
  exact step_of_decodeArm_illegal harm hf ((decodeArm_dp hbl hc hF).trans (decodeDp_other_opcode hopc ..))

/-! ### Conditions that fault, and second operands (R93, R95, R170, R171) -/

theorem whenPassed_of_fault {c : Cond} {s : State} {r : Fault} (h : condPassed c s = .fault r) (body : Res State) :
    whenPassed c s body = .fault r := by
  rw [whenPassed, h, andThen_fault]

theorem readShifted_of_some {s : State} {rm : ArmReg} {x : Word} (hm : s.armX[rm] = some x) (h : BitVec 5) :
    readShifted s rm h = .next (x <<< h.toNat) := by
  rw [readShifted, readArm_of_some hm, andThen_next, shiftLeft]

theorem readShifted_of_none {s : State} {rm : ArmReg} (hm : s.armX[rm] = none) (h : BitVec 5) :
    readShifted s rm h = .fault (.unwrittenRegister s.pc (.armReg rm)) := by
  rw [readShifted, readArm_of_none hm, andThen_fault]

/-- An immediate has a value exactly when the mode admits it (R93). -/
theorem imm12Value_isSome (m : Imm12Mode) (imm : BitVec 12) : (imm12Value m imm).isSome = imm12Admitted m imm := by
  cases m with
  | refuseHigh =>
    simp only [imm12Value, imm12Admitted]
    split
    next hlow => exact (decide_eq_true hlow).symm
    next hhigh => exact (decide_eq_false hhigh).symm
  | zext12 | rot8 => rfl

/-! ### `ADD` as a conditional instruction with a second operand (R170, R171, R172) -/

/-- The addition of `ADD` for any form of its second operand, which is read after `Rn` (R172). -/
def addWith (s : State) (setFlags : Bool) (rd rn : ArmReg) (operand : Res Word) : Res State :=
  andThen (readArm s rn) fun a => andThen operand fun b => .next (addBody s setFlags rd a b)

theorem exec_armAddReg (c : Cond) (setFlags : Bool) (rd rn rm : ArmReg) (h : BitVec 5) (s : State) :
    exec (.armAddReg c setFlags rd rn rm h) s = whenPassed c s (addWith s setFlags rd rn (readShifted s rm h)) :=
  rfl

theorem exec_armAddImm {s : State} {imm : BitVec 12} {b : Word}
    (hb : imm12Value s.params.armImm12Mode imm = some b) (c : Cond) (setFlags : Bool) (rd rn : ArmReg) :
    exec (.armAddImm c setFlags rd rn imm) s = whenPassed c s (addWith s setFlags rd rn (.next b)) := by
  simp only [exec, execArmAddImm, hb, addWith, andThen_next]

/-- An unwritten `Rn` faults, whatever the second operand (R33, R242). -/
theorem addWith_base_none {s : State} {rn : ArmReg} (hn : s.armX[rn] = none) (setFlags : Bool) (rd : ArmReg)
    (operand : Res Word) : addWith s setFlags rd rn operand = .fault (.unwrittenRegister s.pc (.armReg rn)) := by
  rw [addWith, readArm_of_none hn, andThen_fault]

/-- With `Rn` written, the outcome is the operand's: its fault, or the sum with its value. -/
theorem addWith_base_some {s : State} {rn : ArmReg} {a : Word} (hn : s.armX[rn] = some a) (setFlags : Bool)
    (rd : ArmReg) (operand : Res Word) :
    addWith s setFlags rd rn operand = andThen operand fun b => .next (addBody s setFlags rd a b) := by
  rw [addWith, readArm_of_some hn, andThen_next]

/-- Every ARM instruction whose immediate has a value does all it does under its condition (R170). -/
theorem exec_eq_whenPassed {s : State} {i : Instr} {c : Cond} (hc : i.cond? = some c)
    (himm : immOk s.params i = true) : ∃ body, exec i s = whenPassed c s body := by
  cases i with
  | armAddImm =>
    cases hc
    rw [immOk_armAddImm, ← imm12Value_isSome] at himm
    obtain ⟨b, hb⟩ := Option.isSome_iff_exists.mp himm
    exact ⟨_, exec_armAddImm hb ..⟩
  | armAddReg | armLdrImm | armB | armBl | armLdrIndexed | armStr => cases hc; exact ⟨_, rfl⟩
  | mipsAdd | mipsAddi | mipsLw | mipsSw | mipsBeq | mipsJ => cases hc

/-- Settles O23: a condition that fails or faults decides the outcome before the body. -/
theorem conditionIsTestedFirst : Obligations.ConditionIsTestedFirst := by
  intro s i c hc himm
  obtain ⟨body, hexec⟩ := exec_eq_whenPassed hc himm
  exact ⟨fun hfails => hexec.trans (whenPassed_of_false hfails body),
    fun r hfault => hexec.trans (whenPassed_of_fault hfault body)⟩

/-! ### What `ADD` writes (R172, R173) -/

/-- `SetFlagsAdd` as R173 writes it, on bit 31 of the operands and of the result. -/
theorem State.setFlagsAdd_eq (s : State) (a b r : Word) :
    s.setFlagsAdd a b r =
      { s with
        flagN := some (r.getLsbD 31)
        flagZ := some (decide (r.toNat = 0))
        flagC := some (decide (a.toNat + b.toNat ≥ 2 ^ 32))
        flagV := some (decide (a.getLsbD 31 = b.getLsbD 31 ∧ r.getLsbD 31 ≠ a.getLsbD 31)) } := by
  have hzero : decide (r = 0) = decide (r.toNat = 0) := decide_eq_decide.mpr BitVec.toNat_eq
  have hoverflow : (a.msb == b.msb && r.msb != a.msb) = decide (a.msb = b.msb ∧ r.msb ≠ a.msb) := by
    rw [Bool.decide_and, decide_not]
    rfl
  rw [State.setFlagsAdd, hzero, hoverflow]
  simp only [BitVec.msb_eq_getLsbD_last]

/-- Settles O24: `Rn` decides first, then the form of the second operand; a sum is written as `setFlagsAdd_eq` says. -/
theorem armAddResultAndFlags : Obligations.ArmAddResultAndFlags := by
  intro s c setFlags rd rn sum after
  have hafter (a b : Word) : addBody s setFlags rd a b = after a b := by
    cases setFlags with
    | false => rfl
    | true => exact congrArg State.advance (State.setFlagsAdd_eq ..)
  refine ⟨fun hc => ⟨fun a hn => ⟨fun rm h x hm => ?_, fun rm h hm => ?_, fun imm b hb => ?_⟩,
    fun hn => ⟨fun rm h => ?_, fun imm b hb => ?_⟩⟩, fun hc => ⟨fun rm h => ?_, fun imm b hb => ?_⟩⟩
  · rw [exec_armAddReg, whenPassed_of_true hc, addWith_base_some hn, readShifted_of_some hm, andThen_next, hafter]
  · rw [exec_armAddReg, whenPassed_of_true hc, addWith_base_some hn, readShifted_of_none hm, andThen_fault]
  · rw [exec_armAddImm hb, whenPassed_of_true hc, addWith_base_some hn, andThen_next, hafter]
  · rw [exec_armAddReg, whenPassed_of_true hc, addWith_base_none hn]
  · rw [exec_armAddImm hb, whenPassed_of_true hc, addWith_base_none hn]
  · exact whenPassed_of_false hc _
  · exact (exec_armAddImm hb ..).trans (whenPassed_of_false hc _)

end Sys2Proof.Machine

/-! ### The addressing modes of transfers (R190 to R199) -/

namespace Sys2Proof.Machine

/-- With base and offset read, a mode's address and new base are those of its indexing (R190, R191). -/
theorem dtAddress_of_offset {s : State} {rn : ArmReg} {m : DtMode} {base off : Word} (hn : s.armX[rn] = some base)
    (hoff : readOffset s m = .next off) : dtAddress s rn m = .next (indexed (indexingOf m) base off) :=
  dtAddress_eq_next.mpr ⟨base, off, hn, hoff, rfl⟩

/-- Settles O59: an immediate is its own offset, a register is read, a scaled register read and shifted. -/
theorem addressingModesFollowTheTable : Obligations.AddressingModesFollowTheTable := by
  intro s rn base hn
  refine ⟨fun off => ?_, fun rm x hm => ?_⟩
  · exact ⟨dtAddress_of_offset hn rfl, dtAddress_of_offset hn rfl, dtAddress_of_offset hn rfl⟩
  · have hreg : readArm s rm = .next x := readArm_of_some hm
    refine ⟨dtAddress_of_offset hn hreg, dtAddress_of_offset hn hreg, dtAddress_of_offset hn hreg, fun h => ?_⟩
    have hshifted : readShifted s rm h = .next (x <<< h.toNat) := readShifted_of_some hm h
    exact ⟨dtAddress_of_offset hn hshifted, dtAddress_of_offset hn hshifted⟩

/-! ### Write-back with a repeated register (R200) -/

theorem writebackClash_iff {rd rn : ArmReg} {m : DtMode} :
    writebackClash rd rn m = true ↔ indexingOf m ≠ .offset ∧ (rd = rn ∨ offsetReg m = some rn) :=
  decide_eq_true_iff

/-- A mode that leaves the base admits repeated registers (R200). -/
theorem writebackClash_of_offset {m : DtMode} (h : indexingOf m = .offset) (rd rn : ArmReg) :
    writebackClash rd rn m = false :=
  decide_eq_false fun hclash => hclash.1 h

theorem writebackClash_of_ne {rd rn : ArmReg} {m : DtMode} (hd : rd ≠ rn) (hm : offsetReg m ≠ some rn) :
    writebackClash rd rn m = false :=
  decide_eq_false fun hclash => hclash.2.elim hd hm

theorem loadBody_clash {s : State} {rd rn : ArmReg} {m : DtMode} (h : writebackClash rd rn m = true) :
    loadBody s rd rn m = .refused (.refusedWritebackSameRegister s.pc) :=
  if_pos h

theorem storeBody_clash {s : State} {rd rn : ArmReg} {m : DtMode} (h : writebackClash rd rn m = true) :
    storeBody s rd rn m = .refused (.refusedWritebackSameRegister s.pc) :=
  if_pos h

/-- Settles O29: in every mode that writes the base the hypothesis is the clash, which both bodies test first. -/
theorem writebackOfRepeatedRegisterIsRefused : Obligations.WritebackOfRepeatedRegisterIsRefused := by
  intro s c rd rn m hc hrep
  have hclash : writebackClash rd rn (.indexed m) = true := by
    refine writebackClash_iff.mpr ?_
    cases m with
    | regOffset | scaledOffset => exact hrep.elim
    | immPre | immPost => exact ⟨nofun, .inl hrep⟩
    | regPre | scaledPre | regPost => exact ⟨nofun, hrep.imp_right (congrArg some)⟩
  exact ⟨(exec_armLoad rfl hc).trans (loadBody_clash hclash), (exec_armStr hc ..).trans (storeBody_clash hclash)⟩

/-! ### Loads from plain memory (R191) -/

/-- A load from plain memory writes the new base, if there is one, then the word read, and moves the pc on (R191). -/
theorem exec_armLoad_readable {i : Instr} {s : State} {c : Cond} {rd rn : ArmReg} {m : DtMode} {addr : Word}
    {wb : Option Word} (hx : dtAddress s rn m = .next (addr, wb)) (hi : i = DtOp.ldr.instr c rd rn m)
    (hc : condPassed c s = .next true) (hw : writebackClash rd rn m = false) (hr : s.readable addr) :
    exec i s =
      .next ((s.writeBase rn wb).writeArm rd (s.mem.loadWord s.params.byteOrder addr.toNat)).advance := by
  obtain ⟨ha, hd, hio⟩ := hr
  rw [exec_armLoad hi hc, loadBody_of_address hw hx, memRead_data ha hd hio, andThen_next]

/-- Settles O25: modes 5, 6 and 7 have no new base, so repeated registers are admitted. -/
theorem ldrOffsetModes : Obligations.LdrOffsetModes := by
  intro s c rd rn base hc hn after
  obtain ⟨himm, hreg⟩ := addressingModesFollowTheTable s rn base hn
  refine ⟨fun off hr => ?_, fun rm x hm hr => ?_, fun rm h x hm hr => ?_⟩
  · obtain ⟨hx, -, -⟩ := himm off
    exact exec_armLoad_readable hx rfl hc (writebackClash_of_offset rfl ..) hr
  · obtain ⟨hx, -⟩ := hreg rm x hm
    exact exec_armLoad_readable hx rfl hc (writebackClash_of_offset rfl ..) hr
  · obtain ⟨-, -, -, hscaled⟩ := hreg rm x hm
    obtain ⟨hx, -⟩ := hscaled h
    exact exec_armLoad_readable hx rfl hc (writebackClash_of_offset rfl ..) hr

/-- Settles O26: modes 8, 10 and 11 load at the sum, which is also the new base. -/
theorem ldrPreIndexedModes : Obligations.LdrPreIndexedModes := by
  intro s c rd rn base hc hn hd after
  obtain ⟨himm, hreg⟩ := addressingModesFollowTheTable s rn base hn
  refine ⟨fun off hr => ?_, fun rm x hne hm hr => ?_, fun rm h x hne hm hr => ?_⟩
  · obtain ⟨-, hx, -⟩ := himm off
    exact exec_armLoad_readable hx rfl hc (writebackClash_of_ne hd nofun) hr
  · obtain ⟨-, hx, -⟩ := hreg rm x hm
    exact exec_armLoad_readable hx rfl hc (writebackClash_of_ne hd (mt Option.some.inj hne)) hr
  · obtain ⟨-, -, -, hscaled⟩ := hreg rm x hm
    obtain ⟨-, hx⟩ := hscaled h
    exact exec_armLoad_readable hx rfl hc (writebackClash_of_ne hd (mt Option.some.inj hne)) hr

/-- Settles O27: modes 9 and 12 load at the old base; the sum is only the new one. -/
theorem ldrPostIndexedModes : Obligations.LdrPostIndexedModes := by
  intro s c rd rn base hc hn hd hr after
  obtain ⟨himm, hreg⟩ := addressingModesFollowTheTable s rn base hn
  refine ⟨fun off => ?_, fun rm x hne hm => ?_⟩
  · obtain ⟨-, -, hx⟩ := himm off
    exact exec_armLoad_readable hx rfl hc (writebackClash_of_ne hd nofun) hr
  · obtain ⟨-, -, hx, -⟩ := hreg rm x hm
    exact exec_armLoad_readable hx rfl hc (writebackClash_of_ne hd (mt Option.some.inj hne)) hr

/-! ### Stores to plain memory (R201) -/

/-- A store to plain memory stores its word, writes the new base, if there is one, and moves the pc on (R201). -/
theorem exec_armStr_writable {s : State} {c : Cond} {rd rn : ArmReg} {m : DtMode} {addr v : Word} {wb : Option Word}
    (hc : condPassed c s = .next true) (hw : writebackClash rd rn m = false)
    (hx : dtAddress s rn m = .next (addr, wb)) (hv : s.armX[rd] = some v) (hs : s.writable addr) :
    exec (.armStr c rd rn m) s =
      .next { s with
        mem := s.mem.storeWord s.params.byteOrder addr.toNat v
        armX := (s.writeBase rn wb).armX
        pc := s.pc + 4 } := by
  obtain ⟨⟨ha, hd, hio⟩, ht⟩ := hs
  rw [exec_armStr hc, storeBody_of_address hw hx hv, memWrite_data ha ht hd hio, andThen_next]
  cases wb <;> rfl

/-- Settles O28: the mode gives offset, address and new base; the rest is one store for all eight. -/
theorem strStoresInEveryMode : Obligations.StrStoresInEveryMode := by
  intro s c rd rn m base off v hc hn hv hmode addr hs
  obtain ⟨hoff, hw⟩ : readOffset s m = .next off ∧ writebackClash rd rn m = false := by
    cases m with
    | immOffset k => exact ⟨congrArg _ hmode.symm, writebackClash_of_offset rfl ..⟩
    | indexed m =>
      cases m with
      | regOffset rm => exact ⟨readArm_of_some hmode, writebackClash_of_offset rfl ..⟩
      | scaledOffset rm h =>
        obtain ⟨x, hm, rfl⟩ := hmode
        exact ⟨readShifted_of_some hm h, writebackClash_of_offset rfl ..⟩
      | immPre k | immPost k =>
        obtain ⟨rfl, hd⟩ := hmode
        exact ⟨rfl, writebackClash_of_ne hd nofun⟩
      | regPre rm | regPost rm =>
        obtain ⟨hm, hd, hne⟩ := hmode
        exact ⟨readArm_of_some hm, writebackClash_of_ne hd (mt Option.some.inj hne)⟩
      | scaledPre rm h =>
        obtain ⟨⟨x, hm, rfl⟩, hd, hne⟩ := hmode
        exact ⟨readShifted_of_some hm h, writebackClash_of_ne hd (mt Option.some.inj hne)⟩
  have haddr : (indexed (indexingOf m) base off).1 = addr := by
    cases m with
    | immOffset => rfl
    | indexed m => cases m <;> rfl
  have hx : dtAddress s rn m = .next (addr, (indexed (indexingOf m) base off).2) :=
    haddr ▸ dtAddress_of_offset hn hoff
  refine ⟨_, exec_armStr_writable hc hw hx hv hs, Memory.loadWord_storeWord ..,
    fun x hout => Memory.read_storeWord_outside _ _ _ _ _ hout, ?_⟩
  cases m with
  | immOffset => rfl
  | indexed m => cases m <;> rfl

/-! ### The same state with another text -/

/-- The state with another program as `TEXT` (R5). -/
def State.withText (s : State) (text : Program) : State := { s with params := { s.params with text := text } }

@[simp] theorem State.withText_pc (s : State) (text : Program) : (s.withText text).pc = s.pc := rfl

@[simp] theorem State.withText_text (s : State) (text : Program) : (s.withText text).params.text = text := rfl

@[simp] theorem State.withText_textBase (s : State) (text : Program) :
    (s.withText text).params.textBase = s.params.textBase := rfl

/-- The second state is the first with its text replaced. -/
def UpToText (text : Program) (s t : State) : Prop := t = s.withText text

section
variable {s : State} {text : Program}

/-- The text range is a matter of the program's length alone (R54). -/
theorem textEnd_withText (hlen : text.length = s.params.text.length) :
    textEnd (s.withText text).params = textEnd s.params :=
  congrArg (s.params.textBase.toNat + 4 * ·) hlen

theorem inText_withText (hlen : text.length = s.params.text.length) (a : Nat) :
    inText (s.withText text).params a = inText s.params a := by
  unfold inText
  rw [textEnd_withText hlen]
  rfl

theorem endAddress_withText (hlen : text.length = s.params.text.length) :
    endAddress (s.withText text).params = endAddress s.params := by
  unfold endAddress
  rw [textEnd_withText hlen]
  rfl

theorem wordTouchesText_withText (hlen : text.length = s.params.text.length) (addr : Word) :
    wordTouchesText (s.withText text).params addr = wordTouchesText s.params addr := by
  simp only [wordTouchesText, inText_withText hlen]

/-- A word read does not look at the text (R57). -/
theorem memRead_withText (s : State) (text : Program) (addr : Word) :
    Alike (fun x y => y = (x.1, x.2.withText text)) (memRead s addr) (memRead (s.withText text) addr) := by
  unfold memRead
  exact .ite rfl (.ite rfl (.ite rfl rfl))

/-- A word write looks at the text range alone (R57, R65). -/
theorem memWrite_withText (hlen : text.length = s.params.text.length) (addr v : Word) :
    Alike (UpToText text) (memWrite s addr v) (memWrite (s.withText text) addr v) := by
  unfold memWrite
  rw [wordTouchesText_withText hlen]
  exact .ite rfl (.ite rfl (.ite rfl (.ite rfl rfl)))

theorem writeBase_withText (s : State) (text : Program) (rn : ArmReg) (wb : Option Word) :
    (s.withText text).writeBase rn wb = (s.writeBase rn wb).withText text := by
  cases wb <;> rfl

theorem writeMips_withText (s : State) (text : Program) (r : MipsReg) (v : Word) :
    (s.withText text).writeMips r v = (s.writeMips r v).withText text := by
  obtain ⟨_ | n, hn⟩ := r <;> rfl

theorem addBody_withText (s : State) (text : Program) (setFlags : Bool) (rd : ArmReg) (a b : Word) :
    addBody (s.withText text) setFlags rd a b = (addBody s setFlags rd a b).withText text := by
  cases setFlags <;> rfl

theorem whenPassed_withText (c : Cond) {body body' : Res State} (hbody : Alike (UpToText text) body body') :
    Alike (UpToText text) (whenPassed c s body) (whenPassed c (s.withText text) body') :=
  .andThen_same rfl fun _ => .ite hbody rfl

theorem loadBody_withText (s : State) (text : Program) (rd rn : ArmReg) (m : DtMode) :
    Alike (UpToText text) (loadBody s rd rn m) (loadBody (s.withText text) rd rn m) := by
  refine .ite rfl <| .andThen_same rfl fun x => (memRead_withText s text x.1).andThen ?_
  rintro ⟨v, u⟩ _ rfl
  exact congrArg (fun t : State => (t.writeArm rd v).advance) (writeBase_withText u text rn x.2)

theorem storeBody_withText (hlen : text.length = s.params.text.length) (rd rn : ArmReg) (m : DtMode) :
    Alike (UpToText text) (storeBody s rd rn m) (storeBody (s.withText text) rd rn m) := by
  refine .ite rfl <| .andThen_same rfl fun x => .andThen_same rfl fun v =>
    (memWrite_withText hlen x.1 v).andThen ?_
  rintro u _ rfl
  exact congrArg State.advance (writeBase_withText u text rn x.2)

theorem execArmAddImm_withText (s : State) (text : Program) (c : Cond) (setFlags : Bool) (rd rn : ArmReg)
    (imm : BitVec 12) :
    Alike (UpToText text) (execArmAddImm c setFlags rd rn imm s)
      (execArmAddImm c setFlags rd rn imm (s.withText text)) := by
  have hmode : (s.withText text).params.armImm12Mode = s.params.armImm12Mode := rfl
  unfold execArmAddImm
  rw [hmode]
  split
  · exact whenPassed_withText c <| .andThen_same rfl fun a => addBody_withText ..
  · exact .ite rfl rfl

/-- Every instruction goes on alike under another text of the same length. -/
theorem exec_withText (hlen : text.length = s.params.text.length) (i : Instr) :
    Alike (UpToText text) (exec i s) (exec i (s.withText text)) := by
  cases i with
  | armAddReg c =>
    exact whenPassed_withText c <| .andThen_same rfl fun a => .andThen_same rfl fun b => addBody_withText ..
  | armAddImm => exact execArmAddImm_withText ..
  | armB c | armBl c => exact whenPassed_withText c rfl
  | armLdrImm c | armLdrIndexed c => exact whenPassed_withText c (loadBody_withText ..)
  | armStr c => exact whenPassed_withText c (storeBody_withText hlen ..)
  | mipsAdd rd rs rt =>
    exact .andThen_same rfl fun a => .andThen_same rfl fun b => .andThen_same rfl fun r =>
      congrArg State.advance (writeMips_withText s text rd r)
  | mipsAddi rt rs imm =>
    exact .andThen_same rfl fun a => .andThen_same rfl fun r =>
      congrArg State.advance (writeMips_withText s text rt r)
  | mipsLw rt rs imm =>
    refine .andThen_same rfl fun addr => (memRead_withText s text addr).andThen ?_
    rintro ⟨v, u⟩ _ rfl
    exact congrArg State.advance (writeMips_withText u text rt v)
  | mipsSw rt rs imm =>
    exact .andThen_same rfl fun addr => .andThen_same rfl fun v =>
      (memWrite_withText hlen addr v).andThen fun _ _ hu => congrArg State.advance hu
  | mipsBeq rs rt imm =>
    refine .ite rfl <| .andThen_same rfl fun a => .andThen_same rfl fun b => ?_
    change UpToText text (if _ then _ else _) (if _ then _ else _)
    split <;> rfl
  | mipsJ => exact .ite rfl rfl

end

/-! ### Words and the terms they encode (R190, R109) -/

/-- The instruction is well formed and the word is its encoding. -/
def EncodedAs (p : Params) (i : Instr) (w : Word) : Prop := WellFormed p i = true ∧ encode p i = some w

/-- The slots are a word and the term it encodes. -/
def SlotEncodes (p : Params) (x y : Slot) : Prop := ∃ i w, x = .word w ∧ y = .term i ∧ EncodedAs p i w

section
variable {ws : List Word} {is : List Instr}

theorem terms_length_eq {p q : Params} (htext : q.text = .words ws) (h : List.Forall₂ (EncodedAs p) is ws) :
    (Program.terms is).length = q.text.length := by
  rw [htext]
  exact h.length_eq

/-- Slot by slot, the words and the terms match, and both programs end at the same slot. -/
theorem programSlot_encodes {p : Params} (h : List.Forall₂ (EncodedAs p) is ws) (k : Nat) :
    Option.Rel (SlotEncodes p) (programSlot (.words ws) k) (programSlot (.terms is) k) := by
  induction h generalizing k with
  | nil => exact .none
  | @cons i w is ws hiw hrest ih =>
    cases k with
    | zero => exact .some ⟨i, w, rfl, rfl, hiw⟩
    | succ k => exact ih k

/-- Both runs stop at the same fetch check, or fetch a word and its term (R54). -/
theorem fetch_encodes {s : State} (htext : s.params.text = .words ws) (h : List.Forall₂ (EncodedAs s.params) is ws) :
    Alike (SlotEncodes s.params) (fetch s) (fetch (s.withText (.terms is))) := by
  have hlen := terms_length_eq htext h
  have hslot := programSlot_encodes h ((s.pc.toNat - s.params.textBase.toNat) / 4)
  simp only [fetch, State.withText_pc, State.withText_text, State.withText_textBase, endAddress_withText hlen,
    inText_withText hlen, htext]
  refine .ite rfl (.ite rfl (.ite rfl ?_))
  generalize programSlot (.words ws) _ = x, programSlot (.terms is) _ = y at hslot ⊢
  cases hslot with
  | some hxy => exact hxy
  | none => rfl

/-- A word and its term are read as the same instruction (R107, R108, R190). -/
theorem readSlot_encodes {s : State} {x y : Slot} (hd : s.params.dtMapOk = true) (hb : s.params.blFieldOk = true)
    (h : SlotEncodes s.params x y) : readSlot (s.withText (.terms is)) y = readSlot s x := by
  obtain ⟨i, w, rfl, rfl, hwf, henc⟩ := h
  obtain ⟨hisa, hgate, -, -⟩ := wellFormed_iff.mp hwf
  have hword : decode s.params w = .ok i := encodedInstructionDecodesToItself s.params i w hd hb hwf henc
  have hterm : (isaOk s.params i && gateOk s.params i) = true := by simp [isaOk, hisa, hgate]
  rw [readSlot, hword]
  exact if_pos hterm

/-- The first state runs the words under the parameters `p`, the second their terms; all else is the same. -/
def Transcribed (p : Params) (is : List Instr) (s t : State) : Prop := s.params = p ∧ UpToText (.terms is) s t

theorem Alike.of_next {α β : Type} {R Q : α → β → Prop} {o : Res α} {o' : Res β} (h : Alike R o o')
    (hf : ∀ a b, o = .next a → R a b → Q a b) : Alike Q o o' := by
  cases o with
  | next a =>
    cases o' with
    | next b => exact hf a b rfl h
    | fault | refused => exact h.elim
  | fault | refused => cases o' <;> exact h

theorem step_transcribed {p : Params} (hd : p.dtMapOk = true) (hb : p.blFieldOk = true)
    (htext : p.text = .words ws) (h : List.Forall₂ (EncodedAs p) is ws) (s t : State) (hst : Transcribed p is s t) :
    Alike (Transcribed p is) (step s) (step t) := by
  obtain ⟨rfl, rfl⟩ := hst
  have hlen := terms_length_eq htext h
  have hstep : Alike (UpToText (.terms is)) (step s) (step (s.withText (.terms is))) :=
    (fetch_encodes htext h).andThen fun x y hxy =>
      .andThen_same (readSlot_encodes hd hb hxy) fun i => exec_withText hlen i
  exact hstep.of_next fun a b ha hab => ⟨stepKeepsParameters s a ha, hab⟩

end

/-- Settles O57: every step keeps the relation between the two runs, so every run does. -/
theorem wordsAndTermsRunAlike : Obligations.WordsAndTermsRunAlike := by
  intro k s ws is hd hb h withText
  have hrun := Alike.run (R := Transcribed (withText s (.words ws)).params is)
    (step_transcribed hd hb rfl h) k (s := withText s (.words ws)) (t := withText s (.terms is)) ⟨rfl, rfl⟩
  generalize Sys2Proof.core.run k (withText s (.words ws)) = o,
    Sys2Proof.core.run k (withText s (.terms is)) = o' at hrun ⊢
  cases o with
  | next a =>
    cases o' with
    | next b => exact hrun.2
    | fault | refused => exact hrun
  | fault | refused => cases o' <;> exact hrun

end Sys2Proof.Machine

/-! ### ARM words with condition 15 (R225) -/

namespace Sys2Proof

/-- Condition 15 is tested before any other field of the word (R107, R225). -/
theorem decodeArm_fifteen {w : Word} (hc : w.extractLsb' 28 4 = 15#4) (p : Params) :
    decodeArm p w = .reservedCondition := by
  have hnv : Cond.ofBits (w.extractLsb' 28 4) = .nv := by rw [hc]; rfl
  exact if_pos hnv

end Sys2Proof

namespace Sys2Proof.Machine

/-- Settles O7: the decoder's first test answers, and the step keeps its fault. -/
theorem conditionFifteenIsReserved : Obligations.ConditionFifteenIsReserved := by
  intro s w harm hf hc
  rw [step_of_fetch_arm_word harm hf, decodeArm_fifteen hc]
  rfl

/-! ### `BL` (R223) -/

/-- Settles O33: the body of `BL` writes `r14` and the pc, and its target is the one R221 gives. -/
theorem branchWithLinkSavesReturnAddress : Obligations.BranchWithLinkSavesReturnAddress := by
  intro s cond imm hc
  rw [← armBranchTarget_eq]
  exact whenPassed_of_true hc _

end Sys2Proof.Machine

/-! ### The table of conditions (R220) -/

namespace Sys2Proof

/-- The condition `c xor 1` (R220). -/
def Cond.complement (c : Cond) : Cond := Cond.ofBits (c.bits ^^^ 1#4)

end Sys2Proof

namespace Sys2Proof.Machine

/-- The flags the row of a condition names, in the row's order. -/
def namedFlags : Cond → List Flag
  | .eq | .ne => [.z]
  | .hs | .lo => [.c]
  | .mi | .pl => [.n]
  | .vs | .vc => [.v]
  | .hi | .ls => [.c, .z]
  | .ge | .lt => [.n, .v]
  | .gt | .le => [.z, .n, .v]
  | .al | .nv => []

/-- What the row of a condition says of the values of the flags; R220 has no row for NV. -/
def rowHolds (value : Flag → Bool) : Cond → Bool
  | .eq => value .z
  | .ne => !value .z
  | .hs => value .c
  | .lo => !value .c
  | .mi => value .n
  | .pl => !value .n
  | .vs => value .v
  | .vc => !value .v
  | .hi => value .c && !value .z
  | .ls => !value .c || value .z
  | .ge => value .n == value .v
  | .lt => value .n != value .v
  | .gt => !value .z && value .n == value .v
  | .le => value .z || value .n != value .v
  | .al => true
  | .nv => false

/-- A row depends on the flags it names alone. -/
theorem rowHolds_congr {value value' : Flag → Bool} {c : Cond} (h : ∀ f ∈ namedFlags c, value f = value' f) :
    rowHolds value c = rowHolds value' c := by
  cases c <;> simp_all [namedFlags, rowHolds]

/-- The value of a flag; what it is for a flag without one no outcome depends on, as the test faults first. -/
def State.flagValue (s : State) (f : Flag) : Bool := (s.flag f).getD false

theorem State.flagValue_of_some {s : State} {f : Flag} {b : Bool} (h : s.flag f = some b) : s.flagValue f = b := by
  rw [State.flagValue, h, Option.getD_some]

/-- The outcome `b` of a test that reads the flags `fs`: the first of them without a value faults instead (R33). -/
def testFlags (s : State) (fs : List Flag) (b : Bool) : Res Bool :=
  match fs.find? fun f => (s.flag f).isNone with
  | some f => .fault (.unwrittenRegister s.pc (.flag f))
  | none => .next b

@[simp] theorem testFlags_nil (s : State) (b : Bool) : testFlags s [] b = .next b := rfl

/-- A read of a flag puts it in front of the flags the rest of the test reads. -/
theorem andThen_readFlag {s : State} {f : Flag} {fs : List Flag} {b : Bool} {k : Bool → Res Bool}
    (hk : k (s.flagValue f) = testFlags s fs b) : andThen (readFlag s f) k = testFlags s (f :: fs) b := by
  cases hf : s.flag f with
  | none => simp [readFlag_of_none hf, testFlags, hf]
  | some x =>
    rw [State.flagValue_of_some hf] at hk
    simp [readFlag_of_some hf, hk, testFlags, hf]

theorem andThen_next_right {α : Type} (o : Res α) : andThen o .next = o := by
  cases o <;> rfl

/-- A read of one flag is the test whose outcome is that flag. -/
theorem readFlag_eq_testFlags (s : State) (f : Flag) : readFlag s f = testFlags s [f] (s.flagValue f) :=
  (andThen_next_right _).symm.trans (andThen_readFlag (testFlags_nil ..).symm)

/-- A test answers exactly when every flag it reads holds a value. -/
theorem testFlags_eq_next {s : State} {fs : List Flag} {b x : Bool} :
    testFlags s fs b = .next x ↔ (∀ f ∈ fs, s.flag f ≠ none) ∧ b = x := by
  cases hfind : fs.find? fun f => (s.flag f).isNone with
  | none =>
    have hall : ∀ f ∈ fs, s.flag f ≠ none := by simpa using List.find?_eq_none.mp hfind
    simpa [testFlags, hfind] using fun _ => hall
  | some f =>
    have hnot : ¬ ∀ f ∈ fs, s.flag f ≠ none := fun hall =>
      hall f (List.mem_of_find?_eq_some hfind) (by simpa using List.find?_some hfind)
    simp [testFlags, hfind, hnot]

/-- A test that reads a flag without a value faults, and names such a flag. -/
theorem testFlags_of_unwritten {s : State} {fs : List Flag} (h : ∃ f ∈ fs, s.flag f = none) (b : Bool) :
    ∃ f ∈ fs, s.flag f = none ∧ testFlags s fs b = .fault (.unwrittenRegister s.pc (.flag f)) := by
  have hsome : (fs.find? fun f => (s.flag f).isNone).isSome := by simpa using h
  obtain ⟨f, hfind⟩ := Option.isSome_iff_exists.mp hsome
  exact ⟨f, List.mem_of_find?_eq_some hfind, by simpa using List.find?_some hfind, by rw [testFlags, hfind]⟩

/-- A test depends on the pc it would record and on the flags it reads alone. -/
theorem testFlags_congr {s t : State} {fs : List Flag} (hpc : s.pc = t.pc) (h : ∀ f ∈ fs, s.flag f = t.flag f)
    (b : Bool) : testFlags s fs b = testFlags t fs b := by
  have hfind : (fs.find? fun f => (s.flag f).isNone) = fs.find? fun f => (t.flag f).isNone :=
    List.find?_congr fun f hf => congrArg Option.isNone (h f hf)
  rw [testFlags, testFlags, hfind, hpc]

/-- A condition reads the flags of its row in order, then answers what the row says of their values (R220). -/
theorem condPassed_eq_testFlags {c : Cond} (h : c ≠ .nv) (s : State) :
    condPassed c s = testFlags s (namedFlags c) (rowHolds s.flagValue c) := by
  cases c with
  | eq | hs | mi | vs => exact readFlag_eq_testFlags ..
  | ne | lo | pl | vc => exact andThen_readFlag (testFlags_nil ..).symm
  | hi | ls | ge | lt => exact andThen_readFlag (andThen_readFlag (testFlags_nil ..).symm)
  | gt | le => exact andThen_readFlag (andThen_readFlag (andThen_readFlag (testFlags_nil ..).symm))
  | al => exact (testFlags_nil ..).symm
  | nv => exact absurd rfl h

/-- A condition depends on the pc it would record and on the flags its row names alone (R220). -/
theorem condPassed_congr {s t : State} {c : Cond} (hpc : s.pc = t.pc) (h : ∀ f ∈ namedFlags c, s.flag f = t.flag f) :
    condPassed c s = condPassed c t := by
  by_cases hc : c = .nv
  · subst hc
    simp only [condPassed, hpc]
  · have hrow : rowHolds s.flagValue c = rowHolds t.flagValue c :=
      rowHolds_congr fun f hf => congrArg (Option.getD · false) (h f hf)
    rw [condPassed_eq_testFlags hc, condPassed_eq_testFlags hc, hrow, testFlags_congr hpc h]

/-- Conditions `c` and `c xor 1` name the same flags, and their rows say the opposite of them (R220). -/
theorem complementary_row {c : Cond} (hal : c ≠ .al) (hnv : c ≠ .nv) :
    c.complement ≠ .nv ∧ namedFlags c.complement = namedFlags c ∧
      ∀ value, rowHolds value c.complement = !rowHolds value c := by
  cases c with
  | al => exact absurd rfl hal
  | nv => exact absurd rfl hnv
  | _ => exact ⟨by decide, rfl, fun value => by simp [Cond.complement, Cond.ofBits, Cond.bits, rowHolds, bne]⟩

theorem ne_nv_of_mem_namedFlags {c : Cond} {f : Flag} (h : f ∈ namedFlags c) : c ≠ .nv := by
  rintro rfl
  exact List.not_mem_nil h

/-- Settles O22: a condition is the test of its row's flags, so each clause is a fact about such tests or about the
rows. -/
theorem conditionPredicates : Obligations.ConditionPredicates := by
  unfold Obligations.ConditionPredicates
  intro named
  have hnamed : named = namedFlags := rfl
  rw [hnamed]
  refine ⟨fun s n z c v hn hz hc hv cond hnv => ?_, fun s t cond hpc h => condPassed_congr hpc h,
    fun s cond h => ?_, fun s cond x hal hnv h => ?_⟩
  · have hwritten (f : Flag) : s.flag f ≠ none := by cases f <;> simp [State.flag, hn, hz, hc, hv]
    obtain rfl := s.flagValue_of_some (f := .n) hn
    obtain rfl := s.flagValue_of_some (f := .z) hz
    obtain rfl := s.flagValue_of_some (f := .c) hc
    obtain rfl := s.flagValue_of_some (f := .v) hv
    rw [condPassed_eq_testFlags hnv]
    exact testFlags_eq_next.mpr ⟨fun f _ => hwritten f, rfl⟩
  · have ⟨f, hf, _⟩ := h
    rw [condPassed_eq_testFlags (ne_nv_of_mem_namedFlags hf)]
    exact testFlags_of_unwritten h _
  · obtain ⟨hnv', hflags, hrow⟩ := complementary_row hal hnv
    rw [condPassed_eq_testFlags hnv] at h
    obtain ⟨hwritten, hx⟩ := testFlags_eq_next.mp h
    change condPassed cond.complement s = .next (!x)
    rw [condPassed_eq_testFlags hnv', hflags, hrow, hx]
    exact testFlags_eq_next.mpr ⟨hwritten, rfl⟩

end Sys2Proof.Machine

/-! ### Branches with a delay slot (R274) -/

namespace Sys2Proof.Machine

/-- With a delay slot a branch or jump is refused at its pc before its body runs (R274). -/
theorem withoutDelaySlot_of_true {s : State} (h : s.params.mipsBranchDelaySlot = true) (body : Res State) :
    withoutDelaySlot s body = .refused (.delaySlotWithoutRules s.pc) :=
  if_pos h

/-- Settles O41: `beq` and `j` both stand behind the check of the delay slot, which refuses whatever they would do. -/
theorem delaySlotHasNoRules : Obligations.DelaySlotHasNoRules := by
  intro s hslot
  refine ⟨fun rs rt imm => ?_, fun target => ?_⟩
  · rw [exec, execMipsBeq, withoutDelaySlot_of_true hslot]
  · rw [exec, execMipsJ, withoutDelaySlot_of_true hslot]

end Sys2Proof.Machine
